-- ==== Sys2Proof/Word.lean ====
section
/-! DEFINITION. The two word sizes of the machine (00_scope.md R6): `u8` and `u16`. -/

namespace Sys2Proof

/-- `u8`: an 8-bit value, the addressable unit and the width of a register cell. -/
abbrev Byte := BitVec 8

/-- `u16`: a 16-bit value, the width of an address, of `pc`, of `sp` and of a register pair. -/
abbrev Word := BitVec 16

end Sys2Proof
end

