-- ==== Sys2Proof/Config.lean ====
section
/-! DEFINITION. What is fixed for one machine: the addresses and vectors the core fixes, and the parameters of
00_scope.md R5: `CoreParams`, which instructions depend on, and `ResetParams`, which adds the OPEN ones of reset. -/

namespace Sys2Proof

/-- The five interrupt sources, in the order of their bits (60_exceptions.md R362). -/
inductive Irq where
  | vblank | stat | timer | serial | joypad
deriving DecidableEq, Repr

namespace Config

/-- IF, the interrupt request byte (10_state.md R40). -/
def ifAddr : Word := 0xFF0F#16

/-- IE, the interrupt enable byte (10_state.md R40). -/
def ieAddr : Word := 0xFFFF#16

/-- `sp` after reset, "Initialized to 0xFFFE" (10_state.md R43). -/
def resetSp : Word := 0xFFFE#16

/-- The default value of `ILLEGAL_OPCODES`: the 11 base opcode bytes to which the opcode map gives no instruction
(30_encoding.md R108, 46_system.md R346, D2). -/
def illegalOpcodes : List Byte :=
  [0xD3#8, 0xDB#8, 0xDD#8, 0xE3#8, 0xE4#8, 0xEB#8, 0xEC#8, 0xED#8, 0xF4#8, 0xFC#8, 0xFD#8]

end Config

/-- The parameters of 00_scope.md R5 that instructions depend on, arguments of the model (43_rotate_shift_bit.md R224,
92_eei_decisions.md section 1): `ILLEGAL_OPCODES`, "set of base opcode bytes" (D2), and `ROTA_CLEARS_ZNH` (D7). -/
structure CoreParams where
  illegalOpcodes : List Byte
  rotaClearsZnh  : Bool
deriving DecidableEq, Repr

/-- The defaults the spec gives them (00_scope.md R5). -/
def CoreParams.default : CoreParams := { illegalOpcodes := Config.illegalOpcodes, rotaClearsZnh := false }

/-- The parameters a machine comes out of reset with (00_scope.md R5): the OPEN ones of 10_state.md R43, `RESET_PC`,
`RESET_IME`, `RESET_REGS` (F has only its high nibble) and the initial contents of the bytes behind the bus; and the
parameters of the core. -/
structure ResetParams where
  pc    : Word
  ime   : Bool
  a     : Byte
  b     : Byte
  c     : Byte
  d     : Byte
  e     : Byte
  fHigh : BitVec 4
  h     : Byte
  l     : Byte
  mem   : List Host.Cell
  core  : CoreParams
deriving DecidableEq, Repr

/-- The parameters `State.reset` uses. DESIGN CHOICE, unsafe: the spec leaves the reset parameters open (log 1 to 4).
`RESET_PC = 0x0000` is the value that reproduces KGB's scenarios (70_reset_and_hazards.md R402). The parameters of
the core are at the defaults the spec gives them. -/
def ResetParams.chosen : ResetParams :=
  { pc := 0, ime := false, a := 0, b := 0, c := 0, d := 0, e := 0, fHigh := 0, h := 0, l := 0, mem := [],
    core := CoreParams.default }

end Sys2Proof
end

