-- ==== Sys2Proof/Syntax.lean ====
section
/-! DEFINITION. The instructions as syntax: one constructor of `Instr` for each row of spec/opcode_table.json, with
the operand metadata the decoder extracts (30_encoding.md R92, R94 to R101) and nothing else: "It does not see, read
or carry immediate bytes" (R91), an executing instruction fetches its own immediates. -/

namespace Sys2Proof

/-- The eight cells of the register file (10_state.md R20). -/
inductive Reg8 where
  | a | b | c | d | e | f | h | l
deriving DecidableEq, Repr

/-- The seven cells an operand field can select; F is not among them (10_state.md R21). -/
inductive Gpr where
  | b | c | d | e | h | l | a
deriving DecidableEq, Repr

/-- What the 3-bit operand field selects: a register, or the byte at HL (30_encoding.md R96). -/
inductive Op8 where
  | reg (n : Gpr)
  | memHl
deriving DecidableEq, Repr

/-- The pair field of LD rr,d16, INC rr, DEC rr and ADD HL,rr (30_encoding.md R97). -/
inductive Pair where
  | bc | de | hl | sp
deriving DecidableEq, Repr

/-- The pair field of PUSH and POP (30_encoding.md R97, D6). -/
inductive StackPair where
  | bc | de | hl | af
deriving DecidableEq, Repr

/-- The condition field of the conditional JP, JR, CALL and RET (30_encoding.md R98, D5). -/
inductive Cond where
  | nz | z | nc | c
deriving DecidableEq, Repr

/-- The memory addressing modes of the loads (20_memory.md R62): memory-at-HL, memory-at-register-pair (BC or DE),
memory-at-16-bit-immediate, memory-at-(0xFF00+8-bit-immediate), memory-at-(0xFF00+C). -/
inductive AddrMode where
  | hl | bc | de | imm16 | highImm8 | highC
deriving DecidableEq, Repr

/-- The 11 instructions behind the byte 0xCB, as the decoder's second table gives them (30_encoding.md R100, R109).
The bit index is a 3-bit field, so R110's range check is its type. -/
inductive CbInstr where
  | rlc (r : Op8) | rrc (r : Op8) | rl (r : Op8) | rr (r : Op8)
  | sla (r : Op8) | sra (r : Op8) | swap (r : Op8) | srl (r : Op8)
  | bit (b : BitVec 3) (r : Op8) | res (b : BitVec 3) (r : Op8) | set (b : BitVec 3) (r : Op8)
deriving DecidableEq, Repr

/-- One constructor per row of spec/opcode_table.json, in the table's order. The row PREFIX_CB and the 11 ILLEGAL
rows are bytes that are no instruction by themselves (log 8); `Instr.wf` tells them apart. -/
inductive Instr where
  /-- NOP, `00000000`, R340. -/
  | nop
  /-- LD (a16),SP, `00001000`, R307. -/
  | ldMemA16Sp
  /-- STOP, `00010000`, R342. -/
  | stop
  /-- JR e8, `00011000`, R263. -/
  | jrE8
  /-- JR cc,e8, `001cc000`, R264. -/
  | jrCcE8 (cc : Cond)
  /-- LD rr,d16, `00pp0001`, R292. -/
  | ldRrD16 (p : Pair)
  /-- ADD HL,rr, `00pp1001`, R202. -/
  | addHlRr (p : Pair)
  /-- LD (BC),A, `00000010`, R293. -/
  | ldMemBcA
  /-- LD (DE),A, `00010010`, R294. -/
  | ldMemDeA
  /-- LD (HL+),A, `00100010`, R297. -/
  | ldMemHlIncA
  /-- LD (HL-),A, `00110010`, R299. -/
  | ldMemHlDecA
  /-- LD A,(BC), `00001010`, R295. -/
  | ldAMemBc
  /-- LD A,(DE), `00011010`, R296. -/
  | ldAMemDe
  /-- LD A,(HL+), `00101010`, R298. -/
  | ldAMemHlInc
  /-- LD A,(HL-), `00111010`, R300. -/
  | ldAMemHlDec
  /-- INC rr, `00pp0011`, R200. -/
  | incRr (p : Pair)
  /-- DEC rr, `00pp1011`, R201. -/
  | decRr (p : Pair)
  /-- INC r8, `00rrr100`, R176. -/
  | incR8 (r : Op8)
  /-- DEC r8, `00rrr101`, R177. -/
  | decR8 (r : Op8)
  /-- LD r8,d8, `00rrr110`, R291. -/
  | ldR8D8 (r : Op8)
  /-- RLCA, `00000111`, R220. -/
  | rlca
  /-- RRCA, `00001111`, R221. -/
  | rrca
  /-- RLA, `00010111`, R222. -/
  | rla
  /-- RRA, `00011111`, R223. -/
  | rra
  /-- DAA, `00100111`, R178. -/
  | daa
  /-- CPL, `00101111`, R179. -/
  | cpl
  /-- SCF, `00110111`, R180. -/
  | scf
  /-- CCF, `00111111`, R181. -/
  | ccf
  /-- LD B,r8, `01000sss`, R290. -/
  | ldBR8 (s : Op8)
  /-- LD C,r8, `01001sss`, R290. -/
  | ldCR8 (s : Op8)
  /-- LD D,r8, `01010sss`, R290. -/
  | ldDR8 (s : Op8)
  /-- LD E,r8, `01011sss`, R290. -/
  | ldER8 (s : Op8)
  /-- LD H,r8, `01100sss`, R290. -/
  | ldHR8 (s : Op8)
  /-- LD L,r8, `01101sss`, R290. -/
  | ldLR8 (s : Op8)
  /-- LD (HL),B, `01110000`, R290. -/
  | ldMemHlB
  /-- LD (HL),C, `01110001`, R290. -/
  | ldMemHlC
  /-- LD (HL),D, `01110010`, R290. -/
  | ldMemHlD
  /-- LD (HL),E, `01110011`, R290. -/
  | ldMemHlE
  /-- LD (HL),H, `01110100`, R290. -/
  | ldMemHlH
  /-- LD (HL),L, `01110101`, R290. -/
  | ldMemHlL
  /-- LD (HL),A, `01110111`, R290. -/
  | ldMemHlA
  /-- HALT, `01110110`, R341. -/
  | halt
  /-- LD A,r8, `01111sss`, R290. -/
  | ldAR8 (s : Op8)
  /-- ADD A,r8, `10000rrr`, R160. -/
  | addAR8 (r : Op8)
  /-- ADC A,r8, `10001rrr`, R162. -/
  | adcAR8 (r : Op8)
  /-- SUB r8, `10010rrr`, R164. -/
  | subR8 (r : Op8)
  /-- SBC A,r8, `10011rrr`, R166. -/
  | sbcAR8 (r : Op8)
  /-- AND r8, `10100rrr`, R168. -/
  | andR8 (r : Op8)
  /-- XOR r8, `10101rrr`, R170. -/
  | xorR8 (r : Op8)
  /-- OR r8, `10110rrr`, R172. -/
  | orR8 (r : Op8)
  /-- CP r8, `10111rrr`, R174. -/
  | cpR8 (r : Op8)
  /-- RET cc, `110cc000`, R268. -/
  | retCc (cc : Cond)
  /-- LDH (a8),A, `11100000`, R303. -/
  | ldhMemA8A
  /-- ADD SP,e8, `11101000`, R203. -/
  | addSpE8
  /-- LDH A,(a8), `11110000`, R304. -/
  | ldhAMemA8
  /-- LD HL,SP+e8, `11111000`, R204. -/
  | ldHlSpE8
  /-- POP rr, `11pp0001`, R331. -/
  | popRr (p : StackPair)
  /-- RET, `11001001`, R267. -/
  | ret
  /-- RETI, `11011001`, R269. -/
  | reti
  /-- JP HL, `11101001`, R262. -/
  | jpHl
  /-- LD SP,HL, `11111001`, R308. -/
  | ldSpHl
  /-- JP cc,a16, `110cc010`, R261. -/
  | jpCcA16 (cc : Cond)
  /-- LD (C),A, `11100010`, R305. -/
  | ldMemCA
  /-- LD (a16),A, `11101010`, R301. -/
  | ldMemA16A
  /-- LD A,(C), `11110010`, R306. -/
  | ldAMemC
  /-- LD A,(a16), `11111010`, R302. -/
  | ldAMemA16
  /-- JP a16, `11000011`, R260. -/
  | jpA16
  /-- PREFIX CB, `11001011`, R345. -/
  | prefixCb
  /-- DI, `11110011`, R343. -/
  | di
  /-- EI, `11111011`, R344. -/
  | ei
  /-- CALL cc,a16, `110cc100`, R266. -/
  | callCcA16 (cc : Cond)
  /-- PUSH rr, `11pp0101`, R330. -/
  | pushRr (p : StackPair)
  /-- CALL a16, `11001101`, R265. -/
  | callA16
  /-- ADD A,d8, `11000110`, R161. -/
  | addAD8
  /-- ADC A,d8, `11001110`, R163. -/
  | adcAD8
  /-- SUB d8, `11010110`, R165. -/
  | subD8
  /-- SBC A,d8, `11011110`, R167. -/
  | sbcAD8
  /-- AND d8, `11100110`, R169. -/
  | andD8
  /-- XOR d8, `11101110`, R171. -/
  | xorD8
  /-- OR d8, `11110110`, R173. -/
  | orD8
  /-- CP d8, `11111110`, R175. -/
  | cpD8
  /-- RST t, `11ttt111`, R270. -/
  | rstT (t : BitVec 3)
  /-- ILLEGAL 0xD3, `11010011`, R346. -/
  | illegalD3
  /-- ILLEGAL 0xDB, `11011011`, R346. -/
  | illegalDB
  /-- ILLEGAL 0xDD, `11011101`, R346. -/
  | illegalDD
  /-- ILLEGAL 0xE3, `11100011`, R346. -/
  | illegalE3
  /-- ILLEGAL 0xE4, `11100100`, R346. -/
  | illegalE4
  /-- ILLEGAL 0xEB, `11101011`, R346. -/
  | illegalEB
  /-- ILLEGAL 0xEC, `11101100`, R346. -/
  | illegalEC
  /-- ILLEGAL 0xED, `11101101`, R346. -/
  | illegalED
  /-- ILLEGAL 0xF4, `11110100`, R346. -/
  | illegalF4
  /-- ILLEGAL 0xFC, `11111100`, R346. -/
  | illegalFC
  /-- ILLEGAL 0xFD, `11111101`, R346. -/
  | illegalFD
  /-- RLC r8, `CB 00000rrr`, R230. -/
  | rlcR8 (r : Op8)
  /-- RRC r8, `CB 00001rrr`, R231. -/
  | rrcR8 (r : Op8)
  /-- RL r8, `CB 00010rrr`, R232. -/
  | rlR8 (r : Op8)
  /-- RR r8, `CB 00011rrr`, R233. -/
  | rrR8 (r : Op8)
  /-- SLA r8, `CB 00100rrr`, R234. -/
  | slaR8 (r : Op8)
  /-- SRA r8, `CB 00101rrr`, R235. -/
  | sraR8 (r : Op8)
  /-- SWAP r8, `CB 00110rrr`, R236. -/
  | swapR8 (r : Op8)
  /-- SRL r8, `CB 00111rrr`, R237. -/
  | srlR8 (r : Op8)
  /-- BIT b,r8, `CB 01bbbrrr`, R240. -/
  | bitBR8 (b : BitVec 3) (r : Op8)
  /-- RES b,r8, `CB 10bbbrrr`, R241. -/
  | resBR8 (b : BitVec 3) (r : Op8)
  /-- SET b,r8, `CB 11bbbrrr`, R242. -/
  | setBR8 (b : BitVec 3) (r : Op8)
deriving DecidableEq, Repr

/-- The table row a prefixed instruction belongs to. -/
def CbInstr.toInstr : CbInstr → Instr
  | .rlc r => .rlcR8 r
  | .rrc r => .rrcR8 r
  | .rl r => .rlR8 r
  | .rr r => .rrR8 r
  | .sla r => .slaR8 r
  | .sra r => .sraR8 r
  | .swap r => .swapR8 r
  | .srl r => .srlR8 r
  | .bit b r => .bitBR8 b r
  | .res b r => .resBR8 b r
  | .set b r => .setBR8 b r

end Sys2Proof
end

