-- ==== Sys2Proof/Machine/State.lean ====
section
/-! DEFINITION. The state of the machine as plain data, the reasons a step can stop, and the state after reset
(10_state.md, 20_memory.md R63). -/

namespace Sys2Proof.Machine

/-- The register file: "8 independent 8-bit cells" (10_state.md R20). -/
structure Regs where
  a : Byte
  b : Byte
  c : Byte
  d : Byte
  e : Byte
  f : Byte
  h : Byte
  l : Byte
deriving DecidableEq, Repr

/-- What the `fault` latch records: the opcode byte and whether it was read behind the prefix (10_state.md R39). -/
structure DecodeFault where
  op       : Byte
  prefixed : Bool
deriving DecidableEq, Repr

/-- One access on the bus, a byte at an address (20_memory.md R60, R68). -/
inductive BusAccess where
  | read (addr : Word) (value : Byte)
  | write (addr : Word) (value : Byte)
deriving DecidableEq, Repr

/-- The bytes behind the bus, as (address, byte) pairs in one canonical form: see `Memory.wf`. -/
abbrev Memory := List Host.Cell

/-- What an address that is not listed reads as. DESIGN CHOICE, unsafe: the spec leaves the contents behind the bus
at reset open (log 1). -/
def Memory.unlisted : Byte := 0x00#8

/-- The canonical form: addresses strictly rising and below 65536, and no entry that an unlisted address would read as
anyway. -/
abbrev Memory.wf (m : Memory) : Prop :=
  m.Pairwise (fun x y => x.1 < y.1) ∧ ∀ x ∈ m, x.1 < 65536 ∧ x.2 ≠ Memory.unlisted

/-- The state of the machine (00_scope.md R11): the register file, `pc`, `sp`, the four control bits of 10_state.md
section 6 and the bytes behind the bus. `bus` is the model's own record of the accesses of the step in progress,
oldest first (log 6): no rule reads it. `params` holds this machine's `ILLEGAL_OPCODES` and `ROTA_CLEARS_ZNH` (R5),
which the decoder and the accumulator rotates read; they are no state of the spec (R11) and no rule writes them
(log 15). -/
structure State where
  regs       : Regs
  pc         : Word
  sp         : Word
  ime        : Bool
  imePending : Bool
  halted     : Bool
  fault      : Option DecodeFault
  mem        : Memory
  bus        : List BusAccess
  params     : CoreParams
deriving DecidableEq, Repr

/-- Why a step stops with a fault. -/
inductive Fault where
  /-- Raised by `step` alone, on a state whose `fault` latch is set: "When `fault` is not `none` the core has no
  further step" (10_state.md R39). Safe: the hardware model of the spec has no further step either. -/
  | decodeFault (op : Byte) (prefixed : Bool)
deriving DecidableEq, Repr

/-- Why a step is refused. -/
inductive Refusal where
  /-- Raised by an arm of `exec` whose instruction has no meaning yet; no arm does. Safe: the model stops. -/
  | notModelled (mnemonic : String)
deriving DecidableEq, Repr

/-- The state after reset for any choice of the parameters (10_state.md R43, 70_reset_and_hazards.md R400): "Reset
performs no bus access". -/
def State.resetWith (p : ResetParams) : State :=
  { regs := { a := p.a, b := p.b, c := p.c, d := p.d, e := p.e, f := p.fHigh ++ 0#4, h := p.h, l := p.l }
    pc := p.pc
    sp := Config.resetSp
    ime := p.ime
    imePending := false
    halted := false
    fault := none
    mem := p.mem
    bus := []
    params := p.core }

/-- The state after reset at the parameters the model's log names (log 1 to 4). -/
def State.reset : State := State.resetWith ResetParams.chosen

end Sys2Proof.Machine
end

