-- ==== Sys2Proof/Machine/Ops.lean ====
section
/-! DEFINITION. The named operations over registers, memory, the instruction stream and the stack, and taking an
interrupt or a decode fault. An operation that reads answers the value and the state after the read. -/

namespace Sys2Proof.Machine

/-! ### Bytes and words (20_memory.md R64, 30_encoding.md R104) -/

/-- `hi:lo` (00_scope.md R6). -/
def wordOf (hi lo : Byte) : Word := hi ++ lo

/-- `w[15:8]`. -/
def hiByte (w : Word) : Byte := w.extractLsb' 8 8

/-- `w[7:0]`. -/
def loByte (w : Word) : Byte := w.extractLsb' 0 8

/-- `sext_16(b)` as a 16-bit value (30_encoding.md R104). -/
def sext16 (b : Byte) : Word := b.signExtend 16

/-- `zext_16(b)` (30_encoding.md R104). -/
def zext16 (b : Byte) : Word := b.setWidth 16

/-! ### The bytes behind the bus (20_memory.md R63) -/

/-- The byte at an address: the listed one, else what an unlisted address reads as. -/
def Memory.read : Memory → Nat → Byte
  | [], _ => Memory.unlisted
  | (k, v) :: rest, a => if k = a then v else Memory.read rest a

/-- Takes an address out of the list. -/
def Memory.erase : Memory → Nat → Memory
  | [], _ => []
  | (k, v) :: rest, a => if k = a then Memory.erase rest a else (k, v) :: Memory.erase rest a

/-- Puts an entry at its place in the rising order, replacing one at the same address. -/
def Memory.insert : Memory → Nat → Byte → Memory
  | [], a, v => [(a, v)]
  | (k, w) :: rest, a, v =>
    if a < k then (a, v) :: (k, w) :: rest
    else if a = k then (a, v) :: rest
    else (k, w) :: Memory.insert rest a v

/-- Writes a byte and keeps the canonical form: writing what an unlisted address reads as removes the entry. -/
def Memory.write (m : Memory) (a : Nat) (v : Byte) : Memory :=
  if v = Memory.unlisted then Memory.erase m a else Memory.insert m a v

/-! ### Plain field updates -/

def State.setRegs (s : State) (r : Regs) : State := { s with regs := r }
def State.setPc (s : State) (w : Word) : State := { s with pc := w }
def State.setSp (s : State) (w : Word) : State := { s with sp := w }
def State.setIme (s : State) (x : Bool) : State := { s with ime := x }
def State.setImePending (s : State) (x : Bool) : State := { s with imePending := x }
def State.setHalted (s : State) (x : Bool) : State := { s with halted := x }
def State.setFault (s : State) (x : Option DecodeFault) : State := { s with fault := x }

/-- Changes one byte behind the bus without an access of the core (20_memory.md R79). -/
def State.poke (s : State) (a : Word) (v : Byte) : State := { s with mem := s.mem.write a.toNat v }

/-- Adds an access to the record of the step (log 6). -/
def State.record (s : State) (x : BusAccess) : State := { s with bus := s.bus ++ [x] }

/-- Starts the record of a step afresh (log 6). -/
def State.clearBus (s : State) : State := { s with bus := [] }

/-! ### The register file (10_state.md R20, R22, R24, R25) -/

/-- `x[n]` (R20). -/
def State.reg (s : State) : Reg8 → Byte
  | .a => s.regs.a
  | .b => s.regs.b
  | .c => s.regs.c
  | .d => s.regs.d
  | .e => s.regs.e
  | .f => s.regs.f
  | .h => s.regs.h
  | .l => s.regs.l

/-- `x[n] <- v` (R20); a write to F stores `v & 0xF0` (R22). -/
def State.setReg (s : State) (n : Reg8) (v : Byte) : State :=
  match n with
  | .a => s.setRegs { s.regs with a := v }
  | .b => s.setRegs { s.regs with b := v }
  | .c => s.setRegs { s.regs with c := v }
  | .d => s.setRegs { s.regs with d := v }
  | .e => s.setRegs { s.regs with e := v }
  | .f => s.setRegs { s.regs with f := v &&& 0xF0#8 }
  | .h => s.setRegs { s.regs with h := v }
  | .l => s.setRegs { s.regs with l := v }

/-- The views AF, BC, DE, HL, "computed, not stored" (R24). -/
def State.af (s : State) : Word := wordOf (s.reg .a) (s.reg .f)
def State.bc (s : State) : Word := wordOf (s.reg .b) (s.reg .c)
def State.de (s : State) : Word := wordOf (s.reg .d) (s.reg .e)
def State.hl (s : State) : Word := wordOf (s.reg .h) (s.reg .l)

/-- Writes of the views (R24); a write to AF masks the low nibble, by `setReg` (R25). -/
def State.setAf (s : State) (w : Word) : State := (s.setReg .a (hiByte w)).setReg .f (loByte w)
def State.setBc (s : State) (w : Word) : State := (s.setReg .b (hiByte w)).setReg .c (loByte w)
def State.setDe (s : State) (w : Word) : State := (s.setReg .d (hiByte w)).setReg .e (loByte w)
def State.setHl (s : State) (w : Word) : State := (s.setReg .h (hiByte w)).setReg .l (loByte w)

/-! ### The bus (20_memory.md R60) -/

/-- `MemPeek(a)`: the stored byte, not an access of the program. -/
def State.memPeek (s : State) (a : Word) : Byte := s.mem.read a.toNat

/-- `MemRead(a, 1)`. -/
def State.memRead (s : State) (a : Word) : Byte × State := (s.memPeek a, s.record (.read a (s.memPeek a)))

/-- `MemWrite(a, 1, v)`. -/
def State.memWrite (s : State) (a : Word) (v : Byte) : State := (s.poke a v).record (.write a v)

/-! ### The instruction stream and the stack (40_step_and_primitives.md R140 to R143) -/

/-- `Fetch8()` (R140). -/
def State.fetch8 (s : State) : Byte × State :=
  let r := s.memRead s.pc
  (r.1, r.2.setPc (s.pc + 1))

/-- `Fetch16()`: the low byte first (R141). -/
def State.fetch16 (s : State) : Word × State :=
  let lo := s.fetch8
  let hi := lo.2.fetch8
  (wordOf hi.1 lo.1, hi.2)

/-- `Push16(v)`: the high byte at `sp-1`, then the low byte at `sp-2` (R142). -/
def State.push16 (s : State) (v : Word) : State :=
  let s1 := (s.setSp (s.sp - 1)).memWrite (s.sp - 1) (hiByte v)
  (s1.setSp (s.sp - 2)).memWrite (s.sp - 2) (loByte v)

/-- `Pop16()`: the low byte from `sp`, then the high byte from `sp+1` (R143). -/
def State.pop16 (s : State) : Word × State :=
  let lo := s.memRead s.sp
  let hi := (lo.2.setSp (s.sp + 1)).memRead (s.sp + 1)
  (wordOf hi.1 lo.1, hi.2.setSp (s.sp + 2))

/-! ### Interrupts and the decode fault (60_exceptions.md) -/

/-- The bit of IF and IE a source has (R362). -/
def Irq.bit : Irq → Nat
  | .vblank => 0
  | .stat => 1
  | .timer => 2
  | .serial => 3
  | .joypad => 4

/-- The address control goes to, `0x0040 + 8 * k` (R362, R366). -/
def Irq.vector (k : Irq) : Word := BitVec.ofNat 16 (0x40 + 8 * Irq.bit k)

/-- The pending mask `IE & IF & 0x1F`, read with `MemPeek` (R363). -/
def State.pendingMask (s : State) : Byte := s.memPeek Config.ieAddr &&& s.memPeek Config.ifAddr &&& 0x1F#8

/-- The source of the lowest set bit of a pending mask (R365). The last case is reached with bit 4 set, or on a mask
that is zero, for which no step asks (log 13). -/
def lowestPending (pending : Byte) : Irq :=
  if pending.getLsbD 0 then .vblank
  else if pending.getLsbD 1 then .stat
  else if pending.getLsbD 2 then .timer
  else if pending.getLsbD 3 then .serial
  else .joypad

/-- A byte with bit `k` cleared. -/
def clearBit (v : Byte) (k : Nat) : Byte := v &&& ~~~(1#8 <<< k)

/-- Clears one bit of IF, a read and a write on the bus (R366). -/
def State.acknowledge (s : State) (k : Irq) : State :=
  let b := s.memRead Config.ifAddr
  b.2.memWrite Config.ifAddr (clearBit b.1 (Irq.bit k))

/-- `Dispatch(pending)`: "Clear global-interrupt-enable, clear that bit in IF, push PC, and jump to the fixed vector"
(R366). `ime_pending` is not written (R367). -/
def State.dispatch (s : State) (pending : Byte) : State :=
  let k := lowestPending pending
  (((s.setIme false).acknowledge k).push16 s.pc).setPc (Irq.vector k)

/-- The return from an interrupt: pops `pc` and sets `ime` at once (44_control.md R269, 60_exceptions.md R370). -/
def State.returnFromInterrupt (s : State) : State :=
  let r := s.pop16
  (r.2.setPc r.1).setIme true

/-- `fault <- DecodeFault(op, false)`: nothing else changes (R360). -/
def State.latchDecodeFault (s : State) (op : Byte) : State := s.setFault (some { op := op, prefixed := false })

/-- `CommitImePending(p0)`, `p0` the latch as it was before the fetch (R369). -/
def State.commitImePending (s : State) (p0 : Bool) : State :=
  if p0 && s.imePending then (s.setIme true).setImePending false else s

end Sys2Proof.Machine
end

