-- ==== Sys2Proof/Machine/Flags.lean ====
section
/-! DEFINITION. The flags codec (10_state.md R26, R27), the arithmetic primitives (40_step_and_primitives.md R150 to
R153), and every result and flag an instruction computes from bytes alone. -/

namespace Sys2Proof.Machine

/-! ### The codec -/

/-- The four flags, in the order of their bits 7, 6, 5, 4 (10_state.md R26). -/
structure Flags where
  z : Bool
  n : Bool
  h : Bool
  c : Bool
deriving DecidableEq, Repr

/-- A one-bit value at a bit position. -/
def bitAt (x : Bool) (k : Nat) : Byte := (BitVec.ofBool x).setWidth 8 <<< k

/-- `toByte(z, n, h, c) = (z << 7) | (n << 6) | (h << 5) | (c << 4)` (10_state.md R27). -/
def Flags.toByte (f : Flags) : Byte := bitAt f.z 7 ||| bitAt f.n 6 ||| bitAt f.h 5 ||| bitAt f.c 4

/-- `fromByte(b) = (b[7], b[6], b[5], b[4])` (10_state.md R27). -/
def Flags.fromByte (b : Byte) : Flags :=
  { z := b.getLsbD 7, n := b.getLsbD 6, h := b.getLsbD 5, c := b.getLsbD 4 }

/-- The flags as `x[F]` holds them. -/
def State.flags (s : State) : Flags := Flags.fromByte (s.reg .f)

/-- Writes the four flags. -/
def State.setFlags (s : State) (f : Flags) : State := s.setReg .f f.toByte

/-! ### The arithmetic primitives -/

/-- `(sum, carryOut, halfCarryOut)` (R150). -/
structure AddResult (w : Nat) where
  sum       : BitVec w
  carry     : Bool
  halfCarry : Bool
deriving DecidableEq, Repr

/-- `(result, halfBorrow, borrow)` (R152). -/
structure SubResult (w : Nat) where
  result     : BitVec w
  halfBorrow : Bool
  borrow     : Bool
deriving DecidableEq, Repr

/-- `overflowAdd8` (R150); `v & 0xF` is written `v % 16`. -/
def overflowAdd8 (a b : Byte) (carryIn : Bool) : AddResult 8 :=
  { sum := BitVec.ofNat 8 (a.toNat + b.toNat + carryIn.toNat)
    carry := decide (a.toNat + b.toNat + carryIn.toNat > 0xFF)
    halfCarry := decide (a.toNat % 16 + b.toNat % 16 + carryIn.toNat > 0xF) }

/-- `overflowAdd16` (R151); `v & 0xFFF` is written `v % 4096`. -/
def overflowAdd16 (a b : Word) (carryIn : Bool) : AddResult 16 :=
  { sum := BitVec.ofNat 16 (a.toNat + b.toNat + carryIn.toNat)
    carry := decide (a.toNat + b.toNat + carryIn.toNat > 0xFFFF)
    halfCarry := decide (a.toNat % 4096 + b.toNat % 4096 + carryIn.toNat > 0xFFF) }

/-- `subtractWithBorrow8` (R152): `borrow` is that the exact difference is negative. -/
def subtractWithBorrow8 (a b : Byte) (carryIn : Bool) : SubResult 8 :=
  { result := BitVec.ofInt 8 ((a.toNat : Int) - b.toNat - carryIn.toNat)
    halfBorrow := decide (a.toNat % 16 < b.toNat % 16 + carryIn.toNat)
    borrow := decide ((a.toNat : Int) - b.toNat - carryIn.toNat < 0) }

/-- `subtractWithBorrow16` (R153): used by no instruction of this core. -/
def subtractWithBorrow16 (a b : Word) (carryIn : Bool) : SubResult 16 :=
  { result := BitVec.ofInt 16 ((a.toNat : Int) - b.toNat - carryIn.toNat)
    halfBorrow := decide (a.toNat % 4096 < b.toNat % 4096 + carryIn.toNat)
    borrow := decide ((a.toNat : Int) - b.toNat - carryIn.toNat < 0) }

/-! ### Flag patterns of the instruction rules -/

/-- The flags of ADD and ADC (41_alu8.md R160, R162). -/
def addFlags (r : AddResult 8) : Flags := { z := r.sum == 0, n := false, h := r.halfCarry, c := r.carry }

/-- The flags of SUB, SBC and CP (41_alu8.md R164, R166, R174). -/
def subFlags (r : SubResult 8) : Flags := { z := r.result == 0, n := true, h := r.halfBorrow, c := r.borrow }

/-- The flags of AND, OR and XOR: H is 1 for AND alone (41_alu8.md R168, R170, R172). -/
def logicFlags (res : Byte) (h : Bool) : Flags := { z := res == 0, n := false, h := h, c := false }

/-- The flags of INC r8: C is kept (41_alu8.md R176). -/
def incFlags (old : Flags) (r : AddResult 8) : Flags := { z := r.sum == 0, n := false, h := r.halfCarry, c := old.c }

/-- The flags of DEC r8: C is kept (41_alu8.md R177). -/
def decFlags (old : Flags) (r : SubResult 8) : Flags :=
  { z := r.result == 0, n := true, h := r.halfBorrow, c := old.c }

/-- The flags of ADD HL,rr: Z is kept (42_alu16.md R202, D9). -/
def addHlFlags (old : Flags) (r : AddResult 16) : Flags := { z := old.z, n := false, h := r.halfCarry, c := r.carry }

/-- The flags of ADD SP,e8 and LD HL,SP+e8, "the **unsigned** low-byte addition of SP and the immediate byte"
(42_alu16.md R203, R204). -/
def spOffsetFlags (sp : Word) (imm : Byte) : Flags :=
  { z := false
    n := false
    h := decide (sp.toNat % 16 + imm.toNat % 16 > 0xF)
    c := decide (sp.toNat % 256 + imm.toNat > 0xFF) }

/-! ### DAA (41_alu8.md R178) -/

/-- What DAA leaves in A, and the carry it writes. -/
structure DaaResult where
  a     : Byte
  carry : Bool
deriving DecidableEq, Repr

/-- The correction of R178: in subtract mode C is kept; in add mode both tests use the original A. -/
def daaAdjust (a : Byte) (f : Flags) : DaaResult :=
  if f.n then
    let a1 := if f.h then a - 0x06#8 else a
    { a := if f.c then a1 - 0x60#8 else a1, carry := f.c }
  else
    let high := f.c || decide (a.toNat > 0x99)
    let low := f.h || decide (a.toNat % 16 > 0x9)
    let a1 := if high then a + 0x60#8 else a
    { a := if low then a1 + 0x06#8 else a1, carry := high }

/-- The flags of DAA: N is kept (R178). -/
def daaFlags (old : Flags) (r : DaaResult) : Flags := { z := r.a == 0, n := old.n, h := false, c := r.carry }

/-! ### Rotates and shifts by one position (43_rotate_shift_bit.md R220 to R237) -/

/-- A shifted byte and the bit that goes to C. -/
structure ShiftResult where
  res : Byte
  cy  : Bool
deriving DecidableEq, Repr

/-- Bit 7 wraps to bit 0 (R220, R230). -/
def rotLeft (v : Byte) (_c : Bool) : ShiftResult := { res := (v <<< 1) ||| bitAt (v.getLsbD 7) 0, cy := v.getLsbD 7 }

/-- Bit 0 wraps to bit 7 (R221, R231). -/
def rotRight (v : Byte) (_c : Bool) : ShiftResult := { res := (v >>> 1) ||| bitAt (v.getLsbD 0) 7, cy := v.getLsbD 0 }

/-- The old carry enters bit 0 (R222, R232). -/
def rotLeftCarry (v : Byte) (c : Bool) : ShiftResult := { res := (v <<< 1) ||| bitAt c 0, cy := v.getLsbD 7 }

/-- The old carry enters bit 7 (R223, R233). -/
def rotRightCarry (v : Byte) (c : Bool) : ShiftResult := { res := (v >>> 1) ||| bitAt c 7, cy := v.getLsbD 0 }

/-- SLA (R234). -/
def shiftLeft (v : Byte) (_c : Bool) : ShiftResult := { res := v <<< 1, cy := v.getLsbD 7 }

/-- SRA: bit 7 keeps its value (R235). -/
def shiftRightArith (v : Byte) (_c : Bool) : ShiftResult := { res := (v >>> 1) ||| (v &&& 0x80#8), cy := v.getLsbD 0 }

/-- SWAP: the nibbles exchanged, C cleared (R236). -/
def swapNibbles (v : Byte) (_c : Bool) : ShiftResult := { res := (v <<< 4) ||| (v >>> 4), cy := false }

/-- SRL (R237). -/
def shiftRightLogical (v : Byte) (_c : Bool) : ShiftResult := { res := v >>> 1, cy := v.getLsbD 0 }

/-- The flags of the eight prefixed operations, all four written (R238). -/
def shiftFlags (r : ShiftResult) : Flags := { z := r.res == 0, n := false, h := false, c := r.cy }

/-- The flags of the four accumulator rotates: C alone, and Z, N, H cleared too where `ROTA_CLEARS_ZNH` is set
(R224). -/
def accRotateFlags (clearsZnh : Bool) (old : Flags) (r : ShiftResult) : Flags :=
  if clearsZnh then { z := false, n := false, h := false, c := r.cy } else { old with c := r.cy }

/-! ### Single bits (43_rotate_shift_bit.md R240 to R242) -/

/-- The flags of BIT: Z is that the bit is clear, C is kept (R240). -/
def bitTestFlags (old : Flags) (v : Byte) (b : BitVec 3) : Flags :=
  { z := !v.getLsbD b.toNat, n := false, h := true, c := old.c }

/-- A byte with bit `b` set (R242). -/
def setBit (v : Byte) (b : Nat) : Byte := v ||| (1#8 <<< b)

end Sys2Proof.Machine
end

