-- ==== Sys2Proof/Machine/Operands.lean ====
section
/-! DEFINITION. Operand access (40_step_and_primitives.md R144 to R146, 20_memory.md R62). The nine operand kinds of
30_encoding.md R93 and where each stands: `R8` is `Gpr.cell` with `State.reg`; `R16` is `State.read16` and
`State.read16S`; `Imm8` is `State.fetch8`; `Imm16` is `State.fetch16`; `MemHL`, `MemR16`, `MemImm16`, `MemHighImm8` and
`MemHighC` are the modes of `State.effAddr` (and `MemHL` the code 6 of `State.read8`). -/

namespace Sys2Proof.Machine

/-- The cell an operand field's register code names (30_encoding.md R96). -/
def Gpr.cell : Gpr → Reg8
  | .a => .a
  | .b => .b
  | .c => .c
  | .d => .d
  | .e => .e
  | .h => .h
  | .l => .l

/-- `Read8(r)`: one bus read when the operand is [HL] (R144). -/
def State.read8 (s : State) : Op8 → Byte × State
  | .reg n => (s.reg (Gpr.cell n), s)
  | .memHl => s.memRead s.hl

/-- `Write8(r, v)`: one bus write when the operand is [HL] (R144). -/
def State.write8 (s : State) (r : Op8) (v : Byte) : State :=
  match r with
  | .reg n => s.setReg (Gpr.cell n) v
  | .memHl => s.memWrite s.hl v

/-- `Read16(pair(p))` (R145). -/
def State.read16 (s : State) : Pair → Word
  | .bc => s.bc
  | .de => s.de
  | .hl => s.hl
  | .sp => s.sp

/-- `Write16(pair(p), v)` (R145). -/
def State.write16 (s : State) (p : Pair) (v : Word) : State :=
  match p with
  | .bc => s.setBc v
  | .de => s.setDe v
  | .hl => s.setHl v
  | .sp => s.setSp v

/-- `Read16(pairS(p))` (R145). -/
def State.read16S (s : State) : StackPair → Word
  | .bc => s.bc
  | .de => s.de
  | .hl => s.hl
  | .af => s.af

/-- `Write16(pairS(p), v)`; AF drops the low nibble of F (R145, 10_state.md R25). -/
def State.write16S (s : State) (p : StackPair) (v : Word) : State :=
  match p with
  | .bc => s.setBc v
  | .de => s.setDe v
  | .hl => s.setHl v
  | .af => s.setAf v

/-- `Cond(cc)`, against the flags as they stand (R146). -/
def State.cond (s : State) : Cond → Bool
  | .nz => !s.flags.z
  | .z => s.flags.z
  | .nc => !s.flags.c
  | .c => s.flags.c

/-- `0xFF00 + b`, "no carry out of the low byte is possible" (30_encoding.md R104). -/
def highAddr (b : Byte) : Word := 0xFF00#16 + zext16 b

/-- The effective address of a memory operand, fetching the immediate bytes the mode has (20_memory.md R62). -/
def State.effAddr (s : State) : AddrMode → Word × State
  | .hl => (s.hl, s)
  | .bc => (s.bc, s)
  | .de => (s.de, s)
  | .imm16 => s.fetch16
  | .highImm8 => (highAddr s.fetch8.1, s.fetch8.2)
  | .highC => (highAddr (s.reg .c), s)

end Sys2Proof.Machine
end

