-- ==== Sys2Proof/Machine/Alu8.lean ====
section
/-! DEFINITION. 8-bit arithmetic and logic (41_alu8.md). Each meaning starts after the opcode fetch. -/

namespace Sys2Proof.Machine

abbrev Result := Host.Outcome State Fault Refusal

/-! ### Operations on A with an operand value -/

/-- A plus a value plus a carry-in (R160, R162). -/
def State.addToA (s : State) (v : Byte) (carryIn : Bool) : State :=
  let r := overflowAdd8 (s.reg .a) v carryIn
  (s.setReg .a r.sum).setFlags (addFlags r)

/-- A minus a value minus a borrow-in (R164, R166). -/
def State.subFromA (s : State) (v : Byte) (borrowIn : Bool) : State :=
  let r := subtractWithBorrow8 (s.reg .a) v borrowIn
  (s.setReg .a r.result).setFlags (subFlags r)

/-- The flags of A minus a value, A unchanged (R174). -/
def State.compareWithA (s : State) (v : Byte) : State :=
  s.setFlags (subFlags (subtractWithBorrow8 (s.reg .a) v false))

/-- A result of AND, XOR or OR into A with its flags (R168, R170, R172). -/
def State.logicToA (s : State) (res : Byte) (h : Bool) : State := (s.setReg .a res).setFlags (logicFlags res h)

def State.andToA (s : State) (v : Byte) : State := s.logicToA (s.reg .a &&& v) true
def State.xorToA (s : State) (v : Byte) : State := s.logicToA (s.reg .a ^^^ v) false
def State.orToA (s : State) (v : Byte) : State := s.logicToA (s.reg .a ||| v) false

/-! ### The meanings -/

/-- ADD A,r8 (R160). -/
def execAddAR8 (r : Op8) (s : State) : Result :=
  let o := s.read8 r
  .next (o.2.addToA o.1 false)

/-- ADD A,d8 (R161). -/
def execAddAD8 (s : State) : Result :=
  let o := s.fetch8
  .next (o.2.addToA o.1 false)

/-- ADC A,r8 (R162). -/
def execAdcAR8 (r : Op8) (s : State) : Result :=
  let o := s.read8 r
  .next (o.2.addToA o.1 o.2.flags.c)

/-- ADC A,d8 (R163). -/
def execAdcAD8 (s : State) : Result :=
  let o := s.fetch8
  .next (o.2.addToA o.1 o.2.flags.c)

/-- SUB r8 (R164). -/
def execSubR8 (r : Op8) (s : State) : Result :=
  let o := s.read8 r
  .next (o.2.subFromA o.1 false)

/-- SUB d8 (R165). -/
def execSubD8 (s : State) : Result :=
  let o := s.fetch8
  .next (o.2.subFromA o.1 false)

/-- SBC A,r8 (R166). -/
def execSbcAR8 (r : Op8) (s : State) : Result :=
  let o := s.read8 r
  .next (o.2.subFromA o.1 o.2.flags.c)

/-- SBC A,d8 (R167). -/
def execSbcAD8 (s : State) : Result :=
  let o := s.fetch8
  .next (o.2.subFromA o.1 o.2.flags.c)

/-- CP r8 (R174). -/
def execCpR8 (r : Op8) (s : State) : Result :=
  let o := s.read8 r
  .next (o.2.compareWithA o.1)

/-- CP d8 (R175). -/
def execCpD8 (s : State) : Result :=
  let o := s.fetch8
  .next (o.2.compareWithA o.1)

/-- AND r8 (R168). -/
def execAndR8 (r : Op8) (s : State) : Result :=
  let o := s.read8 r
  .next (o.2.andToA o.1)

/-- AND d8 (R169). -/
def execAndD8 (s : State) : Result :=
  let o := s.fetch8
  .next (o.2.andToA o.1)

/-- XOR r8 (R170). -/
def execXorR8 (r : Op8) (s : State) : Result :=
  let o := s.read8 r
  .next (o.2.xorToA o.1)

/-- XOR d8 (R171). -/
def execXorD8 (s : State) : Result :=
  let o := s.fetch8
  .next (o.2.xorToA o.1)

/-- OR r8 (R172). -/
def execOrR8 (r : Op8) (s : State) : Result :=
  let o := s.read8 r
  .next (o.2.orToA o.1)

/-- OR d8 (R173). -/
def execOrD8 (s : State) : Result :=
  let o := s.fetch8
  .next (o.2.orToA o.1)

/-- INC r8 (R176). -/
def execIncR8 (r : Op8) (s : State) : Result :=
  let o := s.read8 r
  let x := overflowAdd8 o.1 1 false
  .next ((o.2.write8 r x.sum).setFlags (incFlags o.2.flags x))

/-- DEC r8 (R177). -/
def execDecR8 (r : Op8) (s : State) : Result :=
  let o := s.read8 r
  let x := subtractWithBorrow8 o.1 1 false
  .next ((o.2.write8 r x.result).setFlags (decFlags o.2.flags x))

/-- DAA (R178). -/
def execDaa (s : State) : Result :=
  let x := daaAdjust (s.reg .a) s.flags
  .next ((s.setReg .a x.a).setFlags (daaFlags s.flags x))

/-- CPL (R179). -/
def execCpl (s : State) : Result :=
  .next ((s.setReg .a (~~~ s.reg .a)).setFlags { s.flags with n := true, h := true })

/-- SCF (R180). -/
def execScf (s : State) : Result :=
  .next (s.setFlags { s.flags with n := false, h := false, c := true })

/-- CCF (R181). -/
def execCcf (s : State) : Result :=
  .next (s.setFlags { s.flags with n := false, h := false, c := !s.flags.c })

end Sys2Proof.Machine
end

