-- ==== Sys2Proof/Machine/Alu16.lean ====
section
/-! DEFINITION. 16-bit arithmetic (42_alu16.md). -/

namespace Sys2Proof.Machine

/-- INC rr: no flag (R200). -/
def execIncRr (p : Pair) (s : State) : Result := .next (s.write16 p (s.read16 p + 1))

/-- DEC rr: no flag (R201). -/
def execDecRr (p : Pair) (s : State) : Result := .next (s.write16 p (s.read16 p - 1))

/-- ADD HL,rr (R202). -/
def execAddHlRr (p : Pair) (s : State) : Result :=
  let x := overflowAdd16 s.hl (s.read16 p) false
  .next ((s.setHl x.sum).setFlags (addHlFlags s.flags x))

/-- ADD SP,e8: the flags from the old `sp` and the unsigned byte (R203). -/
def execAddSpE8 (s : State) : Result :=
  let o := s.fetch8
  .next ((o.2.setSp (s.sp + sext16 o.1)).setFlags (spOffsetFlags s.sp o.1))

/-- LD HL,SP+e8 (R204). -/
def execLdHlSpE8 (s : State) : Result :=
  let o := s.fetch8
  .next ((o.2.setHl (s.sp + sext16 o.1)).setFlags (spOffsetFlags s.sp o.1))

end Sys2Proof.Machine
end

