-- ==== Sys2Proof/Machine/Control.lean ====
section
/-! DEFINITION. Control flow (44_control.md). On entry `pc` is the address of the byte after the opcode. -/

namespace Sys2Proof.Machine

/-! ### Shared shapes -/

/-- Reads a 16-bit target and goes there (R260). -/
def State.jumpTaken (s : State) : State :=
  let o := s.fetch16
  o.2.setPc o.1

/-- Reads a displacement and adds it to the address of the next instruction (R263). -/
def State.jumpRelTaken (s : State) : State :=
  let o := s.fetch8
  o.2.setPc (o.2.pc + sext16 o.1)

/-- Reads a 16-bit target, pushes the address of the next instruction, and goes there (R265). -/
def State.callTaken (s : State) : State :=
  let o := s.fetch16
  (o.2.push16 o.2.pc).setPc o.1

/-- Pops `pc` (R267). -/
def State.returnTaken (s : State) : State :=
  let o := s.pop16
  o.2.setPc o.1

/-- Advances `pc` over unread operand bytes (R272). -/
def State.skip (s : State) (n : Word) : State := s.setPc (s.pc + n)

/-! ### The meanings -/

/-- JP a16 (R260). -/
def execJpA16 (s : State) : Result := .next s.jumpTaken

/-- JP cc,a16: not taken, two operand bytes stay unread (R261, R272). -/
def execJpCcA16 (cc : Cond) (s : State) : Result := .next (if s.cond cc then s.jumpTaken else s.skip 2)

/-- JP HL: no memory is read at HL (R262). -/
def execJpHl (s : State) : Result := .next (s.setPc s.hl)

/-- JR e8 (R263). -/
def execJrE8 (s : State) : Result := .next s.jumpRelTaken

/-- JR cc,e8: not taken, one operand byte stays unread (R264, R272). -/
def execJrCcE8 (cc : Cond) (s : State) : Result := .next (if s.cond cc then s.jumpRelTaken else s.skip 1)

/-- CALL a16 (R265). -/
def execCallA16 (s : State) : Result := .next s.callTaken

/-- CALL cc,a16: not taken, two operand bytes stay unread and nothing is pushed (R266, R272). -/
def execCallCcA16 (cc : Cond) (s : State) : Result := .next (if s.cond cc then s.callTaken else s.skip 2)

/-- RET (R267). -/
def execRet (s : State) : Result := .next s.returnTaken

/-- RET cc (R268). -/
def execRetCc (cc : Cond) (s : State) : Result := .next (if s.cond cc then s.returnTaken else s)

/-- RETI (R269). -/
def execReti (s : State) : Result := .next s.returnFromInterrupt

/-- RST t: an ordinary call of `8 * t` (R270). -/
def execRstT (t : BitVec 3) (s : State) : Result := .next ((s.push16 s.pc).setPc (BitVec.ofNat 16 (8 * t.toNat)))

end Sys2Proof.Machine
end

