-- ==== Sys2Proof/Machine/Load.lean ====
section
/-! DEFINITION. Loads and the stack (45_load_stack.md). A load writes no flag; the immediates are fetched first, then
the source is read, then the destination is written (R309). -/

namespace Sys2Proof.Machine

/-! ### Shared shapes -/

/-- `x[d] <- Read8(s)` (R290). -/
def State.loadReg (s : State) (dst : Reg8) (src : Op8) : State :=
  let o := s.read8 src
  o.2.setReg dst o.1

/-- `M[HL] <- x[r]` (R290). -/
def State.storeReg (s : State) (r : Reg8) : State := s.memWrite s.hl (s.reg r)

/-- `M[address] <- x[A]` (R293 to R306). -/
def State.storeA (s : State) (m : AddrMode) : State :=
  let o := s.effAddr m
  o.2.memWrite o.1 (o.2.reg .a)

/-- `x[A] <- M[address]` (R293 to R306). -/
def State.loadA (s : State) (m : AddrMode) : State :=
  let o := s.effAddr m
  let v := o.2.memRead o.1
  v.2.setReg .a v.1

/-! ### The load block 0x40 to 0x7F (R290) -/

/-- LD B,r8 (R290). -/
def execLdBR8 (src : Op8) (s : State) : Result := .next (s.loadReg .b src)

/-- LD C,r8 (R290). -/
def execLdCR8 (src : Op8) (s : State) : Result := .next (s.loadReg .c src)

/-- LD D,r8 (R290). -/
def execLdDR8 (src : Op8) (s : State) : Result := .next (s.loadReg .d src)

/-- LD E,r8 (R290). -/
def execLdER8 (src : Op8) (s : State) : Result := .next (s.loadReg .e src)

/-- LD H,r8 (R290). -/
def execLdHR8 (src : Op8) (s : State) : Result := .next (s.loadReg .h src)

/-- LD L,r8 (R290). -/
def execLdLR8 (src : Op8) (s : State) : Result := .next (s.loadReg .l src)

/-- LD A,r8 (R290). -/
def execLdAR8 (src : Op8) (s : State) : Result := .next (s.loadReg .a src)

/-- LD (HL),B (R290). -/
def execLdMemHlB (s : State) : Result := .next (s.storeReg .b)

/-- LD (HL),C (R290). -/
def execLdMemHlC (s : State) : Result := .next (s.storeReg .c)

/-- LD (HL),D (R290). -/
def execLdMemHlD (s : State) : Result := .next (s.storeReg .d)

/-- LD (HL),E (R290). -/
def execLdMemHlE (s : State) : Result := .next (s.storeReg .e)

/-- LD (HL),H (R290). -/
def execLdMemHlH (s : State) : Result := .next (s.storeReg .h)

/-- LD (HL),L (R290). -/
def execLdMemHlL (s : State) : Result := .next (s.storeReg .l)

/-- LD (HL),A (R290). -/
def execLdMemHlA (s : State) : Result := .next (s.storeReg .a)

/-! ### 8-bit loads with an immediate -/

/-- LD r8,d8 (R291). -/
def execLdR8D8 (r : Op8) (s : State) : Result :=
  let o := s.fetch8
  .next (o.2.write8 r o.1)

/-! ### Accumulator loads through memory -/

/-- LD (BC),A (R293). -/
def execLdMemBcA (s : State) : Result := .next (s.storeA .bc)

/-- LD (DE),A (R294). -/
def execLdMemDeA (s : State) : Result := .next (s.storeA .de)

/-- LD A,(BC) (R295). -/
def execLdAMemBc (s : State) : Result := .next (s.loadA .bc)

/-- LD A,(DE) (R296). -/
def execLdAMemDe (s : State) : Result := .next (s.loadA .de)

/-- LD (HL+),A: the access uses HL before the change (R297). -/
def execLdMemHlIncA (s : State) : Result := .next ((s.storeA .hl).setHl (s.hl + 1))

/-- LD A,(HL+): the access uses HL before the change (R298). -/
def execLdAMemHlInc (s : State) : Result := .next ((s.loadA .hl).setHl (s.hl + 1))

/-- LD (HL-),A: the access uses HL before the change (R299). -/
def execLdMemHlDecA (s : State) : Result := .next ((s.storeA .hl).setHl (s.hl - 1))

/-- LD A,(HL-): the access uses HL before the change (R300). -/
def execLdAMemHlDec (s : State) : Result := .next ((s.loadA .hl).setHl (s.hl - 1))

/-- LD (a16),A (R301). -/
def execLdMemA16A (s : State) : Result := .next (s.storeA .imm16)

/-- LD A,(a16) (R302). -/
def execLdAMemA16 (s : State) : Result := .next (s.loadA .imm16)

/-- LDH (a8),A (R303). -/
def execLdhMemA8A (s : State) : Result := .next (s.storeA .highImm8)

/-- LDH A,(a8) (R304). -/
def execLdhAMemA8 (s : State) : Result := .next (s.loadA .highImm8)

/-- LD (C),A (R305). -/
def execLdMemCA (s : State) : Result := .next (s.storeA .highC)

/-- LD A,(C) (R306). -/
def execLdAMemC (s : State) : Result := .next (s.loadA .highC)

/-! ### 16-bit loads -/

/-- LD rr,d16 (R292). -/
def execLdRrD16 (p : Pair) (s : State) : Result :=
  let o := s.fetch16
  .next (o.2.write16 p o.1)

/-- LD (a16),SP: the low byte at `a16`, then the high byte at `a16+1` (R307). -/
def execLdMemA16Sp (s : State) : Result :=
  let o := s.fetch16
  .next ((o.2.memWrite o.1 (loByte s.sp)).memWrite (o.1 + 1) (hiByte s.sp))

/-- LD SP,HL (R308). -/
def execLdSpHl (s : State) : Result := .next (s.setSp s.hl)

/-! ### Stack -/

/-- PUSH rr (R330). -/
def execPushRr (p : StackPair) (s : State) : Result := .next (s.push16 (s.read16S p))

/-- POP rr (R331). -/
def execPopRr (p : StackPair) (s : State) : Result :=
  let o := s.pop16
  .next (o.2.write16S p o.1)

end Sys2Proof.Machine
end

