-- ==== Sys2Proof/WellFormed.lean ====
section
/-! DEFINITION. The format of every table row (30_encoding.md R90) and the check that tells an instruction from a row
that names none. Every operand field has exactly the values its bits can hold, so the check is on the row alone. -/

namespace Sys2Proof

/-- The formats of 30_encoding.md R90. -/
inductive Format where
  | op | opD8 | opE8 | opA8 | opD16 | opA16 | cb | prefixByte | illegal
deriving DecidableEq, Repr

/-- How many immediate bytes follow the opcode (30_encoding.md R90). -/
def Format.immBytes : Format → Nat
  | .op | .cb | .prefixByte | .illegal => 0
  | .opD8 | .opE8 | .opA8 => 1
  | .opD16 | .opA16 => 2

/-- How many opcode bytes the format has: two behind the byte 0xCB, else one (30_encoding.md R90). -/
def Format.opcodeBytes : Format → Nat
  | .cb => 2
  | .op | .opD8 | .opE8 | .opA8 | .opD16 | .opA16 | .prefixByte | .illegal => 1

/-- The format column of spec/opcode_table.json. -/
def Instr.format : Instr → Format
  | .nop => .op
  | .ldMemA16Sp => .opA16
  | .stop => .op
  | .jrE8 => .opE8
  | .jrCcE8 _ => .opE8
  | .ldRrD16 _ => .opD16
  | .addHlRr _ => .op
  | .ldMemBcA => .op
  | .ldMemDeA => .op
  | .ldMemHlIncA => .op
  | .ldMemHlDecA => .op
  | .ldAMemBc => .op
  | .ldAMemDe => .op
  | .ldAMemHlInc => .op
  | .ldAMemHlDec => .op
  | .incRr _ => .op
  | .decRr _ => .op
  | .incR8 _ => .op
  | .decR8 _ => .op
  | .ldR8D8 _ => .opD8
  | .rlca => .op
  | .rrca => .op
  | .rla => .op
  | .rra => .op
  | .daa => .op
  | .cpl => .op
  | .scf => .op
  | .ccf => .op
  | .ldBR8 _ => .op
  | .ldCR8 _ => .op
  | .ldDR8 _ => .op
  | .ldER8 _ => .op
  | .ldHR8 _ => .op
  | .ldLR8 _ => .op
  | .ldMemHlB => .op
  | .ldMemHlC => .op
  | .ldMemHlD => .op
  | .ldMemHlE => .op
  | .ldMemHlH => .op
  | .ldMemHlL => .op
  | .ldMemHlA => .op
  | .halt => .op
  | .ldAR8 _ => .op
  | .addAR8 _ => .op
  | .adcAR8 _ => .op
  | .subR8 _ => .op
  | .sbcAR8 _ => .op
  | .andR8 _ => .op
  | .xorR8 _ => .op
  | .orR8 _ => .op
  | .cpR8 _ => .op
  | .retCc _ => .op
  | .ldhMemA8A => .opA8
  | .addSpE8 => .opE8
  | .ldhAMemA8 => .opA8
  | .ldHlSpE8 => .opE8
  | .popRr _ => .op
  | .ret => .op
  | .reti => .op
  | .jpHl => .op
  | .ldSpHl => .op
  | .jpCcA16 _ => .opA16
  | .ldMemCA => .op
  | .ldMemA16A => .opA16
  | .ldAMemC => .op
  | .ldAMemA16 => .opA16
  | .jpA16 => .opA16
  | .prefixCb => .prefixByte
  | .di => .op
  | .ei => .op
  | .callCcA16 _ => .opA16
  | .pushRr _ => .op
  | .callA16 => .opA16
  | .addAD8 => .opD8
  | .adcAD8 => .opD8
  | .subD8 => .opD8
  | .sbcAD8 => .opD8
  | .andD8 => .opD8
  | .xorD8 => .opD8
  | .orD8 => .opD8
  | .cpD8 => .opD8
  | .rstT _ => .op
  | .illegalD3 => .illegal
  | .illegalDB => .illegal
  | .illegalDD => .illegal
  | .illegalE3 => .illegal
  | .illegalE4 => .illegal
  | .illegalEB => .illegal
  | .illegalEC => .illegal
  | .illegalED => .illegal
  | .illegalF4 => .illegal
  | .illegalFC => .illegal
  | .illegalFD => .illegal
  | .rlcR8 _ => .cb
  | .rrcR8 _ => .cb
  | .rlR8 _ => .cb
  | .rrR8 _ => .cb
  | .slaR8 _ => .cb
  | .sraR8 _ => .cb
  | .swapR8 _ => .cb
  | .srlR8 _ => .cb
  | .bitBR8 _ _ => .cb
  | .resBR8 _ _ => .cb
  | .setBR8 _ _ => .cb

/-- The length of the instruction in bytes, which does not depend on a condition (30_encoding.md R105). -/
def Instr.length (i : Instr) : Nat := i.format.opcodeBytes + i.format.immBytes

/-- The row is an instruction: it is neither the prefix byte, "never an instruction by itself", nor one of the bytes
"for which the decoder returns none" (30_encoding.md R90). -/
def Instr.wf (i : Instr) : Bool := i.format != .prefixByte && i.format != .illegal

end Sys2Proof
end

