-- ==== Sys2Proof/Decode.lean ====
section
/-! DEFINITION. The decoder, total on every byte, and the encoder (30_encoding.md). The two opcode tables are lists of
rows, each a mask and a pattern as spec/opcode_table.json writes them, with the function that reads the row's operand
fields. `decodeWith` is KGB's `decode(opcodeByte, isPrefixed) -> Instruction | None` (R91) for any value of the parameter
`ILLEGAL_OPCODES`, `decode` the same at its default. -/

namespace Sys2Proof

/-! ### Operand fields of an opcode byte (R94 to R101) -/

/-- The 3-bit operand code: B, C, D, E, H, L, [HL], A (R96). -/
def Op8.ofCode (x : BitVec 3) : Op8 :=
  match x.toNat with
  | 0 => .reg .b
  | 1 => .reg .c
  | 2 => .reg .d
  | 3 => .reg .e
  | 4 => .reg .h
  | 5 => .reg .l
  | 6 => .memHl
  | _ => .reg .a

/-- The code of an operand, as a byte to be shifted into its field (R96). -/
def Op8.code : Op8 → Byte
  | .reg .b => 0
  | .reg .c => 1
  | .reg .d => 2
  | .reg .e => 3
  | .reg .h => 4
  | .reg .l => 5
  | .memHl => 6
  | .reg .a => 7

/-- The pair code of LD rr,d16, INC rr, DEC rr, ADD HL,rr: BC, DE, HL, SP (R97). -/
def Pair.ofCode (x : BitVec 2) : Pair :=
  match x.toNat with
  | 0 => .bc
  | 1 => .de
  | 2 => .hl
  | _ => .sp

def Pair.code : Pair → Byte
  | .bc => 0
  | .de => 1
  | .hl => 2
  | .sp => 3

/-- The pair code of PUSH and POP: BC, DE, HL, AF (R97). -/
def StackPair.ofCode (x : BitVec 2) : StackPair :=
  match x.toNat with
  | 0 => .bc
  | 1 => .de
  | 2 => .hl
  | _ => .af

def StackPair.code : StackPair → Byte
  | .bc => 0
  | .de => 1
  | .hl => 2
  | .af => 3

/-- The condition code: NZ, Z, NC, C (R98). -/
def Cond.ofCode (x : BitVec 2) : Cond :=
  match x.toNat with
  | 0 => .nz
  | 1 => .z
  | 2 => .nc
  | _ => .c

def Cond.code : Cond → Byte
  | .nz => 0
  | .z => 1
  | .nc => 2
  | .c => 3

/-- Field `z`, `op[2:0]`, as an operand code (R94). -/
def fieldZ (op : Byte) : Op8 := Op8.ofCode (op.extractLsb' 0 3)

/-- Field `y`, `op[5:3]`, as an operand code (R94). -/
def fieldY (op : Byte) : Op8 := Op8.ofCode (op.extractLsb' 3 3)

/-- Field `y` taken as the number it is: a bit index or a restart index (R94, R100, R101). -/
def fieldIndex (op : Byte) : BitVec 3 := op.extractLsb' 3 3

/-- Field `p`, `op[5:4]`, with SP in last place (R94, R97). -/
def fieldPair (op : Byte) : Pair := Pair.ofCode (op.extractLsb' 4 2)

/-- Field `p`, `op[5:4]`, with AF in last place (R94, R97). -/
def fieldStackPair (op : Byte) : StackPair := StackPair.ofCode (op.extractLsb' 4 2)

/-- Field `cc`, `op[4:3]` (R94, R98). -/
def fieldCond (op : Byte) : Cond := Cond.ofCode (op.extractLsb' 3 2)

/-! ### The two tables -/

/-- One row of an opcode table: the byte `op` matches the row when `op & mask = pattern`. -/
structure OpcodeRow (α : Type) where
  mask    : Byte
  pattern : Byte
  build   : Byte → α

def OpcodeRow.matches {α : Type} (r : OpcodeRow α) (op : Byte) : Bool := op &&& r.mask == r.pattern

/-- The rows 0x00 to 0x3F of the base table (R102). -/
def baseRowsQuarter0 : List (OpcodeRow Instr) :=
  [ ⟨0xFF#8, 0x00#8, fun _ => .nop⟩,
    ⟨0xFF#8, 0x08#8, fun _ => .ldMemA16Sp⟩,
    ⟨0xFF#8, 0x10#8, fun _ => .stop⟩,
    ⟨0xFF#8, 0x18#8, fun _ => .jrE8⟩,
    ⟨0xE7#8, 0x20#8, fun op => .jrCcE8 (fieldCond op)⟩,
    ⟨0xCF#8, 0x01#8, fun op => .ldRrD16 (fieldPair op)⟩,
    ⟨0xCF#8, 0x09#8, fun op => .addHlRr (fieldPair op)⟩,
    ⟨0xFF#8, 0x02#8, fun _ => .ldMemBcA⟩,
    ⟨0xFF#8, 0x12#8, fun _ => .ldMemDeA⟩,
    ⟨0xFF#8, 0x22#8, fun _ => .ldMemHlIncA⟩,
    ⟨0xFF#8, 0x32#8, fun _ => .ldMemHlDecA⟩,
    ⟨0xFF#8, 0x0A#8, fun _ => .ldAMemBc⟩,
    ⟨0xFF#8, 0x1A#8, fun _ => .ldAMemDe⟩,
    ⟨0xFF#8, 0x2A#8, fun _ => .ldAMemHlInc⟩,
    ⟨0xFF#8, 0x3A#8, fun _ => .ldAMemHlDec⟩,
    ⟨0xCF#8, 0x03#8, fun op => .incRr (fieldPair op)⟩,
    ⟨0xCF#8, 0x0B#8, fun op => .decRr (fieldPair op)⟩,
    ⟨0xC7#8, 0x04#8, fun op => .incR8 (fieldY op)⟩,
    ⟨0xC7#8, 0x05#8, fun op => .decR8 (fieldY op)⟩,
    ⟨0xC7#8, 0x06#8, fun op => .ldR8D8 (fieldY op)⟩,
    ⟨0xFF#8, 0x07#8, fun _ => .rlca⟩,
    ⟨0xFF#8, 0x0F#8, fun _ => .rrca⟩,
    ⟨0xFF#8, 0x17#8, fun _ => .rla⟩,
    ⟨0xFF#8, 0x1F#8, fun _ => .rra⟩,
    ⟨0xFF#8, 0x27#8, fun _ => .daa⟩,
    ⟨0xFF#8, 0x2F#8, fun _ => .cpl⟩,
    ⟨0xFF#8, 0x37#8, fun _ => .scf⟩,
    ⟨0xFF#8, 0x3F#8, fun _ => .ccf⟩ ]

/-- The rows 0x40 to 0x7F: the load block, split so that no row holds 0x76, and HALT (R102, R103). -/
def baseRowsQuarter1 : List (OpcodeRow Instr) :=
  [ ⟨0xF8#8, 0x40#8, fun op => .ldBR8 (fieldZ op)⟩,
    ⟨0xF8#8, 0x48#8, fun op => .ldCR8 (fieldZ op)⟩,
    ⟨0xF8#8, 0x50#8, fun op => .ldDR8 (fieldZ op)⟩,
    ⟨0xF8#8, 0x58#8, fun op => .ldER8 (fieldZ op)⟩,
    ⟨0xF8#8, 0x60#8, fun op => .ldHR8 (fieldZ op)⟩,
    ⟨0xF8#8, 0x68#8, fun op => .ldLR8 (fieldZ op)⟩,
    ⟨0xFF#8, 0x70#8, fun _ => .ldMemHlB⟩,
    ⟨0xFF#8, 0x71#8, fun _ => .ldMemHlC⟩,
    ⟨0xFF#8, 0x72#8, fun _ => .ldMemHlD⟩,
    ⟨0xFF#8, 0x73#8, fun _ => .ldMemHlE⟩,
    ⟨0xFF#8, 0x74#8, fun _ => .ldMemHlH⟩,
    ⟨0xFF#8, 0x75#8, fun _ => .ldMemHlL⟩,
    ⟨0xFF#8, 0x77#8, fun _ => .ldMemHlA⟩,
    ⟨0xFF#8, 0x76#8, fun _ => .halt⟩,
    ⟨0xF8#8, 0x78#8, fun op => .ldAR8 (fieldZ op)⟩ ]

/-- The rows 0x80 to 0xBF: the arithmetic and logic group (R99, R102). -/
def baseRowsQuarter2 : List (OpcodeRow Instr) :=
  [ ⟨0xF8#8, 0x80#8, fun op => .addAR8 (fieldZ op)⟩,
    ⟨0xF8#8, 0x88#8, fun op => .adcAR8 (fieldZ op)⟩,
    ⟨0xF8#8, 0x90#8, fun op => .subR8 (fieldZ op)⟩,
    ⟨0xF8#8, 0x98#8, fun op => .sbcAR8 (fieldZ op)⟩,
    ⟨0xF8#8, 0xA0#8, fun op => .andR8 (fieldZ op)⟩,
    ⟨0xF8#8, 0xA8#8, fun op => .xorR8 (fieldZ op)⟩,
    ⟨0xF8#8, 0xB0#8, fun op => .orR8 (fieldZ op)⟩,
    ⟨0xF8#8, 0xB8#8, fun op => .cpR8 (fieldZ op)⟩ ]

/-- The rows 0xC0 to 0xFF that hold an instruction, and the prefix byte (R102, R106). -/
def baseRowsQuarter3 : List (OpcodeRow Instr) :=
  [ ⟨0xE7#8, 0xC0#8, fun op => .retCc (fieldCond op)⟩,
    ⟨0xFF#8, 0xE0#8, fun _ => .ldhMemA8A⟩,
    ⟨0xFF#8, 0xE8#8, fun _ => .addSpE8⟩,
    ⟨0xFF#8, 0xF0#8, fun _ => .ldhAMemA8⟩,
    ⟨0xFF#8, 0xF8#8, fun _ => .ldHlSpE8⟩,
    ⟨0xCF#8, 0xC1#8, fun op => .popRr (fieldStackPair op)⟩,
    ⟨0xFF#8, 0xC9#8, fun _ => .ret⟩,
    ⟨0xFF#8, 0xD9#8, fun _ => .reti⟩,
    ⟨0xFF#8, 0xE9#8, fun _ => .jpHl⟩,
    ⟨0xFF#8, 0xF9#8, fun _ => .ldSpHl⟩,
    ⟨0xE7#8, 0xC2#8, fun op => .jpCcA16 (fieldCond op)⟩,
    ⟨0xFF#8, 0xE2#8, fun _ => .ldMemCA⟩,
    ⟨0xFF#8, 0xEA#8, fun _ => .ldMemA16A⟩,
    ⟨0xFF#8, 0xF2#8, fun _ => .ldAMemC⟩,
    ⟨0xFF#8, 0xFA#8, fun _ => .ldAMemA16⟩,
    ⟨0xFF#8, 0xC3#8, fun _ => .jpA16⟩,
    ⟨0xFF#8, 0xCB#8, fun _ => .prefixCb⟩,
    ⟨0xFF#8, 0xF3#8, fun _ => .di⟩,
    ⟨0xFF#8, 0xFB#8, fun _ => .ei⟩,
    ⟨0xE7#8, 0xC4#8, fun op => .callCcA16 (fieldCond op)⟩,
    ⟨0xCF#8, 0xC5#8, fun op => .pushRr (fieldStackPair op)⟩,
    ⟨0xFF#8, 0xCD#8, fun _ => .callA16⟩,
    ⟨0xFF#8, 0xC6#8, fun _ => .addAD8⟩,
    ⟨0xFF#8, 0xCE#8, fun _ => .adcAD8⟩,
    ⟨0xFF#8, 0xD6#8, fun _ => .subD8⟩,
    ⟨0xFF#8, 0xDE#8, fun _ => .sbcAD8⟩,
    ⟨0xFF#8, 0xE6#8, fun _ => .andD8⟩,
    ⟨0xFF#8, 0xEE#8, fun _ => .xorD8⟩,
    ⟨0xFF#8, 0xF6#8, fun _ => .orD8⟩,
    ⟨0xFF#8, 0xFE#8, fun _ => .cpD8⟩,
    ⟨0xC7#8, 0xC7#8, fun op => .rstT (fieldIndex op)⟩ ]

/-- The bytes that hold no instruction (R108). -/
def baseRowsIllegal : List (OpcodeRow Instr) :=
  [ ⟨0xFF#8, 0xD3#8, fun _ => .illegalD3⟩,
    ⟨0xFF#8, 0xDB#8, fun _ => .illegalDB⟩,
    ⟨0xFF#8, 0xDD#8, fun _ => .illegalDD⟩,
    ⟨0xFF#8, 0xE3#8, fun _ => .illegalE3⟩,
    ⟨0xFF#8, 0xE4#8, fun _ => .illegalE4⟩,
    ⟨0xFF#8, 0xEB#8, fun _ => .illegalEB⟩,
    ⟨0xFF#8, 0xEC#8, fun _ => .illegalEC⟩,
    ⟨0xFF#8, 0xED#8, fun _ => .illegalED⟩,
    ⟨0xFF#8, 0xF4#8, fun _ => .illegalF4⟩,
    ⟨0xFF#8, 0xFC#8, fun _ => .illegalFC⟩,
    ⟨0xFF#8, 0xFD#8, fun _ => .illegalFD⟩ ]

/-- The base table, 93 rows; every byte matches exactly one (R102). -/
def baseTable : List (OpcodeRow Instr) :=
  baseRowsQuarter0 ++ baseRowsQuarter1 ++ baseRowsQuarter2 ++ baseRowsQuarter3 ++ baseRowsIllegal

/-- The table behind the byte 0xCB, 11 rows; every byte matches exactly one (R100, R109). -/
def cbTable : List (OpcodeRow CbInstr) :=
  [ ⟨0xF8#8, 0x00#8, fun op => .rlc (fieldZ op)⟩,
    ⟨0xF8#8, 0x08#8, fun op => .rrc (fieldZ op)⟩,
    ⟨0xF8#8, 0x10#8, fun op => .rl (fieldZ op)⟩,
    ⟨0xF8#8, 0x18#8, fun op => .rr (fieldZ op)⟩,
    ⟨0xF8#8, 0x20#8, fun op => .sla (fieldZ op)⟩,
    ⟨0xF8#8, 0x28#8, fun op => .sra (fieldZ op)⟩,
    ⟨0xF8#8, 0x30#8, fun op => .swap (fieldZ op)⟩,
    ⟨0xF8#8, 0x38#8, fun op => .srl (fieldZ op)⟩,
    ⟨0xC0#8, 0x40#8, fun op => .bit (fieldIndex op) (fieldZ op)⟩,
    ⟨0xC0#8, 0x80#8, fun op => .res (fieldIndex op) (fieldZ op)⟩,
    ⟨0xC0#8, 0xC0#8, fun op => .set (fieldIndex op) (fieldZ op)⟩ ]

/-- The value the first matching row builds from the byte. -/
def readRow {α : Type} (otherwise : α) (table : List (OpcodeRow α)) (op : Byte) : α :=
  match table with
  | [] => otherwise
  | r :: rest => if r.matches op then r.build op else readRow otherwise rest op

/-- The row of the base table a byte selects, the prefix and the illegal rows among them. The value for a byte that no
row matches is never used: the rows cover every byte. -/
def baseRow (op : Byte) : Instr := readRow .nop baseTable op

/-- The instruction a byte selects behind the prefix 0xCB (R100). -/
def cbRow (op : Byte) : CbInstr := readRow (.rlc (.reg .b)) cbTable op

/-! ### The decoder -/

/-- The prefix byte, "the only prefix" (R106). -/
def cbPrefix : Byte := 0xCB#8

/-- KGB's decoder, a pure function of one byte and one flag (R91), under a value of `ILLEGAL_OPCODES`. Without the prefix
it answers none for a byte of that set, for a byte whose row of the table names no instruction (R108; log 9), and, as no
step ever asks, for the prefix byte (R106). The set is one of base opcode bytes: behind the prefix every byte decodes. -/
def decodeWith (illegal : List Byte) (op : Byte) (prefixed : Bool) : Option Instr :=
  if prefixed then some (cbRow op).toInstr
  else if op ∈ illegal then none
  else if (baseRow op).wf then some (baseRow op)
  else none

/-- The decoder at the default set of illegal opcodes (R91, R108). -/
def decode (op : Byte) (prefixed : Bool) : Option Instr := decodeWith Config.illegalOpcodes op prefixed

/-- Why a sequence of bytes is no instruction. -/
inductive DecodeError where
  /-- there is no byte to read an opcode from -/
  | noByte
  /-- the prefix byte stands last -/
  | nothingAfterPrefix
  /-- the byte has no instruction (R108) -/
  | noInstruction (op : Byte)
deriving DecidableEq, Repr

/-- Reads one instruction's opcode bytes (R90, R106) under a value of `ILLEGAL_OPCODES` and gives what follows them: the
immediates, and the next instruction. -/
def decodeBytesWith (illegal : List Byte) : List Byte → Except DecodeError (Instr × List Byte)
  | [] => .error .noByte
  | op :: rest =>
    if op = cbPrefix then
      match rest with
      | [] => .error .nothingAfterPrefix
      | op2 :: rest2 => .ok ((cbRow op2).toInstr, rest2)
    else
      match decodeWith illegal op false with
      | some i => .ok (i, rest)
      | none => .error (.noInstruction op)

/-- The same at the default set of illegal opcodes. -/
def decodeBytes (bytes : List Byte) : Except DecodeError (Instr × List Byte) :=
  decodeBytesWith Config.illegalOpcodes bytes

/-! ### The encoder -/

/-- The opcode bytes of a table row, from the patterns of R100 and R102. -/
def encode : Instr → List Byte
  | .nop => [0x00#8]
  | .ldMemA16Sp => [0x08#8]
  | .stop => [0x10#8]
  | .jrE8 => [0x18#8]
  | .jrCcE8 cc => [0x20#8 ||| (cc.code <<< 3)]
  | .ldRrD16 p => [0x01#8 ||| (p.code <<< 4)]
  | .addHlRr p => [0x09#8 ||| (p.code <<< 4)]
  | .ldMemBcA => [0x02#8]
  | .ldMemDeA => [0x12#8]
  | .ldMemHlIncA => [0x22#8]
  | .ldMemHlDecA => [0x32#8]
  | .ldAMemBc => [0x0A#8]
  | .ldAMemDe => [0x1A#8]
  | .ldAMemHlInc => [0x2A#8]
  | .ldAMemHlDec => [0x3A#8]
  | .incRr p => [0x03#8 ||| (p.code <<< 4)]
  | .decRr p => [0x0B#8 ||| (p.code <<< 4)]
  | .incR8 r => [0x04#8 ||| (r.code <<< 3)]
  | .decR8 r => [0x05#8 ||| (r.code <<< 3)]
  | .ldR8D8 r => [0x06#8 ||| (r.code <<< 3)]
  | .rlca => [0x07#8]
  | .rrca => [0x0F#8]
  | .rla => [0x17#8]
  | .rra => [0x1F#8]
  | .daa => [0x27#8]
  | .cpl => [0x2F#8]
  | .scf => [0x37#8]
  | .ccf => [0x3F#8]
  | .ldBR8 s => [0x40#8 ||| s.code]
  | .ldCR8 s => [0x48#8 ||| s.code]
  | .ldDR8 s => [0x50#8 ||| s.code]
  | .ldER8 s => [0x58#8 ||| s.code]
  | .ldHR8 s => [0x60#8 ||| s.code]
  | .ldLR8 s => [0x68#8 ||| s.code]
  | .ldMemHlB => [0x70#8]
  | .ldMemHlC => [0x71#8]
  | .ldMemHlD => [0x72#8]
  | .ldMemHlE => [0x73#8]
  | .ldMemHlH => [0x74#8]
  | .ldMemHlL => [0x75#8]
  | .ldMemHlA => [0x77#8]
  | .halt => [0x76#8]
  | .ldAR8 s => [0x78#8 ||| s.code]
  | .addAR8 r => [0x80#8 ||| r.code]
  | .adcAR8 r => [0x88#8 ||| r.code]
  | .subR8 r => [0x90#8 ||| r.code]
  | .sbcAR8 r => [0x98#8 ||| r.code]
  | .andR8 r => [0xA0#8 ||| r.code]
  | .xorR8 r => [0xA8#8 ||| r.code]
  | .orR8 r => [0xB0#8 ||| r.code]
  | .cpR8 r => [0xB8#8 ||| r.code]
  | .retCc cc => [0xC0#8 ||| (cc.code <<< 3)]
  | .ldhMemA8A => [0xE0#8]
  | .addSpE8 => [0xE8#8]
  | .ldhAMemA8 => [0xF0#8]
  | .ldHlSpE8 => [0xF8#8]
  | .popRr p => [0xC1#8 ||| (p.code <<< 4)]
  | .ret => [0xC9#8]
  | .reti => [0xD9#8]
  | .jpHl => [0xE9#8]
  | .ldSpHl => [0xF9#8]
  | .jpCcA16 cc => [0xC2#8 ||| (cc.code <<< 3)]
  | .ldMemCA => [0xE2#8]
  | .ldMemA16A => [0xEA#8]
  | .ldAMemC => [0xF2#8]
  | .ldAMemA16 => [0xFA#8]
  | .jpA16 => [0xC3#8]
  | .prefixCb => [0xCB#8]
  | .di => [0xF3#8]
  | .ei => [0xFB#8]
  | .callCcA16 cc => [0xC4#8 ||| (cc.code <<< 3)]
  | .pushRr p => [0xC5#8 ||| (p.code <<< 4)]
  | .callA16 => [0xCD#8]
  | .addAD8 => [0xC6#8]
  | .adcAD8 => [0xCE#8]
  | .subD8 => [0xD6#8]
  | .sbcAD8 => [0xDE#8]
  | .andD8 => [0xE6#8]
  | .xorD8 => [0xEE#8]
  | .orD8 => [0xF6#8]
  | .cpD8 => [0xFE#8]
  | .rstT t => [0xC7#8 ||| (t.setWidth 8 <<< 3)]
  | .illegalD3 => [0xD3#8]
  | .illegalDB => [0xDB#8]
  | .illegalDD => [0xDD#8]
  | .illegalE3 => [0xE3#8]
  | .illegalE4 => [0xE4#8]
  | .illegalEB => [0xEB#8]
  | .illegalEC => [0xEC#8]
  | .illegalED => [0xED#8]
  | .illegalF4 => [0xF4#8]
  | .illegalFC => [0xFC#8]
  | .illegalFD => [0xFD#8]
  | .rlcR8 r => [cbPrefix, 0x00#8 ||| r.code]
  | .rrcR8 r => [cbPrefix, 0x08#8 ||| r.code]
  | .rlR8 r => [cbPrefix, 0x10#8 ||| r.code]
  | .rrR8 r => [cbPrefix, 0x18#8 ||| r.code]
  | .slaR8 r => [cbPrefix, 0x20#8 ||| r.code]
  | .sraR8 r => [cbPrefix, 0x28#8 ||| r.code]
  | .swapR8 r => [cbPrefix, 0x30#8 ||| r.code]
  | .srlR8 r => [cbPrefix, 0x38#8 ||| r.code]
  | .bitBR8 b r => [cbPrefix, 0x40#8 ||| (b.setWidth 8 <<< 3) ||| r.code]
  | .resBR8 b r => [cbPrefix, 0x80#8 ||| (b.setWidth 8 <<< 3) ||| r.code]
  | .setBR8 b r => [cbPrefix, 0xC0#8 ||| (b.setWidth 8 <<< 3) ||| r.code]

/-- A whole instruction: its opcode bytes and then its immediate bytes in address order (R90, R104). -/
def encodeWithImm (i : Instr) (imm : List Byte) : List Byte := encode i ++ imm

/-! ### The opcode table's own words -/

/-- Byte `k` of a number whose bit 0 is the least significant bit of the first byte. -/
def tableByte (w k : Nat) : Byte := BitVec.ofNat 8 (w / 2 ^ (8 * k))

/-- The longest instruction's bytes of a table word: the bits above `nbits` are zero. -/
def tableBytes (nbits w : Nat) : List Byte :=
  let v := w % 2 ^ nbits
  [tableByte v 0, tableByte v 1, tableByte v 2]

/-- The table row the bits of a table word select. A word of one byte is a word of the base table, so the one byte
0xCB is the prefix row and an illegal byte is its own row (log 12); a longer word that starts with 0xCB is the
instruction its second byte selects. -/
def decodeTableWord (nbits w : Nat) : Option Instr :=
  match tableBytes nbits w with
  | op :: op2 :: _ => if op = cbPrefix ∧ 8 < nbits then some (cbRow op2).toInstr else some (baseRow op)
  | _ => none

end Sys2Proof
end

