-- ==== Sys2Proof/Machine/Rotate.lean ====
section
/-! DEFINITION. Rotates, shifts and single bits (43_rotate_shift_bit.md). The prefixed meanings start after both
opcode fetches. -/

namespace Sys2Proof.Machine

/-! ### Shared shapes -/

/-- An accumulator rotate: A and, of the flags, what `accRotateFlags` writes under this machine's `ROTA_CLEARS_ZNH`
(R224). -/
def State.rotateA (s : State) (x : ShiftResult) : State :=
  (s.setReg .a x.res).setFlags (accRotateFlags s.params.rotaClearsZnh s.flags x)

/-- A prefixed rotate or shift: one read, one write, all four flags (R238). -/
def State.shift8 (s : State) (r : Op8) (op : Byte → Bool → ShiftResult) : State :=
  let o := s.read8 r
  let x := op o.1 o.2.flags.c
  (o.2.write8 r x.res).setFlags (shiftFlags x)

/-- A read-modify-write of one operand that touches no flag (R241, R242). -/
def State.modify8 (s : State) (r : Op8) (op : Byte → Byte) : State :=
  let o := s.read8 r
  o.2.write8 r (op o.1)

/-! ### Accumulator rotates -/

/-- RLCA (R220). -/
def execRlca (s : State) : Result := .next (s.rotateA (rotLeft (s.reg .a) s.flags.c))

/-- RRCA (R221). -/
def execRrca (s : State) : Result := .next (s.rotateA (rotRight (s.reg .a) s.flags.c))

/-- RLA (R222). -/
def execRla (s : State) : Result := .next (s.rotateA (rotLeftCarry (s.reg .a) s.flags.c))

/-- RRA (R223). -/
def execRra (s : State) : Result := .next (s.rotateA (rotRightCarry (s.reg .a) s.flags.c))

/-! ### Prefixed rotates and shifts -/

/-- RLC r8 (R230). -/
def execRlcR8 (r : Op8) (s : State) : Result := .next (s.shift8 r rotLeft)

/-- RRC r8 (R231). -/
def execRrcR8 (r : Op8) (s : State) : Result := .next (s.shift8 r rotRight)

/-- RL r8 (R232). -/
def execRlR8 (r : Op8) (s : State) : Result := .next (s.shift8 r rotLeftCarry)

/-- RR r8 (R233). -/
def execRrR8 (r : Op8) (s : State) : Result := .next (s.shift8 r rotRightCarry)

/-- SLA r8 (R234). -/
def execSlaR8 (r : Op8) (s : State) : Result := .next (s.shift8 r shiftLeft)

/-- SRA r8 (R235). -/
def execSraR8 (r : Op8) (s : State) : Result := .next (s.shift8 r shiftRightArith)

/-- SWAP r8 (R236). -/
def execSwapR8 (r : Op8) (s : State) : Result := .next (s.shift8 r swapNibbles)

/-- SRL r8 (R237). -/
def execSrlR8 (r : Op8) (s : State) : Result := .next (s.shift8 r shiftRightLogical)

/-! ### Single bits -/

/-- BIT b,r8: one read and no write (R240). -/
def execBitBR8 (b : BitVec 3) (r : Op8) (s : State) : Result :=
  let o := s.read8 r
  .next (o.2.setFlags (bitTestFlags o.2.flags o.1 b))

/-- RES b,r8: the write-back happens even when the bit was already clear (R241). -/
def execResBR8 (b : BitVec 3) (r : Op8) (s : State) : Result := .next (s.modify8 r fun v => clearBit v b.toNat)

/-- SET b,r8: the write-back happens even when the bit was already set (R242). -/
def execSetBR8 (b : BitVec 3) (r : Op8) (s : State) : Result := .next (s.modify8 r fun v => setBit v b.toNat)

end Sys2Proof.Machine
end

