-- ==== Sys2Proof/Machine/System.lean ====
section
/-! DEFINITION. System instructions, the prefix byte and the bytes without an instruction (46_system.md). -/

namespace Sys2Proof.Machine

/-- NOP (R340). -/
def execNop (s : State) : Result := .next s

/-- HALT (R341). -/
def execHalt (s : State) : Result := .next (s.setHalted true)

/-- STOP: "HALT under another opcode", one byte (R342, D12). -/
def execStop (s : State) : Result := .next (s.setHalted true)

/-- DI (R343). -/
def execDi (s : State) : Result := .next ((s.setIme false).setImePending false)

/-- EI: `ime` itself is not written here (R344). -/
def execEi (s : State) : Result := .next (s.setImePending true)

/-- The meaning of the instruction a second opcode byte selects (30_encoding.md R100). -/
def execCb (i : CbInstr) (s : State) : Result :=
  match i with
  | .rlc r => execRlcR8 r s
  | .rrc r => execRrcR8 r s
  | .rl r => execRlR8 r s
  | .rr r => execRrR8 r s
  | .sla r => execSlaR8 r s
  | .sra r => execSraR8 r s
  | .swap r => execSwapR8 r s
  | .srl r => execSrlR8 r s
  | .bit b r => execBitBR8 b r s
  | .res b r => execResBR8 b r s
  | .set b r => execSetBR8 b r s

/-- The prefix byte: "fetch one more byte (auto-increment PC) and decode that as prefixed" (R345). A step never asks
for this meaning, since it fetches the second byte before it decodes (log 8). -/
def execPrefixCb (s : State) : Result :=
  let o := s.fetch8
  execCb (cbRow o.1) o.2

/-! ### The 11 bytes without an instruction: the decode fault is latched and nothing else changes (R346, R360) -/

/-- The byte 0xD3 (R346). -/
def execIllegalD3 (s : State) : Result := .next (s.latchDecodeFault 0xD3#8)

/-- The byte 0xDB (R346). -/
def execIllegalDB (s : State) : Result := .next (s.latchDecodeFault 0xDB#8)

/-- The byte 0xDD (R346). -/
def execIllegalDD (s : State) : Result := .next (s.latchDecodeFault 0xDD#8)

/-- The byte 0xE3 (R346). -/
def execIllegalE3 (s : State) : Result := .next (s.latchDecodeFault 0xE3#8)

/-- The byte 0xE4 (R346). -/
def execIllegalE4 (s : State) : Result := .next (s.latchDecodeFault 0xE4#8)

/-- The byte 0xEB (R346). -/
def execIllegalEB (s : State) : Result := .next (s.latchDecodeFault 0xEB#8)

/-- The byte 0xEC (R346). -/
def execIllegalEC (s : State) : Result := .next (s.latchDecodeFault 0xEC#8)

/-- The byte 0xED (R346). -/
def execIllegalED (s : State) : Result := .next (s.latchDecodeFault 0xED#8)

/-- The byte 0xF4 (R346). -/
def execIllegalF4 (s : State) : Result := .next (s.latchDecodeFault 0xF4#8)

/-- The byte 0xFC (R346). -/
def execIllegalFC (s : State) : Result := .next (s.latchDecodeFault 0xFC#8)

/-- The byte 0xFD (R346). -/
def execIllegalFD (s : State) : Result := .next (s.latchDecodeFault 0xFD#8)

end Sys2Proof.Machine
end

