-- ==== Sys2Proof/Machine/Dispatch.lean ====
section
/-! DEFINITION. One arm per table row: the meaning of the row, run after its opcode bytes are fetched. This is
also the host's `execute(instruction)` (60_exceptions.md R378). -/

namespace Sys2Proof.Machine

def exec (i : Instr) (s : State) : Host.Outcome State Fault Refusal :=
  match i with
  | .nop => Sys2Proof.Machine.execNop s
  | .ldMemA16Sp => Sys2Proof.Machine.execLdMemA16Sp s
  | .stop => Sys2Proof.Machine.execStop s
  | .jrE8 => Sys2Proof.Machine.execJrE8 s
  | .jrCcE8 cc => Sys2Proof.Machine.execJrCcE8 cc s
  | .ldRrD16 p => Sys2Proof.Machine.execLdRrD16 p s
  | .addHlRr p => Sys2Proof.Machine.execAddHlRr p s
  | .ldMemBcA => Sys2Proof.Machine.execLdMemBcA s
  | .ldMemDeA => Sys2Proof.Machine.execLdMemDeA s
  | .ldMemHlIncA => Sys2Proof.Machine.execLdMemHlIncA s
  | .ldMemHlDecA => Sys2Proof.Machine.execLdMemHlDecA s
  | .ldAMemBc => Sys2Proof.Machine.execLdAMemBc s
  | .ldAMemDe => Sys2Proof.Machine.execLdAMemDe s
  | .ldAMemHlInc => Sys2Proof.Machine.execLdAMemHlInc s
  | .ldAMemHlDec => Sys2Proof.Machine.execLdAMemHlDec s
  | .incRr p => Sys2Proof.Machine.execIncRr p s
  | .decRr p => Sys2Proof.Machine.execDecRr p s
  | .incR8 r => Sys2Proof.Machine.execIncR8 r s
  | .decR8 r => Sys2Proof.Machine.execDecR8 r s
  | .ldR8D8 r => Sys2Proof.Machine.execLdR8D8 r s
  | .rlca => Sys2Proof.Machine.execRlca s
  | .rrca => Sys2Proof.Machine.execRrca s
  | .rla => Sys2Proof.Machine.execRla s
  | .rra => Sys2Proof.Machine.execRra s
  | .daa => Sys2Proof.Machine.execDaa s
  | .cpl => Sys2Proof.Machine.execCpl s
  | .scf => Sys2Proof.Machine.execScf s
  | .ccf => Sys2Proof.Machine.execCcf s
  | .ldBR8 src => Sys2Proof.Machine.execLdBR8 src s
  | .ldCR8 src => Sys2Proof.Machine.execLdCR8 src s
  | .ldDR8 src => Sys2Proof.Machine.execLdDR8 src s
  | .ldER8 src => Sys2Proof.Machine.execLdER8 src s
  | .ldHR8 src => Sys2Proof.Machine.execLdHR8 src s
  | .ldLR8 src => Sys2Proof.Machine.execLdLR8 src s
  | .ldMemHlB => Sys2Proof.Machine.execLdMemHlB s
  | .ldMemHlC => Sys2Proof.Machine.execLdMemHlC s
  | .ldMemHlD => Sys2Proof.Machine.execLdMemHlD s
  | .ldMemHlE => Sys2Proof.Machine.execLdMemHlE s
  | .ldMemHlH => Sys2Proof.Machine.execLdMemHlH s
  | .ldMemHlL => Sys2Proof.Machine.execLdMemHlL s
  | .ldMemHlA => Sys2Proof.Machine.execLdMemHlA s
  | .halt => Sys2Proof.Machine.execHalt s
  | .ldAR8 src => Sys2Proof.Machine.execLdAR8 src s
  | .addAR8 r => Sys2Proof.Machine.execAddAR8 r s
  | .adcAR8 r => Sys2Proof.Machine.execAdcAR8 r s
  | .subR8 r => Sys2Proof.Machine.execSubR8 r s
  | .sbcAR8 r => Sys2Proof.Machine.execSbcAR8 r s
  | .andR8 r => Sys2Proof.Machine.execAndR8 r s
  | .xorR8 r => Sys2Proof.Machine.execXorR8 r s
  | .orR8 r => Sys2Proof.Machine.execOrR8 r s
  | .cpR8 r => Sys2Proof.Machine.execCpR8 r s
  | .retCc cc => Sys2Proof.Machine.execRetCc cc s
  | .ldhMemA8A => Sys2Proof.Machine.execLdhMemA8A s
  | .addSpE8 => Sys2Proof.Machine.execAddSpE8 s
  | .ldhAMemA8 => Sys2Proof.Machine.execLdhAMemA8 s
  | .ldHlSpE8 => Sys2Proof.Machine.execLdHlSpE8 s
  | .popRr p => Sys2Proof.Machine.execPopRr p s
  | .ret => Sys2Proof.Machine.execRet s
  | .reti => Sys2Proof.Machine.execReti s
  | .jpHl => Sys2Proof.Machine.execJpHl s
  | .ldSpHl => Sys2Proof.Machine.execLdSpHl s
  | .jpCcA16 cc => Sys2Proof.Machine.execJpCcA16 cc s
  | .ldMemCA => Sys2Proof.Machine.execLdMemCA s
  | .ldMemA16A => Sys2Proof.Machine.execLdMemA16A s
  | .ldAMemC => Sys2Proof.Machine.execLdAMemC s
  | .ldAMemA16 => Sys2Proof.Machine.execLdAMemA16 s
  | .jpA16 => Sys2Proof.Machine.execJpA16 s
  | .prefixCb => Sys2Proof.Machine.execPrefixCb s
  | .di => Sys2Proof.Machine.execDi s
  | .ei => Sys2Proof.Machine.execEi s
  | .callCcA16 cc => Sys2Proof.Machine.execCallCcA16 cc s
  | .pushRr p => Sys2Proof.Machine.execPushRr p s
  | .callA16 => Sys2Proof.Machine.execCallA16 s
  | .addAD8 => Sys2Proof.Machine.execAddAD8 s
  | .adcAD8 => Sys2Proof.Machine.execAdcAD8 s
  | .subD8 => Sys2Proof.Machine.execSubD8 s
  | .sbcAD8 => Sys2Proof.Machine.execSbcAD8 s
  | .andD8 => Sys2Proof.Machine.execAndD8 s
  | .xorD8 => Sys2Proof.Machine.execXorD8 s
  | .orD8 => Sys2Proof.Machine.execOrD8 s
  | .cpD8 => Sys2Proof.Machine.execCpD8 s
  | .rstT t => Sys2Proof.Machine.execRstT t s
  | .illegalD3 => Sys2Proof.Machine.execIllegalD3 s
  | .illegalDB => Sys2Proof.Machine.execIllegalDB s
  | .illegalDD => Sys2Proof.Machine.execIllegalDD s
  | .illegalE3 => Sys2Proof.Machine.execIllegalE3 s
  | .illegalE4 => Sys2Proof.Machine.execIllegalE4 s
  | .illegalEB => Sys2Proof.Machine.execIllegalEB s
  | .illegalEC => Sys2Proof.Machine.execIllegalEC s
  | .illegalED => Sys2Proof.Machine.execIllegalED s
  | .illegalF4 => Sys2Proof.Machine.execIllegalF4 s
  | .illegalFC => Sys2Proof.Machine.execIllegalFC s
  | .illegalFD => Sys2Proof.Machine.execIllegalFD s
  | .rlcR8 r => Sys2Proof.Machine.execRlcR8 r s
  | .rrcR8 r => Sys2Proof.Machine.execRrcR8 r s
  | .rlR8 r => Sys2Proof.Machine.execRlR8 r s
  | .rrR8 r => Sys2Proof.Machine.execRrR8 r s
  | .slaR8 r => Sys2Proof.Machine.execSlaR8 r s
  | .sraR8 r => Sys2Proof.Machine.execSraR8 r s
  | .swapR8 r => Sys2Proof.Machine.execSwapR8 r s
  | .srlR8 r => Sys2Proof.Machine.execSrlR8 r s
  | .bitBR8 b r => Sys2Proof.Machine.execBitBR8 b r s
  | .resBR8 b r => Sys2Proof.Machine.execResBR8 b r s
  | .setBR8 b r => Sys2Proof.Machine.execSetBR8 b r s

end Sys2Proof.Machine
end

