-- ==== Sys2Proof/Machine/Cycle.lean ====
section
/-! DEFINITION. The step cycle (40_step_and_primitives.md R130), and placing an instruction where the next step
fetches. -/

namespace Sys2Proof.Machine

/-- `CommitImePending(p0)` after the instruction has executed (R369). -/
def commitAfter (p0 : Bool) : Result → Result
  | .next s => .next (s.commitImePending p0)
  | .fault r => .fault r
  | .refused r => .refused r

/-- The opcode fetch: one byte, and one more behind the prefix. Answers what the decoder, under this machine's
`ILLEGAL_OPCODES`, makes of the last byte fetched, that byte, and the state after the fetches (R130 branch 3). -/
def State.fetchInstr (s : State) : Option Instr × Byte × State :=
  let op := s.fetch8
  if op.1 = cbPrefix then
    let op2 := op.2.fetch8
    (decodeWith s.params.illegalOpcodes op2.1 true, op2.1, op2.2)
  else (decodeWith s.params.illegalOpcodes op.1 false, op.1, op.2)

/-- Branch 3 of R130: fetch, decode, execute, commit; or latch the decode fault. -/
def State.runInstr (s : State) : Result :=
  let p0 := s.imePending
  match s.fetchInstr with
  | (some i, _, s1) => commitAfter p0 (exec i s1)
  | (none, op, s1) => .next (s1.latchDecodeFault op)

/-- `step()` (R130): the fault latch, then interrupt dispatch, then the halted state, then one instruction. -/
def stepCycle (s : State) : Result :=
  match s.fault with
  | some d => .fault (.decodeFault d.op d.prefixed)
  | none =>
    let s := s.clearBus
    let pending := s.pendingMask
    if s.ime && pending != 0 then .next ((s.setHalted false).dispatch pending)
    else if s.halted && pending == 0 then .next s
    else (s.setHalted false).runInstr

/-- Stores bytes at an address and the ones after it, without an access of the core. -/
def State.pokeBytes (s : State) (a : Word) : List Byte → State
  | [] => s
  | b :: rest => (s.poke a b).pokeBytes (a + 1) rest

/-- Makes the next step one that fetches: no fault, not halted, and no interrupt to take (log 11). -/
def State.readyToFetch (s : State) : State :=
  let s := (s.setFault none).setHalted false
  if s.ime && s.pendingMask != 0 then s.setIme false else s

/-- Places a table word, up to the longest instruction, at `pc`, and makes the next step fetch it (log 11). -/
def placeInstr (s : State) (nbits w : Nat) : State := (s.pokeBytes s.pc (tableBytes nbits w)).readyToFetch

end Sys2Proof.Machine
end

