-- ==== Sys2Proof/Machine/Step.lean ====
section
/-! DEFINITION. One step of the machine, and the state whose next step runs a given table word. -/

namespace Sys2Proof.Machine

/-- `step()` (40_step_and_primitives.md R130). -/
def step (s : State) : Host.Outcome State Fault Refusal := stepCycle s

/-- `s` with a table word stored at `pc`, so that the next step fetches and runs it (log 11). -/
def State.withFetchWord (s : State) (nbits w : Nat) : State := placeInstr s nbits w

end Sys2Proof.Machine
end

