-- ==== Sys2Proof/Machine/Environment.lean ====
section
/-! DEFINITION. What the environment and the host can do between two steps (20_memory.md R79, 60_exceptions.md R375).
None of it happens inside a step (log 10). `execute(instruction)` is `exec` (R378). -/

namespace Sys2Proof.Machine

/-- A move of the environment or the host between steps. -/
inductive EnvMove where
  /-- changes any byte behind the bus (R79); loading a program is a sequence of these (70_reset_and_hazards.md R403) -/
  | write (a : Word) (v : Byte)
  /-- the bus-side setter of one IF bit (R375) -/
  | request (k : Irq)
  /-- the bus-side setter of one IE bit (R375) -/
  | enable (k : Irq)
  /-- the register accessor, which masks a write of F (10_state.md R23) -/
  | setReg (n : Reg8) (v : Byte)
  /-- the `pc` accessor (R375) -/
  | setPc (w : Word)
  /-- the `sp` accessor (R375) -/
  | setSp (w : Word)
deriving DecidableEq, Repr

/-- Sets one bit of a byte behind the bus. -/
def State.pokeBit (s : State) (a : Word) (k : Nat) : State := s.poke a (setBit (s.memPeek a) k)

/-- The effect of a move. -/
def State.envMove (s : State) : EnvMove → State
  | .write a v => s.poke a v
  | .request k => s.pokeBit Config.ifAddr (Irq.bit k)
  | .enable k => s.pokeBit Config.ieAddr (Irq.bit k)
  | .setReg n v => s.setReg n v
  | .setPc w => s.setPc w
  | .setSp w => s.setSp w

end Sys2Proof.Machine
end

