-- ==== Sys2Proof/Safety.lean ====
section
/-! DEFINITION. The terms claims use: the invariant of the machine, the ways a run can stand still, runs with moves of
the environment between steps, and the replay of a step's bus accesses. -/

namespace Sys2Proof.Machine

/-- A byte, not the prefix, for which this machine's decoder has no instruction: it is in `ILLEGAL_OPCODES`, or the
opcode map has no instruction for it (30_encoding.md R108, 60_exceptions.md R360; log 9). -/
def State.illegalByte (s : State) (op : Byte) : Prop :=
  op ≠ 0xCB#8 ∧ (op ∈ s.params.illegalOpcodes ∨ op ∈ Config.illegalOpcodes)

/-- The machine's invariant: the bytes behind the bus are in canonical form (the model's own), the low nibble of F is
zero (10_state.md R22), and a latched fault names an illegal opcode read without the prefix (60_exceptions.md R360). -/
structure State.Inv (s : State) : Prop where
  memWf    : Memory.wf s.mem
  fLow     : s.regs.f &&& 0x0F#8 = 0
  faultIll : ∀ d, s.fault = some d → s.illegalByte d.op ∧ d.prefixed = false

/-- The core idles: every step leaves the machine as it is until the environment makes an interrupt pending
(60_exceptions.md R372). -/
def State.idle (s : State) : Bool := s.fault.isNone && s.halted && s.pendingMask == 0

/-- The core has stopped for good: the decode fault is latched (70_reset_and_hazards.md R412 case (a)). -/
def State.faulted (s : State) : Bool := s.fault.isSome

/-- What can be reached from a state by steps of the core and, between them, moves of the environment (00_scope.md
R10). -/
inductive Reaches (s : State) : State → Prop
  | refl : Reaches s s
  | core {t u : State} : Reaches s t → step t = .next u → Reaches s u
  | env {t : State} (m : EnvMove) : Reaches s t → Reaches s (t.envMove m)

/-- Performs a sequence of bus accesses on a memory in order, and checks that every read returns the byte then stored
(20_memory.md R74). -/
def replayBus : Memory → List BusAccess → Option Memory
  | m, [] => some m
  | m, .read a v :: rest => if m.read a.toNat = v then replayBus m rest else none
  | m, .write a v :: rest => replayBus (m.write a.toNat v) rest

/-- `n` steps in a row, stopping at the first fault or refusal. -/
def stepN : Nat → State → Result
  | 0, s => .next s
  | n + 1, s =>
    match step s with
    | .next t => stepN n t
    | .fault r => .fault r
    | .refused r => .refused r

/-! ### What the claims read off a state

These say in the statements' own words what the spec's notation means; none of them is used by the machine. -/

/-- A byte of F with the four flags at bits 7, 6, 5, 4 and zeros below (10_state.md R26). -/
def fByte (z n h c : Bool) : Byte := BitVec.ofNat 8 (128 * z.toNat + 64 * n.toNat + 32 * h.toNat + 16 * c.toNat)

/-- `F.Z`, `F.N`, `F.H`, `F.C` (10_state.md R26). -/
def State.flagZ (s : State) : Bool := s.regs.f.getLsbD 7
def State.flagN (s : State) : Bool := s.regs.f.getLsbD 6
def State.flagH (s : State) : Bool := s.regs.f.getLsbD 5
def State.flagC (s : State) : Bool := s.regs.f.getLsbD 4

/-- The byte of F that keeps `F.Z` and takes the other three flags. -/
def State.keepZ (s : State) (n h c : Bool) : Byte := fByte s.flagZ n h c

/-- The value an 8-bit operand has (30_encoding.md R96). -/
def State.operand (s : State) : Op8 → Byte
  | .reg .b => s.regs.b
  | .reg .c => s.regs.c
  | .reg .d => s.regs.d
  | .reg .e => s.regs.e
  | .reg .h => s.regs.h
  | .reg .l => s.regs.l
  | .memHl => s.memPeek s.hl
  | .reg .a => s.regs.a

/-- The bus read an 8-bit operand needs: one at HL, or none (20_memory.md R68). -/
def State.operandRead (s : State) : Op8 → List BusAccess
  | .reg _ => []
  | .memHl => [.read s.hl (s.memPeek s.hl)]

/-- The register file with one of the seven operand registers changed. -/
def Regs.put (x : Regs) (n : Gpr) (v : Byte) : Regs :=
  match n with
  | .a => { x with a := v }
  | .b => { x with b := v }
  | .c => { x with c := v }
  | .d => { x with d := v }
  | .e => { x with e := v }
  | .h => { x with h := v }
  | .l => { x with l := v }

/-- The bytes at `pc`, `pc+1`: the immediates of the instruction in execution (30_encoding.md R104). -/
def State.imm8 (s : State) : Byte := s.memPeek s.pc
def State.imm16 (s : State) : Word := s.memPeek (s.pc + 1) ++ s.memPeek s.pc

/-- The bus reads that fetch them (20_memory.md R68). -/
def State.imm8Read (s : State) : List BusAccess := [.read s.pc s.imm8]
def State.imm16Read (s : State) : List BusAccess :=
  [.read s.pc (s.memPeek s.pc), .read (s.pc + 1) (s.memPeek (s.pc + 1))]

/-- A displacement byte as the 16-bit number to add: `b` below 128, else `b - 256` modulo 65536 (30_encoding.md
R104). -/
def displacement (b : Byte) : Word := BitVec.ofNat 16 (if b.toNat < 128 then b.toNat else 65280 + b.toNat)

/-- Memory after is memory before with the byte `v` at `a`: every other address reads as before. -/
def StoresByte (s t : State) (a : Word) (v : Byte) : Prop := ∀ b, t.memPeek b = if b = a then v else s.memPeek b

/-- Memory after is memory before with `v`'s low byte at `a` and its high byte at `a+1`: every other address reads as
before. -/
def StoresWord (s t : State) (a v : Word) : Prop :=
  ∀ b, t.memPeek b =
    if b = a then v.extractLsb' 0 8 else if b = a + 1 then v.extractLsb' 8 8 else s.memPeek b

/-- `t` is `s` with `v` in the operand `r` and `f` in F, after the bus reads `reads`; an operand in memory adds the
one write at HL. Nothing else differs. -/
def OperandWritten (s t : State) (r : Op8) (v f : Byte) (reads : List BusAccess) : Prop :=
  match r with
  | .reg n => t = { s with regs := { s.regs.put n v with f := f }, bus := s.bus ++ reads }
  | .memHl =>
    t = { s with regs := { s.regs with f := f }, mem := t.mem, bus := s.bus ++ reads ++ [.write s.hl v] } ∧
      StoresByte s t s.hl v

/-- The value of a pair operand (30_encoding.md R97). -/
def State.pairValue (s : State) : Pair → Word
  | .bc => s.bc
  | .de => s.de
  | .hl => s.hl
  | .sp => s.sp

/-- The state with a pair operand changed and nothing else (10_state.md R24, R33). -/
def State.putPair (s : State) (p : Pair) (v : Word) : State :=
  match p with
  | .bc => { s with regs := { s.regs with b := v.extractLsb' 8 8, c := v.extractLsb' 0 8 } }
  | .de => { s with regs := { s.regs with d := v.extractLsb' 8 8, e := v.extractLsb' 0 8 } }
  | .hl => { s with regs := { s.regs with h := v.extractLsb' 8 8, l := v.extractLsb' 0 8 } }
  | .sp => { s with sp := v }

/-- The value PUSH moves (30_encoding.md R97). -/
def State.stackPairValue (s : State) : StackPair → Word
  | .bc => s.bc
  | .de => s.de
  | .hl => s.hl
  | .af => s.af

/-- The state with a POP destination changed and nothing else; F takes the high nibble only (10_state.md R25). -/
def State.putStackPair (s : State) (p : StackPair) (v : Word) : State :=
  match p with
  | .bc => { s with regs := { s.regs with b := v.extractLsb' 8 8, c := v.extractLsb' 0 8 } }
  | .de => { s with regs := { s.regs with d := v.extractLsb' 8 8, e := v.extractLsb' 0 8 } }
  | .hl => { s with regs := { s.regs with h := v.extractLsb' 8 8, l := v.extractLsb' 0 8 } }
  | .af => { s with regs := { s.regs with a := v.extractLsb' 8 8, f := v.extractLsb' 0 8 &&& 0xF0#8 } }

/-- The condition holds of the flags (40_step_and_primitives.md R146). -/
def State.holds (s : State) : Cond → Bool
  | .nz => !s.flagZ
  | .z => s.flagZ
  | .nc => !s.flagC
  | .c => s.flagC

/-- `t` is `s` after `v` was pushed: `sp` less 2, the high byte written at `sp-1`, then the low byte at `sp-2`
(40_step_and_primitives.md R142); `pc` and the bus reads before the push are given. Nothing else differs. -/
def Pushed (s t : State) (v pc : Word) (reads : List BusAccess) : Prop :=
  t = { s with
        sp := s.sp - 2, pc := pc, mem := t.mem,
        bus := s.bus ++ reads ++
          [.write (s.sp - 1) (v.extractLsb' 8 8), .write (s.sp - 2) (v.extractLsb' 0 8)] } ∧
    StoresWord s t (s.sp - 2) v

/-- The word at `sp`, the low byte first (40_step_and_primitives.md R143). -/
def State.stackTop (s : State) : Word := s.memPeek (s.sp + 1) ++ s.memPeek s.sp

/-- The bus reads that pop it. -/
def State.stackTopRead (s : State) : List BusAccess :=
  [.read s.sp (s.memPeek s.sp), .read (s.sp + 1) (s.memPeek (s.sp + 1))]

/-- The next step of `s` executes an instruction: no fault is latched, no interrupt is taken, and the core does not
idle (40_step_and_primitives.md R130 branch 3). -/
def State.runsInstr (s : State) : Prop :=
  s.fault = none ∧ (s.ime = true → s.pendingMask = 0) ∧ (s.halted = true → s.pendingMask ≠ 0)

/-- The bytes at `pc` decode to `i` under this machine's `ILLEGAL_OPCODES` (30_encoding.md R90, R91). -/
def State.decodesTo (s : State) (i : Instr) : Prop :=
  ∃ rest, decodeBytesWith s.params.illegalOpcodes [s.memPeek s.pc, s.memPeek (s.pc + 1)] = .ok (i, rest)

/-- The state in which the fetched instruction `i` starts to execute: its opcode bytes are read and `pc` is past them
(40_step_and_primitives.md R130, R140). -/
def State.fetched (s : State) (i : Instr) : State :=
  { s with
    halted := false
    pc := s.pc + BitVec.ofNat 16 i.format.opcodeBytes
    bus := (List.range i.format.opcodeBytes).map fun k =>
      .read (s.pc + BitVec.ofNat 16 k) (s.memPeek (s.pc + BitVec.ofNat 16 k)) }

end Sys2Proof.Machine
end

