-- ==== Sys2Proof/Certificates/Slice0/Obligations.lean ====
section
/-! DEFINITION. The statements for the provers. Every one of them is about every state, also states no run reaches;
where that could make it false, the premise is an invariant of Safety.lean. A statement of an instruction's result is an
equation `exec i s = .next …` or a next state `t` described whole, so it is also the instruction's frame and says that
the instruction completes. `exec` starts after the opcode bytes are fetched (60_exceptions.md R378). -/

open Sys2Proof Sys2Proof.Machine

/-! ### Decoding and encoding -/

/-- The decoder reads back every instruction the encoder writes, whatever bytes follow: no operand bit is dropped. So it
does under every value of the parameter `ILLEGAL_OPCODES` (decision D2) that does not hold the instruction's opcode; that
no value, not even one that holds 0xCB, takes a prefixed instruction out is the model's choice (log 9). -/
def Obligations.DecodeUndoesEncode : Prop :=
  (∀ (i : Instr) (rest : List Byte), i.wf = true → decodeBytes (encode i ++ rest) = .ok (i, rest)) ∧
  (∀ (illegal : List Byte) (i : Instr) (rest : List Byte), i.wf = true →
    (i.format = .cb ∨ ∀ op ∈ encode i, op ∉ illegal) →
    decodeBytesWith illegal (encode i ++ rest) = .ok (i, rest))

/-- What the decoder accepts, under any value of `ILLEGAL_OPCODES`, is an instruction, and its bytes are the ones the
encoder writes: one spelling each. The set is a parameter of the spec (decision D2); that a set which leaves out one of the
11 bytes of R108 gives it no instruction is the model's choice (log 9). -/
def Obligations.EncodeUndoesDecode : Prop :=
  ∀ (illegal bytes rest : List Byte) (i : Instr),
    decodeBytesWith illegal bytes = .ok (i, rest) → i.wf = true ∧ encode i ++ rest = bytes

/-- Every byte matches exactly one row of each table; the base table gives no instruction to 0xCB and the 11 bytes of
R108 (a set the spec takes from general knowledge, D2) and gives one to every other byte; the prefixed table gives one
to every byte (R100, R109). Another value of `ILLEGAL_OPCODES` takes its bytes out of the base table and changes nothing
else: a byte that names no instruction gets none by being left out of the set (log 9). -/
def Obligations.OpcodeTablesPartitionTheBytes : Prop :=
  (∀ op : Byte, (baseTable.filter (·.matches op)).length = 1 ∧ (cbTable.filter (·.matches op)).length = 1) ∧
  (∀ op : Byte, decode op false = none ↔
    op ∈ [0xCB#8, 0xD3#8, 0xDB#8, 0xDD#8, 0xE3#8, 0xE4#8, 0xEB#8, 0xEC#8, 0xED#8, 0xF4#8, 0xFC#8, 0xFD#8]) ∧
  (∀ op : Byte, decode op true ≠ none) ∧
  (∀ (illegal : List Byte) (op : Byte),
    decodeWith illegal op false = (if op ∈ illegal then none else decode op false) ∧
    decodeWith illegal op true = decode op true)

/-- R100 with R96: bits 2-0 select the operand, bits 7-6 the group, bits 5-3 the operation or the bit index. -/
def Obligations.PrefixedOpcodesDecodeByFields : Prop :=
  ∀ y z : Fin 8,
    let operand : Op8 :=
      #v[.reg .b, .reg .c, .reg .d, .reg .e, .reg .h, .reg .l, .memHl, .reg .a][z]
    let shift : Op8 → Instr :=
      #v[.rlcR8, .rrcR8, .rlR8, .rrR8, .slaR8, .sraR8, .swapR8, .srlR8][y]
    decode (BitVec.ofNat 8 (8 * y + z)) true = some (shift operand) ∧
    decode (BitVec.ofNat 8 (64 + 8 * y + z)) true = some (.bitBR8 (BitVec.ofNat 3 y) operand) ∧
    decode (BitVec.ofNat 8 (128 + 8 * y + z)) true = some (.resBR8 (BitVec.ofNat 3 y) operand) ∧
    decode (BitVec.ofNat 8 (192 + 8 * y + z)) true = some (.setBR8 (BitVec.ofNat 3 y) operand)

/-- The base table: the arithmetic and logic group by its fields (R99), the load block with HALT in the place of
LD (HL),(HL) (R103), the pair and condition fields (R97, R98), and every opcode given by exact match (R102). Most of the
values outside the regular groups are marked as general knowledge in the spec. -/
def Obligations.BaseOpcodesDecodeAsTabled : Prop :=
  (∀ y z : Fin 8,
    let operand : Op8 :=
      #v[.reg .b, .reg .c, .reg .d, .reg .e, .reg .h, .reg .l, .memHl, .reg .a][z]
    let alu : Op8 → Instr :=
      #v[.addAR8, .adcAR8, .subR8, .sbcAR8, .andR8, .xorR8, .orR8, .cpR8][y]
    let load : Op8 → Instr :=
      #v[.ldBR8, .ldCR8, .ldDR8, .ldER8, .ldHR8, .ldLR8,
        fun _ => #v[.ldMemHlB, .ldMemHlC, .ldMemHlD, .ldMemHlE, .ldMemHlH, .ldMemHlL, .halt, .ldMemHlA][z],
        .ldAR8][y]
    decode (BitVec.ofNat 8 (128 + 8 * y + z)) false = some (alu operand) ∧
    decode (BitVec.ofNat 8 (64 + 8 * y + z)) false = some (load operand) ∧
    decode (BitVec.ofNat 8 (4 + 8 * z)) false = some (.incR8 operand) ∧
    decode (BitVec.ofNat 8 (5 + 8 * z)) false = some (.decR8 operand) ∧
    decode (BitVec.ofNat 8 (6 + 8 * z)) false = some (.ldR8D8 operand) ∧
    decode (BitVec.ofNat 8 (199 + 8 * y)) false = some (.rstT (BitVec.ofNat 3 y))) ∧
  (∀ p : Fin 4,
    let pair : Pair := #v[.bc, .de, .hl, .sp][p]
    let stackPair : StackPair := #v[.bc, .de, .hl, .af][p]
    let cc : Cond := #v[.nz, .z, .nc, .c][p]
    decode (BitVec.ofNat 8 (1 + 16 * p)) false = some (.ldRrD16 pair) ∧
    decode (BitVec.ofNat 8 (3 + 16 * p)) false = some (.incRr pair) ∧
    decode (BitVec.ofNat 8 (9 + 16 * p)) false = some (.addHlRr pair) ∧
    decode (BitVec.ofNat 8 (11 + 16 * p)) false = some (.decRr pair) ∧
    decode (BitVec.ofNat 8 (193 + 16 * p)) false = some (.popRr stackPair) ∧
    decode (BitVec.ofNat 8 (197 + 16 * p)) false = some (.pushRr stackPair) ∧
    decode (BitVec.ofNat 8 (32 + 8 * p)) false = some (.jrCcE8 cc) ∧
    decode (BitVec.ofNat 8 (192 + 8 * p)) false = some (.retCc cc) ∧
    decode (BitVec.ofNat 8 (194 + 8 * p)) false = some (.jpCcA16 cc) ∧
    decode (BitVec.ofNat 8 (196 + 8 * p)) false = some (.callCcA16 cc)) ∧
  (∀ x ∈ ([ (0x00#8, .nop), (0x08#8, .ldMemA16Sp), (0x10#8, .stop), (0x18#8, .jrE8), (0x02#8, .ldMemBcA),
      (0x12#8, .ldMemDeA), (0x22#8, .ldMemHlIncA), (0x32#8, .ldMemHlDecA), (0x0A#8, .ldAMemBc),
      (0x1A#8, .ldAMemDe), (0x2A#8, .ldAMemHlInc), (0x3A#8, .ldAMemHlDec), (0x07#8, .rlca), (0x0F#8, .rrca),
      (0x17#8, .rla), (0x1F#8, .rra), (0x27#8, .daa), (0x2F#8, .cpl), (0x37#8, .scf), (0x3F#8, .ccf) ] ++
    [ (0x76#8, .halt), (0xE0#8, .ldhMemA8A), (0xE8#8, .addSpE8), (0xF0#8, .ldhAMemA8), (0xF8#8, .ldHlSpE8),
      (0xC9#8, .ret), (0xD9#8, .reti), (0xE9#8, .jpHl), (0xF9#8, .ldSpHl), (0xE2#8, .ldMemCA),
      (0xEA#8, .ldMemA16A), (0xF2#8, .ldAMemC), (0xFA#8, .ldAMemA16), (0xC3#8, .jpA16), (0xF3#8, .di),
      (0xFB#8, .ei), (0xCD#8, .callA16), (0xC6#8, .addAD8), (0xCE#8, .adcAD8), (0xD6#8, .subD8),
      (0xDE#8, .sbcAD8), (0xE6#8, .andD8), (0xEE#8, .xorD8), (0xF6#8, .orD8), (0xFE#8, .cpD8) ] :
      List (Byte × Instr)),
    decode x.1 false = some x.2)

/-! ### Registers, flags, memory, primitives -/

/-- R20: the cells are independent, a write is read back; R24: the views are computed from the cells and a write of a
view is a write of its two cells; R25: a write of AF drops the low nibble of F. -/
def Obligations.RegisterCellsAndPairViews : Prop :=
  ∀ (s : State) (n m : Reg8) (v : Byte) (w : Word),
    (s.setReg n v).reg m = (if m = n then (if n = .f then v &&& 0xF0#8 else v) else s.reg m) ∧
    s.setReg n v = { s with regs := (s.setReg n v).regs } ∧
    s.af.toNat = 256 * (s.reg .a).toNat + (s.reg .f).toNat ∧
    s.bc.toNat = 256 * (s.reg .b).toNat + (s.reg .c).toNat ∧
    s.de.toNat = 256 * (s.reg .d).toNat + (s.reg .e).toNat ∧
    s.hl.toNat = 256 * (s.reg .h).toNat + (s.reg .l).toNat ∧
    s.setBc w = { s with regs := { s.regs with b := w.extractLsb' 8 8, c := w.extractLsb' 0 8 } } ∧
    s.setDe w = { s with regs := { s.regs with d := w.extractLsb' 8 8, e := w.extractLsb' 0 8 } } ∧
    s.setHl w = { s with regs := { s.regs with h := w.extractLsb' 8 8, l := w.extractLsb' 0 8 } } ∧
    s.setAf w = { s with regs := { s.regs with a := w.extractLsb' 8 8, f := w.extractLsb' 0 8 &&& 0xF0#8 } } ∧
    (s.setAf 0x1234#16).af = 0x1230#16

/-- R22: a write of F stores `v & 0xF0`, and bits 3:0 of F are zero in every state a run from reset reaches, for every
choice of the OPEN reset parameters and every move of the environment between steps. -/
def Obligations.LowNibbleOfFIsAlwaysZero : Prop :=
  (∀ (s : State) (v : Byte), (s.setReg .f v).reg .f = v &&& 0xF0#8) ∧
  (∀ (p : ResetParams) (s : State), Reaches (State.resetWith p) s → s.reg .f &&& 0x0F#8 = 0)

/-- R27: the flags codec is a bijection on the four-bit subspace. -/
def Obligations.FlagsCodecRoundTrip : Prop :=
  (∀ f : Flags, Flags.fromByte f.toByte = f ∧ f.toByte = fByte f.z f.n f.h f.c ∧ f.toByte &&& 0x0F#8 = 0) ∧
  (∀ b : Byte, Flags.fromByte b = ⟨b.getLsbD 7, b.getLsbD 6, b.getLsbD 5, b.getLsbD 4⟩ ∧
    (Flags.fromByte b).toByte = b &&& 0xF0#8)

/-- R150 and R152: the 8-bit primitives, as exact sums of numbers; R155: with no carry-in the borrow is `b > a`. -/
def Obligations.EightBitPrimitivesAreExact : Prop :=
  ∀ (a b : Byte) (x : Bool),
    let add := overflowAdd8 a b x
    let sub := subtractWithBorrow8 a b x
    add.sum.toNat + 256 * add.carry.toNat = a.toNat + b.toNat + x.toNat ∧
    (add.halfCarry = true ↔ 15 < a.toNat % 16 + b.toNat % 16 + x.toNat) ∧
    sub.result.toNat + b.toNat + x.toNat = a.toNat + 256 * sub.borrow.toNat ∧
    (sub.borrow = true ↔ a.toNat < b.toNat + x.toNat) ∧
    (sub.halfBorrow = true ↔ a.toNat % 16 < b.toNat % 16 + x.toNat)

/-- R151 and R153: the 16-bit primitives; the half-carry formula is the spec's own (D29). -/
def Obligations.SixteenBitPrimitivesAreExact : Prop :=
  ∀ (a b : Word) (x : Bool),
    let add := overflowAdd16 a b x
    let sub := subtractWithBorrow16 a b x
    add.sum.toNat + 65536 * add.carry.toNat = a.toNat + b.toNat + x.toNat ∧
    (add.halfCarry = true ↔ 4095 < a.toNat % 4096 + b.toNat % 4096 + x.toNat) ∧
    sub.result.toNat + b.toNat + x.toNat = a.toNat + 65536 * sub.borrow.toNat ∧
    (sub.borrow = true ↔ a.toNat < b.toNat + x.toNat) ∧
    (sub.halfBorrow = true ↔ a.toNat % 4096 < b.toNat % 4096 + x.toNat)

/-- The reference memory (R63, a decision of the spec, D17; log 5): a read returns the byte last written, by the core
or by the environment; a read changes nothing but the record of accesses; a write changes only its byte; and the
canonical form of the list is kept. -/
def Obligations.MemoryReadsTheLastWrite : Prop :=
  ∀ (s : State) (a b : Word) (v : Byte),
    (s.poke a v).memPeek b = (if b = a then v else s.memPeek b) ∧
    (s.memWrite a v).memPeek b = (if b = a then v else s.memPeek b) ∧
    s.memWrite a v = { s with mem := (s.memWrite a v).mem, bus := s.bus ++ [.write a v] } ∧
    s.memRead a = (s.memPeek a, { s with bus := s.bus ++ [.read a (s.memPeek a)] }) ∧
    (Memory.wf s.mem → Memory.wf (s.memWrite a v).mem)

/-- R142 and R143: a push decrements `sp` twice and writes high then low; a pop reads low then high and increments `sp`
twice; a pop after a push returns the value and restores `sp`. -/
def Obligations.StackPrimitivesPushAndPop : Prop :=
  ∀ (s : State) (v : Word),
    Pushed s (s.push16 v) v s.pc [] ∧
    s.pop16 = (s.stackTop, { s with sp := s.sp + 2, bus := s.bus ++ s.stackTopRead }) ∧
    (s.push16 v).pop16.1 = v ∧ (s.push16 v).pop16.2.sp = s.sp

/-! ### 8-bit arithmetic and logic -/

/-- R160, R162: ADD A,r8 and ADC A,r8 for every operand, [HL] included. -/
def Obligations.AddAndAdcRegisterForms : Prop :=
  ∀ (r : Op8) (s : State),
    let a := s.regs.a
    let v := s.operand r
    let x := s.flagC.toNat
    decode (0x80#8 + r.code) false = some (.addAR8 r) ∧
    decode (0x88#8 + r.code) false = some (.adcAR8 r) ∧
    exec (.addAR8 r) s = .next { s with
      regs := { s.regs with
        a := a + v
        f := fByte (a + v == 0) false (15 < a.toNat % 16 + v.toNat % 16) (255 < a.toNat + v.toNat) }
      bus := s.bus ++ s.operandRead r } ∧
    exec (.adcAR8 r) s = .next { s with
      regs := { s.regs with
        a := a + v + BitVec.ofNat 8 x
        f := fByte (a + v + BitVec.ofNat 8 x == 0) false (15 < a.toNat % 16 + v.toNat % 16 + x)
          (255 < a.toNat + v.toNat + x) }
      bus := s.bus ++ s.operandRead r }

/-- R164, R166, R174: SUB r8, SBC A,r8 and CP r8 for every operand; CP discards the result. -/
def Obligations.SubSbcAndCpRegisterForms : Prop :=
  ∀ (r : Op8) (s : State),
    let a := s.regs.a
    let v := s.operand r
    let x := s.flagC.toNat
    let subF := fByte (a - v == 0) true (a.toNat % 16 < v.toNat % 16) (a.toNat < v.toNat)
    decode (0x90#8 + r.code) false = some (.subR8 r) ∧
    decode (0x98#8 + r.code) false = some (.sbcAR8 r) ∧
    decode (0xB8#8 + r.code) false = some (.cpR8 r) ∧
    exec (.subR8 r) s = .next { s with
      regs := { s.regs with a := a - v, f := subF }
      bus := s.bus ++ s.operandRead r } ∧
    exec (.sbcAR8 r) s = .next { s with
      regs := { s.regs with
        a := a - v - BitVec.ofNat 8 x
        f := fByte (a - v - BitVec.ofNat 8 x == 0) true (a.toNat % 16 < v.toNat % 16 + x)
          (a.toNat < v.toNat + x) }
      bus := s.bus ++ s.operandRead r } ∧
    exec (.cpR8 r) s = .next { s with
      regs := { s.regs with f := subF }
      bus := s.bus ++ s.operandRead r }

/-- R168, R170, R172: AND, XOR and OR for every operand. -/
def Obligations.AndXorOrRegisterForms : Prop :=
  ∀ (r : Op8) (s : State),
    let a := s.regs.a
    let v := s.operand r
    decode (0xA0#8 + r.code) false = some (.andR8 r) ∧
    decode (0xA8#8 + r.code) false = some (.xorR8 r) ∧
    decode (0xB0#8 + r.code) false = some (.orR8 r) ∧
    exec (.andR8 r) s = .next { s with
      regs := { s.regs with a := a &&& v, f := fByte (a &&& v == 0) false true false }
      bus := s.bus ++ s.operandRead r } ∧
    exec (.xorR8 r) s = .next { s with
      regs := { s.regs with a := a ^^^ v, f := fByte (a ^^^ v == 0) false false false }
      bus := s.bus ++ s.operandRead r } ∧
    exec (.orR8 r) s = .next { s with
      regs := { s.regs with a := a ||| v, f := fByte (a ||| v == 0) false false false }
      bus := s.bus ++ s.operandRead r }

/-- R161, R163, R165, R167, R169, R171, R173, R175: the immediate forms, with `v` the byte at `pc` and `pc` one
further. Their opcode values, which this statement does not speak of, are general knowledge. -/
def Obligations.ImmediateArithmeticForms : Prop :=
  ∀ s : State,
    let a := s.regs.a
    let v := s.imm8
    let x := s.flagC.toNat
    let after (a' f' : Byte) : State :=
      { s with regs := { s.regs with a := a', f := f' }, pc := s.pc + 1, bus := s.bus ++ s.imm8Read }
    let subF := fByte (a - v == 0) true (a.toNat % 16 < v.toNat % 16) (a.toNat < v.toNat)
    exec .addAD8 s = .next (after (a + v)
      (fByte (a + v == 0) false (15 < a.toNat % 16 + v.toNat % 16) (255 < a.toNat + v.toNat))) ∧
    exec .adcAD8 s = .next (after (a + v + BitVec.ofNat 8 x)
      (fByte (a + v + BitVec.ofNat 8 x == 0) false (15 < a.toNat % 16 + v.toNat % 16 + x)
        (255 < a.toNat + v.toNat + x))) ∧
    exec .subD8 s = .next (after (a - v) subF) ∧
    exec .sbcAD8 s = .next (after (a - v - BitVec.ofNat 8 x)
      (fByte (a - v - BitVec.ofNat 8 x == 0) true (a.toNat % 16 < v.toNat % 16 + x) (a.toNat < v.toNat + x))) ∧
    exec .andD8 s = .next (after (a &&& v) (fByte (a &&& v == 0) false true false)) ∧
    exec .xorD8 s = .next (after (a ^^^ v) (fByte (a ^^^ v == 0) false false false)) ∧
    exec .orD8 s = .next (after (a ||| v) (fByte (a ||| v == 0) false false false)) ∧
    exec .cpD8 s = .next (after a subF)

/-- R176, R177: INC r8 and DEC r8 for every operand; the carry flag is kept. -/
def Obligations.IncAndDecOfAByte : Prop :=
  ∀ (r : Op8) (s : State),
    let v := s.operand r
    decode (0x04#8 + 8#8 * r.code) false = some (.incR8 r) ∧
    decode (0x05#8 + 8#8 * r.code) false = some (.decR8 r) ∧
    (∃ t, exec (.incR8 r) s = .next t ∧
      OperandWritten s t r (v + 1) (fByte (v == 0xFF#8) false (v.toNat % 16 == 15) s.flagC) (s.operandRead r)) ∧
    (∃ t, exec (.decR8 r) s = .next t ∧
      OperandWritten s t r (v - 1) (fByte (v == 0x01#8) true (v.toNat % 16 == 0) s.flagC) (s.operandRead r))

/-- R178 to R181: DAA, with the correction as a number to add or subtract; CPL, whose meaning is general knowledge (D10);
SCF and CCF. The flags they do not name are kept, by the spec's default rule for flags (D11). -/
def Obligations.AccumulatorAndFlagOps : Prop :=
  ∀ s : State,
    let a := s.regs.a
    let low := s.flagH || (!s.flagN && decide (9 < a.toNat % 16))
    let high := s.flagC || (!s.flagN && decide (0x99 < a.toNat))
    let fix := BitVec.ofNat 8 (6 * low.toNat + 96 * high.toNat)
    let res := if s.flagN then a - fix else a + fix
    exec .daa s = .next { s with regs := { s.regs with a := res, f := fByte (res == 0) s.flagN false high } } ∧
    exec .cpl s = .next { s with
      regs := { s.regs with a := 0xFF#8 - s.regs.a, f := fByte s.flagZ true true s.flagC } } ∧
    exec .scf s = .next { s with regs := { s.regs with f := s.keepZ false false true } } ∧
    exec .ccf s = .next { s with regs := { s.regs with f := s.keepZ false false (!s.flagC) } }

/-- The property the spec records under R178 (95_test_vectors.md Q3): after ADD or SUB of two-digit BCD bytes, DAA
leaves the BCD of the sum or difference modulo 100, and the carry flag tells whether it left the range. -/
def Obligations.DaaKeepsDecimalArithmetic : Prop :=
  ∀ (s t u : State) (x y : Nat), x < 100 → y < 100 →
    let bcd (n : Nat) : Byte := BitVec.ofNat 8 (16 * (n / 10) + n % 10)
    s.regs.a = bcd x → s.regs.b = bcd y →
    (exec (.addAR8 (.reg .b)) s = .next t → exec .daa t = .next u →
      u.regs.a = bcd ((x + y) % 100) ∧ u.flagC = decide (100 ≤ x + y)) ∧
    (exec (.subR8 (.reg .b)) s = .next t → exec .daa t = .next u →
      u.regs.a = bcd ((100 + x - y) % 100) ∧ u.flagC = decide (x < y))

/-! ### 16-bit arithmetic -/

/-- R200, R201: INC rr and DEC rr wrap and touch no flag. -/
def Obligations.IncAndDecOfAPair : Prop :=
  ∀ (p : Pair) (s : State),
    decode (0x03#8 + 16#8 * p.code) false = some (.incRr p) ∧
    decode (0x0B#8 + 16#8 * p.code) false = some (.decRr p) ∧
    exec (.incRr p) s = .next (s.putPair p (s.pairValue p + 1)) ∧
    exec (.decRr p) s = .next (s.putPair p (s.pairValue p - 1))

/-- R202: ADD HL,rr. Its flags are a decision of the spec (D9): Z kept, H out of bit 11, C out of bit 15. -/
def Obligations.AddPairToHl : Prop :=
  ∀ (p : Pair) (s : State),
    let v := s.pairValue p
    let t := s.putPair .hl (s.hl + v)
    exec (.addHlRr p) s = .next { t with
      regs := { t.regs with
        f := s.keepZ false (4095 < s.hl.toNat % 4096 + v.toNat % 4096) (65535 < s.hl.toNat + v.toNat) } }

/-- R203, R204: SP plus a signed byte, with the flags of the unsigned low-byte addition. -/
def Obligations.StackPointerPlusOffset : Prop :=
  ∀ s : State,
    let b := s.imm8
    let f := fByte false false (15 < s.sp.toNat % 16 + b.toNat % 16) (255 < s.sp.toNat % 256 + b.toNat)
    let res := s.sp + displacement b
    exec .addSpE8 s = .next { s with
      regs := { s.regs with f := f }
      sp := res
      pc := s.pc + 1
      bus := s.bus ++ s.imm8Read } ∧
    exec .ldHlSpE8 s = .next { s with
      regs := { s.regs with h := res.extractLsb' 8 8, l := res.extractLsb' 0 8, f := f }
      pc := s.pc + 1
      bus := s.bus ++ s.imm8Read }

/-! ### Rotates, shifts, bits -/

/-- R220 to R224: the accumulator rotates write A and the carry flag; Z, N and H are kept where the machine's parameter
`ROTA_CLEARS_ZNH` is false, its default and the reading the spec decides (D7), and cleared where it is true. That the
parameter is a field of State is log 15. -/
def Obligations.AccumulatorRotatesByTheParameter : Prop :=
  ∀ s : State,
    let v := s.regs.a.toNat
    let x := s.flagC.toNat
    let after (res : Nat) (cy : Bool) : State :=
      { s with regs := { s.regs with
          a := BitVec.ofNat 8 res
          f := if s.params.rotaClearsZnh then fByte false false false cy else fByte s.flagZ s.flagN s.flagH cy } }
    exec .rlca s = .next (after (2 * v + v / 128) (128 ≤ v)) ∧
    exec .rrca s = .next (after (v / 2 + 128 * (v % 2)) (v % 2 = 1)) ∧
    exec .rla s = .next (after (2 * v + x) (128 ≤ v)) ∧
    exec .rra s = .next (after (v / 2 + 128 * x) (v % 2 = 1))

/-- R235, R236, R237: SRA, SWAP and SRL for every operand, all four flags as the source states them. -/
def Obligations.SraSwapAndSrl : Prop :=
  ∀ (r : Op8) (s : State),
    let v := (s.operand r).toNat
    decode (0x28#8 + r.code) true = some (.sraR8 r) ∧
    decode (0x30#8 + r.code) true = some (.swapR8 r) ∧
    decode (0x38#8 + r.code) true = some (.srlR8 r) ∧
    (∃ t, exec (.sraR8 r) s = .next t ∧
      OperandWritten s t r (BitVec.ofNat 8 (v / 2 + 128 * (v / 128)))
        (fByte (v / 2 + 128 * (v / 128) == 0) false false (v % 2 = 1)) (s.operandRead r)) ∧
    (∃ t, exec (.swapR8 r) s = .next t ∧
      OperandWritten s t r (BitVec.ofNat 8 (16 * (v % 16) + v / 16)) (fByte (v == 0) false false false)
        (s.operandRead r)) ∧
    (∃ t, exec (.srlR8 r) s = .next t ∧
      OperandWritten s t r (BitVec.ofNat 8 (v / 2)) (fByte (v / 2 == 0) false false (v % 2 = 1)) (s.operandRead r))

/-- R230 to R234: RLC, RRC, RL, RR and SLA for every operand; N = 0 and H = 0 rest on a decision of the spec (D8). -/
def Obligations.PrefixedRotatesAndSla : Prop :=
  ∀ (r : Op8) (s : State),
    let v := (s.operand r).toNat
    let x := s.flagC.toNat
    let writes (i : Instr) (res : Nat) (cy : Bool) : Prop :=
      ∃ t, exec i s = .next t ∧
        OperandWritten s t r (BitVec.ofNat 8 res) (fByte (res % 256 == 0) false false cy) (s.operandRead r)
    writes (.rlcR8 r) (2 * v + v / 128) (128 ≤ v) ∧
    writes (.rrcR8 r) (v / 2 + 128 * (v % 2)) (v % 2 = 1) ∧
    writes (.rlR8 r) (2 * v + x) (128 ≤ v) ∧
    writes (.rrR8 r) (v / 2 + 128 * x) (v % 2 = 1) ∧
    writes (.slaR8 r) (2 * v) (128 ≤ v)

/-- R240: BIT b,r8 tests, keeps the carry flag and writes nothing back (D27 for [HL]). -/
def Obligations.BitTestLeavesTheOperand : Prop :=
  ∀ (b : BitVec 3) (r : Op8) (s : State),
    exec (.bitBR8 b r) s = .next { s with
      regs := { s.regs with f := fByte ((s.operand r).toNat / 2 ^ b.toNat % 2 == 0) false true s.flagC }
      bus := s.bus ++ s.operandRead r }

/-- R241, R242: RES and SET clear and set the one bit, write back always, and touch no flag. -/
def Obligations.ResAndSetChangeOneBit : Prop :=
  ∀ (b : BitVec 3) (r : Op8) (s : State),
    let v := s.operand r
    decode (0x80#8 + 8#8 * b.setWidth 8 + r.code) true = some (.resBR8 b r) ∧
    decode (0xC0#8 + 8#8 * b.setWidth 8 + r.code) true = some (.setBR8 b r) ∧
    (∃ t w, exec (.resBR8 b r) s = .next t ∧ OperandWritten s t r w s.regs.f (s.operandRead r) ∧
      ∀ k < 8, w.getLsbD k = (v.getLsbD k && !(k == b.toNat))) ∧
    (∃ t w, exec (.setBR8 b r) s = .next t ∧ OperandWritten s t r w s.regs.f (s.operandRead r) ∧
      ∀ k < 8, w.getLsbD k = (v.getLsbD k || k == b.toNat))

/-! ### Control flow -/

/-- R260 to R264, R272: the jumps; JP HL is general knowledge (D32), the base of JR is a decision (D19); not taken, `pc`
passes over operand bytes that are not read (D18). -/
def Obligations.JumpsAbsoluteAndRelative : Prop :=
  ∀ (cc : Cond) (s : State),
    exec .jpA16 s = .next { s with pc := s.imm16, bus := s.bus ++ s.imm16Read } ∧
    exec .jpHl s = .next { s with pc := s.hl } ∧
    exec .jrE8 s = .next { s with pc := s.pc + 1 + displacement s.imm8, bus := s.bus ++ s.imm8Read } ∧
    exec (.jpCcA16 cc) s = .next (if s.holds cc then { s with pc := s.imm16, bus := s.bus ++ s.imm16Read }
      else { s with pc := s.pc + 2 }) ∧
    exec (.jrCcE8 cc) s = .next (if s.holds cc
      then { s with pc := s.pc + 1 + displacement s.imm8, bus := s.bus ++ s.imm8Read }
      else { s with pc := s.pc + 1 })

/-- R265, R266, R270: calls push the address of the next instruction and go to the target; the address bytes are
fetched first (D26); a call whose condition is false pushes nothing (D18). -/
def Obligations.CallsAndRestarts : Prop :=
  ∀ (cc : Cond) (k : BitVec 3) (s : State),
    (∃ t, exec .callA16 s = .next t ∧ Pushed s t (s.pc + 2) s.imm16 s.imm16Read) ∧
    (s.holds cc = true →
      ∃ t, exec (.callCcA16 cc) s = .next t ∧ Pushed s t (s.pc + 2) s.imm16 s.imm16Read) ∧
    (s.holds cc = false → exec (.callCcA16 cc) s = .next { s with pc := s.pc + 2 }) ∧
    (∃ t, exec (.rstT k) s = .next t ∧ Pushed s t s.pc (BitVec.ofNat 16 (8 * k.toNat)) [])

/-- R267, R268: returns pop `pc`; a return whose condition is false leaves the stack unread. -/
def Obligations.Returns : Prop :=
  ∀ (cc : Cond) (s : State),
    let popped : State := { s with pc := s.stackTop, sp := s.sp + 2, bus := s.bus ++ s.stackTopRead }
    exec .ret s = .next popped ∧
    exec (.retCc cc) s = .next (if s.holds cc then popped else s)

/-- R269: RETI pops `pc` and sets `ime` at once, `ime_pending` untouched; nothing else is restored; the very next step
dispatches a pending interrupt; a commit at the end of its step changes `ime` no more. -/
def Obligations.ReturnFromInterrupt : Prop :=
  ∀ s : State,
    decode 0xD9#8 false = some .reti ∧
    ∃ t, exec .reti s = .next t ∧
      t = { s with pc := s.stackTop, sp := s.sp + 2, ime := true, bus := s.bus ++ s.stackTopRead } ∧
      (s.fault = none → t.pendingMask ≠ 0 →
        ∃ u, step t = .next u ∧ u.ime = false ∧ u.sp = s.sp ∧
          u.pc ∈ [0x40#16, 0x48#16, 0x50#16, 0x58#16, 0x60#16]) ∧
      ∀ p0, (t.commitImePending p0).ime = true

/-- A call followed by a return comes back to the next instruction with `sp` as it was, for the three kinds of call
(R265, R266, R267, R270). -/
def Obligations.CallThenReturnComesBack : Prop :=
  ∀ (i : Instr) (s : State),
    (i = .callA16 ∨ (∃ cc, i = .callCcA16 cc ∧ s.holds cc = true) ∨ ∃ k, i = .rstT k) →
    ∃ t u, exec i s = .next t ∧ exec .ret t = .next u ∧
      u.pc = s.pc + BitVec.ofNat 16 i.format.immBytes ∧ u.sp = s.sp ∧ u.regs = s.regs

/-! ### Loads and the stack -/

/-- R290: the load block. To a register from every operand, to [HL] from every register, no flag; 0x76 is not in it. -/
def Obligations.LoadBlock : Prop :=
  ∀ (r : Op8) (s : State),
    let v := s.operand r
    let loaded (n : Gpr) : State := { s with regs := s.regs.put n v, bus := s.bus ++ s.operandRead r }
    let stored (i : Instr) (w : Byte) : Prop := ∃ t, exec i s = .next t ∧ OperandWritten s t .memHl w s.regs.f []
    exec (.ldBR8 r) s = .next (loaded .b) ∧ exec (.ldCR8 r) s = .next (loaded .c) ∧
    exec (.ldDR8 r) s = .next (loaded .d) ∧ exec (.ldER8 r) s = .next (loaded .e) ∧
    exec (.ldHR8 r) s = .next (loaded .h) ∧ exec (.ldLR8 r) s = .next (loaded .l) ∧
    exec (.ldAR8 r) s = .next (loaded .a) ∧
    stored .ldMemHlB s.regs.b ∧ stored .ldMemHlC s.regs.c ∧ stored .ldMemHlD s.regs.d ∧
    stored .ldMemHlE s.regs.e ∧ stored .ldMemHlH s.regs.h ∧ stored .ldMemHlL s.regs.l ∧
    stored .ldMemHlA s.regs.a ∧
    decode (0x40#8 + r.code) false = some (.ldBR8 r) ∧ decode (0x48#8 + r.code) false = some (.ldCR8 r) ∧
    decode (0x50#8 + r.code) false = some (.ldDR8 r) ∧ decode (0x58#8 + r.code) false = some (.ldER8 r) ∧
    decode (0x60#8 + r.code) false = some (.ldHR8 r) ∧ decode (0x68#8 + r.code) false = some (.ldLR8 r) ∧
    decode (0x78#8 + r.code) false = some (.ldAR8 r) ∧
    decode 0x70#8 false = some .ldMemHlB ∧ decode 0x71#8 false = some .ldMemHlC ∧
    decode 0x72#8 false = some .ldMemHlD ∧ decode 0x73#8 false = some .ldMemHlE ∧
    decode 0x74#8 false = some .ldMemHlH ∧ decode 0x75#8 false = some .ldMemHlL ∧
    decode 0x77#8 false = some .ldMemHlA ∧ decode 0x76#8 false = some .halt

/-- R291, R292, R307, R308: LD r8,d8; LD rr,d16, the byte at the lower address into the low register (D1); LD (a16),SP,
the low byte at `a16` and then the high byte at `a16+1`, wrapping; LD SP,HL. -/
def Obligations.ImmediateLoadsAndStackPointerMoves : Prop :=
  ∀ (r : Op8) (p : Pair) (s : State),
    (∃ t, exec (.ldR8D8 r) s = .next t ∧
      OperandWritten { s with pc := s.pc + 1 } t r s.imm8 s.regs.f s.imm8Read) ∧
    exec (.ldRrD16 p) s =
      .next { s.putPair p s.imm16 with pc := s.pc + 2, bus := s.bus ++ s.imm16Read } ∧
    (∃ t, exec .ldMemA16Sp s = .next t ∧
      t = { s with
            pc := s.pc + 2, mem := t.mem,
            bus := s.bus ++ s.imm16Read ++
              [.write s.imm16 (s.sp.extractLsb' 0 8), .write (s.imm16 + 1) (s.sp.extractLsb' 8 8)] } ∧
      StoresWord s t s.imm16 s.sp) ∧
    exec .ldSpHl s = .next { s with sp := s.hl }

/-- R295, R296, R298, R300, R302, R304, R306: A from memory, in every addressing mode; HL+ and HL- use HL before the
change (D26). -/
def Obligations.LoadAFromMemory : Prop :=
  ∀ s : State,
    let high (b : Byte) : Word := BitVec.ofNat 16 (65280 + b.toNat)
    let loaded (a : Word) (x : State) (reads : List BusAccess) : State :=
      { x with regs := { x.regs with a := s.memPeek a }, bus := s.bus ++ reads ++ [.read a (s.memPeek a)] }
    exec .ldAMemBc s = .next (loaded s.bc s []) ∧
    exec .ldAMemDe s = .next (loaded s.de s []) ∧
    exec .ldAMemHlInc s = .next (loaded s.hl (s.putPair .hl (s.hl + 1)) []) ∧
    exec .ldAMemHlDec s = .next (loaded s.hl (s.putPair .hl (s.hl - 1)) []) ∧
    exec .ldAMemA16 s = .next (loaded s.imm16 { s with pc := s.pc + 2 } s.imm16Read) ∧
    exec .ldhAMemA8 s = .next (loaded (high s.imm8) { s with pc := s.pc + 1 } s.imm8Read) ∧
    exec .ldAMemC s = .next (loaded (high s.regs.c) s [])

/-- R293, R294, R297, R299, R301, R303, R305: A to memory, in every addressing mode; HL+ and HL- use HL before the
change (D26). -/
def Obligations.StoreAToMemory : Prop :=
  ∀ s : State,
    let high (b : Byte) : Word := BitVec.ofNat 16 (65280 + b.toNat)
    let stored (i : Instr) (a : Word) (x : State) (reads : List BusAccess) : Prop :=
      ∃ t, exec i s = .next t ∧
        t = { x with mem := t.mem, bus := s.bus ++ reads ++ [.write a s.regs.a] } ∧ StoresByte s t a s.regs.a
    stored .ldMemBcA s.bc s [] ∧
    stored .ldMemDeA s.de s [] ∧
    stored .ldMemHlIncA s.hl (s.putPair .hl (s.hl + 1)) [] ∧
    stored .ldMemHlDecA s.hl (s.putPair .hl (s.hl - 1)) [] ∧
    stored .ldMemA16A s.imm16 { s with pc := s.pc + 2 } s.imm16Read ∧
    stored .ldhMemA8A (high s.imm8) { s with pc := s.pc + 1 } s.imm8Read ∧
    stored .ldMemCA (high s.regs.c) s []

/-- R330, R331: PUSH and POP for every pair; the code 3 is AF, which is general knowledge (D6), and POP AF masks the low
nibble (D28). -/
def Obligations.PushAndPopOfAPair : Prop :=
  ∀ (p : StackPair) (s : State),
    (∃ t, exec (.pushRr p) s = .next t ∧ Pushed s t (s.stackPairValue p) s.pc []) ∧
    exec (.popRr p) s = .next
      { s.putStackPair p s.stackTop with sp := s.sp + 2, bus := s.bus ++ s.stackTopRead }

/-- PUSH of one pair and POP of another moves the value and restores `sp`; through AF the low nibble is lost (R143,
R331). -/
def Obligations.PushThenPopMovesThePair : Prop :=
  ∀ (p q : StackPair) (s : State),
    ∃ t u, exec (.pushRr p) s = .next t ∧ exec (.popRr q) t = .next u ∧ u.sp = s.sp ∧ u.pc = s.pc ∧
      u.stackPairValue q = (if q = .af then s.stackPairValue p &&& 0xFFF0#16 else s.stackPairValue p)

/-! ### System instructions, the prefix, the bytes without an instruction -/

/-- R340, R343: NOP does nothing, and the step that executes it commits a pending enable; DI clears both interrupt bits
at once, and no commit at the end of its step sets `ime` again. The step clause also covers a halted core that wakes
without a dispatch (decision D13) and commits by the snapshot of R369 (decision D14). -/
def Obligations.NopAndDi : Prop :=
  ∀ (s : State) (p0 : Bool),
    decode 0x00#8 false = some .nop ∧ exec .nop s = .next s ∧
    decode 0xF3#8 false = some .di ∧
    (∃ t, exec .di s = .next t ∧ t = { s with ime := false, imePending := false } ∧ t.commitImePending p0 = t) ∧
    (s.runsInstr → s.decodesTo .nop → step s = .next
      (if s.imePending then { s.fetched .nop with ime := true, imePending := false } else s.fetched .nop))

/-- R341, R342, R344: HALT and STOP set the one latch (STOP is one byte by D12), EI sets the pending bit and not
`ime`. -/
def Obligations.HaltStopAndEi : Prop :=
  ∀ s : State,
    exec .halt s = .next { s with halted := true } ∧
    exec .stop s = .next { s with halted := true } ∧
    exec .ei s = .next { s with imePending := true }

/-- R345: behind the prefix byte one more byte is fetched and decoded as prefixed, and that instruction is what runs.
Prefix and second byte are one step: from `pc` at the prefix it ends past both (or where the instruction goes), and a
pending enable commits once, after the pair. That the prefix row has a meaning under `exec` is the model's choice (log 8);
the step clause rests on the decisions D13 (a halted core that wakes) and D14 (the commit by snapshot), and, for a machine
whose `ILLEGAL_OPCODES` holds 0xCB, on log 9. -/
def Obligations.PrefixRunsItsSecondByte : Prop :=
  decode 0xCB#8 false = none ∧ decode 0xCB#8 true = some (.setBR8 1 (.reg .e)) ∧
  (∀ s : State, ∃ i t, decode s.imm8 true = some i ∧
    exec i { s with pc := s.pc + 1, bus := s.bus ++ s.imm8Read } = .next t ∧ exec .prefixCb s = .next t) ∧
  (∀ s : State, s.runsInstr → s.memPeek s.pc = 0xCB#8 →
    ∃ i t, decode (s.memPeek (s.pc + 1)) true = some i ∧
      exec i { s with
        halted := false
        pc := s.pc + 2
        bus := [.read s.pc 0xCB#8, .read (s.pc + 1) (s.memPeek (s.pc + 1))] } = .next t ∧
      step s = .next (if s.imePending && t.imePending then { t with ime := true, imePending := false } else t))

/-- R346, R360: the meaning of each of the 11 rows without an instruction latches the decode fault and changes nothing
else (the set and the latch are decisions of the spec, D2, D3). R346 puts this effect in the step cycle: that the rows
have a meaning under `exec` at all is the model's choice (log 8), and so is that `exec` does not look at a latch already
set (log 7). -/
def Obligations.IllegalOpcodesLatchTheFault : Prop :=
  ∀ s : State,
    let faulted (op : Byte) : State := { s with fault := some ⟨op, false⟩ }
    exec .illegalD3 s = .next (faulted 0xD3#8) ∧ exec .illegalDB s = .next (faulted 0xDB#8) ∧
    exec .illegalDD s = .next (faulted 0xDD#8) ∧ exec .illegalE3 s = .next (faulted 0xE3#8) ∧
    exec .illegalE4 s = .next (faulted 0xE4#8) ∧ exec .illegalEB s = .next (faulted 0xEB#8) ∧
    exec .illegalEC s = .next (faulted 0xEC#8) ∧ exec .illegalED s = .next (faulted 0xED#8) ∧
    exec .illegalF4 s = .next (faulted 0xF4#8) ∧ exec .illegalFC s = .next (faulted 0xFC#8) ∧
    exec .illegalFD s = .next (faulted 0xFD#8)

/-! ### The step -/

/-- When the bytes at `pc` decode to `i` and the step is one that executes, the step is `exec i` from the fetched
state, then the commit of a pending enable that was set before the fetch (R130, R369; decisions D13, D14). For a
prefixed `i` on a machine whose `ILLEGAL_OPCODES` holds 0xCB this is the model's choice (log 9). -/
def Obligations.StepRunsTheDecodedInstruction : Prop :=
  ∀ (s : State) (i : Instr), s.runsInstr → s.decodesTo i →
    ∃ t, exec i (s.fetched i) = .next t ∧
      step s = .next (if s.imePending && t.imePending then { t with ime := true, imePending := false } else t)

/-- R360, R39: a step that fetches a byte without an instruction, one of the 11 or of this machine's `ILLEGAL_OPCODES`,
latches the fault with `pc` past the byte, commits nothing and changes nothing else; from then on no step exists
(decisions D2, D3; log 7, log 9). A halted core that wakes with `ime` clear fetches in the same step, so `halted` ends
clear (R130, R373, decision D13); R360 itself changes it no more. -/
def Obligations.DecodeFaultStopsTheCore : Prop :=
  ∀ s : State, s.runsInstr →
    let op := s.memPeek s.pc
    (op ∈ [0xD3#8, 0xDB#8, 0xDD#8, 0xE3#8, 0xE4#8, 0xEB#8, 0xEC#8, 0xED#8, 0xF4#8, 0xFC#8, 0xFD#8] ∨
      op ≠ 0xCB#8 ∧ op ∈ s.params.illegalOpcodes) →
    ∃ t, step s = .next t ∧
      t = { s with halted := false, pc := s.pc + 1, fault := some ⟨op, false⟩, bus := [.read s.pc op] } ∧
      ∀ (m : EnvMove), step (t.envMove m) = .fault (.decodeFault op false)

/-- R12, R131, R361: a step of a core without a latched fault always ends in a next state, and so does every meaning;
the latched fault is the one thing that stops it. That the prefix row and the 11 illegal rows have a meaning is the
model's choice (log 8); that `exec` runs on a faulted state and that `step` answers a fault there are its choices too
(log 7). -/
def Obligations.OnlyTheDecodeFaultStopsAStep : Prop :=
  (∀ (i : Instr) (s : State), ∃ t, exec i s = .next t) ∧
  (∀ s : State, s.fault = none → ∃ t, step s = .next t) ∧
  (∀ (s : State) (d : DecodeFault), s.fault = some d → step s = .fault (.decodeFault d.op d.prefixed))

/-- R105 with R31, R272: an instruction that takes no jump leaves `pc` past its immediate bytes, whether it read them
or not; the table below is R90's. -/
def Obligations.PcPassesTheWholeInstruction : Prop :=
  ∀ (i : Instr) (s t : State), i.wf = true → exec i s = .next t →
    (match i with
      | .jrE8 | .jpHl | .jpA16 | .callA16 | .ret | .reti | .rstT _ => False
      | .jrCcE8 cc | .jpCcA16 cc | .callCcA16 cc | .retCc cc => s.holds cc = false
      | _ => True) →
    t.pc = s.pc + BitVec.ofNat 16 i.format.immBytes ∧ (encode i).length = i.format.opcodeBytes

/-- R362, R363, R366, R367: the dispatch, whole, for the pending source of least bit `k`. That dispatch leaves
`ime_pending` and acknowledges by a read-modify-write are decisions of the spec (D15, D24). -/
def Obligations.InterruptDispatch : Prop :=
  ∀ (s : State) (k : Nat), s.fault = none → s.ime = true → k < 5 →
    let requested := s.memPeek 0xFF0F#16
    let enabled := s.memPeek 0xFFFF#16
    (requested.getLsbD k && enabled.getLsbD k) = true →
    (∀ j < k, (requested.getLsbD j && enabled.getLsbD j) = false) →
    ∃ t acked, step s = .next t ∧
      (∀ j < 8, acked.getLsbD j = (requested.getLsbD j && !(j == k))) ∧
      t = { s with
            ime := false, halted := false, sp := s.sp - 2, pc := BitVec.ofNat 16 (0x40 + 8 * k), mem := t.mem,
            bus := [.read 0xFF0F#16 requested, .write 0xFF0F#16 acked,
              .write (s.sp - 1) (s.pc.extractLsb' 8 8), .write (s.sp - 2) (s.pc.extractLsb' 0 8)] } ∧
      ∀ a, t.memPeek a =
        if a = s.sp - 2 then s.pc.extractLsb' 0 8
        else if a = s.sp - 1 then s.pc.extractLsb' 8 8
        else if a = 0xFF0F#16 then acked
        else s.memPeek a

/-- R365: only the lowest set bit is serviced, and its vector is where control goes; the others stay pending and wait
(unless the dispatch itself pushes onto IF or IE), `ime` being 0; the interrupt wins over the instruction at `pc`, which
cannot fault, and over the halted state. That the dispatch leaves `ime_pending` is a decision of the spec (D15). -/
def Obligations.LowestPendingBitIsServiced : Prop :=
  ∀ s : State, s.fault = none → s.ime = true → s.pendingMask ≠ 0 →
    ∃ (t : State) (k : Nat), step s = .next t ∧ k < 5 ∧ s.pendingMask.getLsbD k = true ∧
      (∀ j < k, s.pendingMask.getLsbD j = false) ∧
      t.pc = BitVec.ofNat 16 (0x40 + 8 * k) ∧ t.ime = false ∧ t.halted = false ∧ t.fault = none ∧
      t.imePending = s.imePending ∧
      ((∀ a ∈ [s.sp - 1, s.sp - 2], a ≠ 0xFF0F#16 ∧ a ≠ 0xFFFF#16) →
        ∀ j, t.pendingMask.getLsbD j = (s.pendingMask.getLsbD j && !(j == k)))

/-- R372: while halted with nothing pending, every number of steps changes nothing (but the record of the last step's
accesses, which is the model's own and empty, log 6); a move of the environment that makes an interrupt pending resumes
the core, with `ime` clear in the very next step by decision D13 (R373). -/
def Obligations.HaltedCoreIdles : Prop :=
  ∀ (s : State) (n : Nat), s.fault = none → s.halted = true → s.pendingMask = 0 →
    stepN (n + 1) s = .next { s with bus := [] } ∧
    ∀ m : EnvMove, (s.envMove m).pendingMask ≠ 0 → ∃ t, step (s.envMove m) = .next t ∧ t.bus ≠ []

/-- R373: with `ime` clear a pending interrupt ends the halted state in the same step that executes the next
instruction, and nothing is acknowledged (decision D13). -/
def Obligations.WakeUpWithoutDispatch : Prop :=
  ∀ s : State, s.fault = none → s.halted = true → s.ime = false → s.pendingMask ≠ 0 →
    step s = step { s with halted := false } ∧
    (s.decodesTo .nop → ∃ t, step s = .next t ∧ t.halted = false ∧ t.pc = s.pc + 1 ∧ t.mem = s.mem)

/-- R36, R37, R343, R344, R269, R369: what a step that executes an instruction leaves in `ime` and `ime_pending`. An EI
takes effect at the end of the instruction after it, unless that is DI; an EI in that place commits too; RETI sets `ime`
at once (the snapshot that gives the latency is a decision, D14). A halted core that wakes with `ime` clear executes `i`
in the same step (R130, R373, decision D13). A machine whose `ILLEGAL_OPCODES` holds 0xCB still runs prefixed
instructions, by the model's choice (log 9). -/
def Obligations.EnableTakesEffectOneInstructionLate : Prop :=
  ∀ (s : State) (i : Instr), s.runsInstr → s.decodesTo i →
    ∃ t, step s = .next t ∧
      (t.ime, t.imePending) =
        (if i = .di then (false, false)
        else if s.imePending then (true, false)
        else if i = .reti then (true, false)
        else (s.ime, decide (i = .ei)))

/-- R36 to R39, R34: who writes the control bits and `sp`. Only DI and RETI write `ime`, only EI and DI write
`ime_pending`, only HALT and STOP set `halted`, only a row without an instruction sets the fault, and `sp` changes only
in the instructions R34 lists. -/
def Obligations.WhoWritesControlBitsAndSp : Prop :=
  ∀ (i : Instr) (s t : State), exec i s = .next t →
    (t.ime ≠ s.ime → i = .di ∨ i = .reti) ∧
    (t.imePending ≠ s.imePending → i = .ei ∨ i = .di) ∧
    (t.halted ≠ s.halted → i = .halt ∨ i = .stop) ∧
    (t.fault ≠ s.fault → i.format = .illegal) ∧
    (t.sp ≠ s.sp → i ∈ [.addSpE8, .ldSpHl, .callA16, .ret, .reti, .ldRrD16 .sp, .incRr .sp, .decRr .sp] ∨
      (∃ p, i = .pushRr p ∨ i = .popRr p) ∨ (∃ cc, i = .callCcA16 cc ∨ i = .retCc cc) ∨ ∃ k, i = .rstT k)

/-- The last row of R28's summary and R29: an instruction outside the listed ones leaves every flag; F changes only in
8-bit arithmetic, ADD HL, SP plus offset, rotates, shifts, BIT and POP AF. -/
def Obligations.FlagsChangeOnlyWhereListed : Prop :=
  ∀ (i : Instr) (s t : State), exec i s = .next t → t.regs.f ≠ s.regs.f →
    i ∈ [.addAD8, .adcAD8, .subD8, .sbcAD8, .andD8, .xorD8, .orD8, .cpD8, .daa, .cpl, .scf, .ccf, .addSpE8, .ldHlSpE8,
      .rlca, .rrca, .rla, .rra, .popRr .af, .prefixCb] ∨
    (∃ p, i = .addHlRr p) ∨ (∃ b r, i = .bitBR8 b r) ∨
    ∃ r, i ∈ [.addAR8 r, .adcAR8 r, .subR8 r, .sbcAR8 r, .andR8 r, .xorR8 r, .orR8 r, .cpR8 r, .incR8 r, .decR8 r,
      .rlcR8 r, .rrcR8 r, .rlR8 r, .rrR8 r, .slaR8 r, .sraR8 r, .swapR8 r, .srlR8 r]

/-! ### Reset and invariants -/

/-- R43, R400, R401: the values the spec gives for reset, for every choice of the parameters (decision D16), and
`State.reset`: the values the model's log chooses for the OPEN ones (log 1 to 4), the parameters of the core at the
spec's defaults (R5, D2, D7; log 15). -/
def Obligations.ResetValues : Prop :=
  (∀ p : ResetParams,
    let s := State.resetWith p
    s.sp = 0xFFFE#16 ∧ s.imePending = false ∧ s.halted = false ∧ s.fault = none ∧ s.regs.f &&& 0x0F#8 = 0 ∧
    s.pc = p.pc ∧ s.ime = p.ime ∧ s.mem = p.mem ∧ s.bus = [] ∧ s.params = p.core) ∧
  State.reset = { regs := ⟨0, 0, 0, 0, 0, 0, 0, 0⟩, pc := 0, sp := 0xFFFE#16, ime := false, imePending := false,
                  halted := false, fault := none, mem := [], bus := [],
                  params := { rotaClearsZnh := false, illegalOpcodes :=
                    [0xD3#8, 0xDB#8, 0xDD#8, 0xE3#8, 0xE4#8, 0xEB#8, 0xEC#8, 0xED#8, 0xF4#8, 0xFC#8, 0xFD#8] } }

/-- The state after reset meets the invariant, for every choice of the OPEN parameters whose memory is in canonical
form. -/
def Obligations.ResetMeetsTheInvariant : Prop :=
  State.reset.Inv ∧ ∀ p : ResetParams, Memory.wf p.mem → (State.resetWith p).Inv

/-- Every step keeps the invariant: canonical memory, the low nibble of F zero (R22), a latched fault that names a
byte without an instruction (R360), this machine's `ILLEGAL_OPCODES` among them. Which bytes these are under a set other
than the default is log 9. -/
def Obligations.StepKeepsTheInvariant : Prop :=
  ∀ s t : State, s.Inv → step s = .next t → t.Inv

/-- Every state a run reaches, with any moves of the environment between its steps, meets the invariant (R10, R79;
log 9 as for the step). -/
def Obligations.ReachedStatesMeetTheInvariant : Prop :=
  ∀ s t : State, s.Inv → Reaches s t → t.Inv

/-- R74: the bus accesses of a step, performed one after the other on the memory the step began with, read exactly the
bytes the step read and leave exactly the memory the step left. -/
def Obligations.StepIsItsBusAccessesInOrder : Prop :=
  ∀ s t : State, step s = .next t → replayBus s.mem t.bus = some t.mem

/-- R23, R375: the host's and the environment's moves between steps: a setter sets one bit of IF or IE and nothing else,
a register write obeys the masking of F and leaves the other cells, and no move clears a fault or touches `ime`,
`ime_pending` or `halted`. -/
def Obligations.EnvironmentMovesBetweenSteps : Prop :=
  ∀ (s : State) (k : Irq) (n : Reg8) (v : Byte) (a w : Word),
    StoresByte s (s.envMove (.request k)) 0xFF0F#16 (s.memPeek 0xFF0F#16 ||| BitVec.ofNat 8 (2 ^ Irq.bit k)) ∧
    StoresByte s (s.envMove (.enable k)) 0xFFFF#16 (s.memPeek 0xFFFF#16 ||| BitVec.ofNat 8 (2 ^ Irq.bit k)) ∧
    StoresByte s (s.envMove (.write a v)) a v ∧
    (s.envMove (.setReg n v)).reg n = (if n = .f then v &&& 0xF0#8 else v) ∧
    (∀ j, j ≠ n → (s.envMove (.setReg n v)).reg j = s.reg j) ∧
    s.envMove (.setReg n v) = { s with regs := (s.envMove (.setReg n v)).regs } ∧
    s.envMove (.setPc w) = { s with pc := w } ∧ s.envMove (.setSp w) = { s with sp := w } ∧
    s.envMove (.request k) = { s with mem := (s.envMove (.request k)).mem } ∧
    s.envMove (.enable k) = { s with mem := (s.envMove (.enable k)).mem } ∧
    s.envMove (.write a v) = { s with mem := (s.envMove (.write a v)).mem }

/-- R5, R11: the parameters `ILLEGAL_OPCODES` and `ROTA_CLEARS_ZNH` are no state of the spec. Nothing writes them, so a
run keeps the values it began with; that they are a field of State is the model's choice (log 15). -/
def Obligations.NothingWritesTheParameters : Prop :=
  (∀ (i : Instr) (s t : State), exec i s = .next t → t.params = s.params) ∧
  (∀ s t : State, Reaches s t → t.params = s.params)
end

