-- ==== Sys2Proof/Laws/Memory.lean ====
section
/-! SUPPORT. The laws of the bytes behind the bus: a read after a write, every other address untouched, and the
canonical form kept (20_memory.md R63). They hold of every list, canonical or not, but for the last group. -/

namespace Sys2Proof.Machine

theorem Memory.read_erase_same (m : Memory) (a : Nat) : Memory.read (Memory.erase m a) a = Memory.unlisted := by
  induction m with
  | nil => rfl
  | cons x rest ih =>
    obtain ⟨k, v⟩ := x
    by_cases h : k = a <;> simp [Memory.erase, Memory.read, h, ih]

theorem Memory.read_erase_other (m : Memory) {a b : Nat} (hb : b ≠ a) :
    Memory.read (Memory.erase m a) b = Memory.read m b := by
  induction m with
  | nil => rfl
  | cons x rest ih =>
    obtain ⟨k, v⟩ := x
    by_cases h : k = a
    · have hk : k ≠ b := fun e => hb (e.symm.trans h)
      simp only [Memory.erase, Memory.read, if_pos h, if_neg hk, ih]
    · simp only [Memory.erase, Memory.read, if_neg h, ih]

theorem Memory.read_insert_same (m : Memory) (a : Nat) (v : Byte) : Memory.read (Memory.insert m a v) a = v := by
  induction m with
  | nil => simp [Memory.insert, Memory.read]
  | cons x rest ih =>
    obtain ⟨k, w⟩ := x
    by_cases h1 : a < k
    · simp [Memory.insert, Memory.read, h1]
    · by_cases h2 : a = k
      · simp [Memory.insert, Memory.read, h2]
      · simp [Memory.insert, Memory.read, h1, h2, Ne.symm h2, ih]

theorem Memory.read_insert_other (m : Memory) {a b : Nat} (v : Byte) (hb : b ≠ a) :
    Memory.read (Memory.insert m a v) b = Memory.read m b := by
  induction m with
  | nil => simp [Memory.insert, Memory.read, hb.symm]
  | cons x rest ih =>
    obtain ⟨k, w⟩ := x
    by_cases h1 : a < k
    · simp [Memory.insert, Memory.read, h1, hb.symm]
    · by_cases h2 : a = k
      · subst h2
        simp [Memory.insert, Memory.read, hb.symm]
      · simp only [Memory.insert, Memory.read, if_neg h1, if_neg h2, ih]

theorem Memory.read_write_same (m : Memory) (a : Nat) (v : Byte) : Memory.read (m.write a v) a = v := by
  unfold Memory.write
  split
  · rename_i h
    rw [Memory.read_erase_same, h]
  · exact Memory.read_insert_same m a v

theorem Memory.read_write_other (m : Memory) {a b : Nat} (v : Byte) (hb : b ≠ a) :
    Memory.read (m.write a v) b = Memory.read m b := by
  unfold Memory.write
  split
  · exact Memory.read_erase_other m hb
  · exact Memory.read_insert_other m v hb

/-! ### The canonical form -/

theorem Memory.mem_erase {m : Memory} {a : Nat} {x : Host.Cell} (h : x ∈ Memory.erase m a) : x ∈ m := by
  induction m with
  | nil => exact h
  | cons y rest ih =>
    obtain ⟨k, v⟩ := y
    unfold Memory.erase at h
    split at h
    · exact List.mem_cons_of_mem _ (ih h)
    · rcases List.mem_cons.mp h with h | h
      · exact h ▸ List.mem_cons_self
      · exact List.mem_cons_of_mem _ (ih h)

theorem Memory.mem_insert {m : Memory} {a : Nat} {v : Byte} {x : Host.Cell} (h : x ∈ Memory.insert m a v) :
    x = (a, v) ∨ x ∈ m := by
  induction m with
  | nil => exact .inl (by simpa [Memory.insert] using h)
  | cons y rest ih =>
    obtain ⟨k, w⟩ := y
    unfold Memory.insert at h
    split at h
    · exact List.mem_cons.mp h
    · split at h
      · rcases List.mem_cons.mp h with h | h
        · exact .inl h
        · exact .inr (List.mem_cons_of_mem _ h)
      · rcases List.mem_cons.mp h with h | h
        · exact .inr (h ▸ List.mem_cons_self)
        · exact (ih h).imp id (List.mem_cons_of_mem _)

theorem Memory.wf_erase {m : Memory} (h : Memory.wf m) (a : Nat) : Memory.wf (Memory.erase m a) := by
  refine ⟨?_, fun x hx => h.2 x (Memory.mem_erase hx)⟩
  have hp := h.1
  clear h
  induction m with
  | nil => exact List.Pairwise.nil
  | cons y rest ih =>
    obtain ⟨k, v⟩ := y
    rw [List.pairwise_cons] at hp
    unfold Memory.erase
    split
    · exact ih hp.2
    · exact List.pairwise_cons.mpr ⟨fun x hx => hp.1 x (Memory.mem_erase hx), ih hp.2⟩

theorem Memory.wf_insert {m : Memory} (h : Memory.wf m) {a : Nat} {v : Byte} (ha : a < 65536)
    (hv : v ≠ Memory.unlisted) : Memory.wf (Memory.insert m a v) := by
  refine ⟨?_, fun x hx => (Memory.mem_insert hx).elim (fun e => e ▸ ⟨ha, hv⟩) (h.2 x)⟩
  have hp := h.1
  clear h
  induction m with
  | nil => exact List.pairwise_singleton _ _
  | cons y rest ih =>
    obtain ⟨k, w⟩ := y
    rw [List.pairwise_cons] at hp
    unfold Memory.insert
    split
    · rename_i hk
      refine List.pairwise_cons.mpr ⟨fun x hx => ?_, List.pairwise_cons.mpr hp⟩
      rcases List.mem_cons.mp hx with rfl | hx
      · exact hk
      · exact lt_trans hk (hp.1 x hx)
    · split
      · rename_i hk
        exact List.pairwise_cons.mpr ⟨fun x hx => by have := hp.1 x hx; simp_all, hp.2⟩
      · rename_i h1 h2
        refine List.pairwise_cons.mpr ⟨fun x hx => ?_, ih hp.2⟩
        rcases Memory.mem_insert hx with rfl | hx
        · exact lt_of_le_of_ne (not_lt.mp h1) (Ne.symm h2)
        · exact hp.1 x hx

/-- A write keeps the canonical form. -/
theorem Memory.wf_write {m : Memory} (h : Memory.wf m) {a : Nat} (v : Byte) (ha : a < 65536) :
    Memory.wf (m.write a v) := by
  unfold Memory.write
  split
  · exact Memory.wf_erase h a
  · exact Memory.wf_insert h ha ‹_›

theorem Memory.wf_nil : Memory.wf [] := ⟨List.Pairwise.nil, fun _ h => absurd h List.not_mem_nil⟩

end Sys2Proof.Machine
end

