-- ==== Sys2Proof/Laws/State.lean ====
section
/-! SUPPORT. One lemma per field per update of the state, so that no later proof unfolds a record update. -/

namespace Sys2Proof.Machine

@[simp] theorem State.setRegs_regs (s : State) (r : Regs) : (s.setRegs r).regs = r := rfl
@[simp] theorem State.setRegs_pc (s : State) (r : Regs) : (s.setRegs r).pc = s.pc := rfl
@[simp] theorem State.setRegs_sp (s : State) (r : Regs) : (s.setRegs r).sp = s.sp := rfl
@[simp] theorem State.setRegs_ime (s : State) (r : Regs) : (s.setRegs r).ime = s.ime := rfl
@[simp] theorem State.setRegs_imePending (s : State) (r : Regs) : (s.setRegs r).imePending = s.imePending := rfl
@[simp] theorem State.setRegs_halted (s : State) (r : Regs) : (s.setRegs r).halted = s.halted := rfl
@[simp] theorem State.setRegs_fault (s : State) (r : Regs) : (s.setRegs r).fault = s.fault := rfl
@[simp] theorem State.setRegs_mem (s : State) (r : Regs) : (s.setRegs r).mem = s.mem := rfl
@[simp] theorem State.setRegs_bus (s : State) (r : Regs) : (s.setRegs r).bus = s.bus := rfl
@[simp] theorem State.setRegs_params (s : State) (r : Regs) :
    (s.setRegs r).params = s.params := rfl

@[simp] theorem State.setPc_regs (s : State) (w : Word) : (s.setPc w).regs = s.regs := rfl
@[simp] theorem State.setPc_pc (s : State) (w : Word) : (s.setPc w).pc = w := rfl
@[simp] theorem State.setPc_sp (s : State) (w : Word) : (s.setPc w).sp = s.sp := rfl
@[simp] theorem State.setPc_ime (s : State) (w : Word) : (s.setPc w).ime = s.ime := rfl
@[simp] theorem State.setPc_imePending (s : State) (w : Word) : (s.setPc w).imePending = s.imePending := rfl
@[simp] theorem State.setPc_halted (s : State) (w : Word) : (s.setPc w).halted = s.halted := rfl
@[simp] theorem State.setPc_fault (s : State) (w : Word) : (s.setPc w).fault = s.fault := rfl
@[simp] theorem State.setPc_mem (s : State) (w : Word) : (s.setPc w).mem = s.mem := rfl
@[simp] theorem State.setPc_bus (s : State) (w : Word) : (s.setPc w).bus = s.bus := rfl
@[simp] theorem State.setPc_params (s : State) (w : Word) :
    (s.setPc w).params = s.params := rfl

@[simp] theorem State.setSp_regs (s : State) (w : Word) : (s.setSp w).regs = s.regs := rfl
@[simp] theorem State.setSp_pc (s : State) (w : Word) : (s.setSp w).pc = s.pc := rfl
@[simp] theorem State.setSp_sp (s : State) (w : Word) : (s.setSp w).sp = w := rfl
@[simp] theorem State.setSp_ime (s : State) (w : Word) : (s.setSp w).ime = s.ime := rfl
@[simp] theorem State.setSp_imePending (s : State) (w : Word) : (s.setSp w).imePending = s.imePending := rfl
@[simp] theorem State.setSp_halted (s : State) (w : Word) : (s.setSp w).halted = s.halted := rfl
@[simp] theorem State.setSp_fault (s : State) (w : Word) : (s.setSp w).fault = s.fault := rfl
@[simp] theorem State.setSp_mem (s : State) (w : Word) : (s.setSp w).mem = s.mem := rfl
@[simp] theorem State.setSp_bus (s : State) (w : Word) : (s.setSp w).bus = s.bus := rfl
@[simp] theorem State.setSp_params (s : State) (w : Word) :
    (s.setSp w).params = s.params := rfl

@[simp] theorem State.setIme_regs (s : State) (x : Bool) : (s.setIme x).regs = s.regs := rfl
@[simp] theorem State.setIme_pc (s : State) (x : Bool) : (s.setIme x).pc = s.pc := rfl
@[simp] theorem State.setIme_sp (s : State) (x : Bool) : (s.setIme x).sp = s.sp := rfl
@[simp] theorem State.setIme_ime (s : State) (x : Bool) : (s.setIme x).ime = x := rfl
@[simp] theorem State.setIme_imePending (s : State) (x : Bool) : (s.setIme x).imePending = s.imePending := rfl
@[simp] theorem State.setIme_halted (s : State) (x : Bool) : (s.setIme x).halted = s.halted := rfl
@[simp] theorem State.setIme_fault (s : State) (x : Bool) : (s.setIme x).fault = s.fault := rfl
@[simp] theorem State.setIme_mem (s : State) (x : Bool) : (s.setIme x).mem = s.mem := rfl
@[simp] theorem State.setIme_bus (s : State) (x : Bool) : (s.setIme x).bus = s.bus := rfl
@[simp] theorem State.setIme_params (s : State) (x : Bool) :
    (s.setIme x).params = s.params := rfl

@[simp] theorem State.setImePending_regs (s : State) (x : Bool) : (s.setImePending x).regs = s.regs := rfl
@[simp] theorem State.setImePending_pc (s : State) (x : Bool) : (s.setImePending x).pc = s.pc := rfl
@[simp] theorem State.setImePending_sp (s : State) (x : Bool) : (s.setImePending x).sp = s.sp := rfl
@[simp] theorem State.setImePending_ime (s : State) (x : Bool) : (s.setImePending x).ime = s.ime := rfl
@[simp] theorem State.setImePending_imePending (s : State) (x : Bool) : (s.setImePending x).imePending = x := rfl
@[simp] theorem State.setImePending_halted (s : State) (x : Bool) : (s.setImePending x).halted = s.halted := rfl
@[simp] theorem State.setImePending_fault (s : State) (x : Bool) : (s.setImePending x).fault = s.fault := rfl
@[simp] theorem State.setImePending_mem (s : State) (x : Bool) : (s.setImePending x).mem = s.mem := rfl
@[simp] theorem State.setImePending_bus (s : State) (x : Bool) : (s.setImePending x).bus = s.bus := rfl
@[simp] theorem State.setImePending_params (s : State) (x : Bool) :
    (s.setImePending x).params = s.params := rfl

@[simp] theorem State.setHalted_regs (s : State) (x : Bool) : (s.setHalted x).regs = s.regs := rfl
@[simp] theorem State.setHalted_pc (s : State) (x : Bool) : (s.setHalted x).pc = s.pc := rfl
@[simp] theorem State.setHalted_sp (s : State) (x : Bool) : (s.setHalted x).sp = s.sp := rfl
@[simp] theorem State.setHalted_ime (s : State) (x : Bool) : (s.setHalted x).ime = s.ime := rfl
@[simp] theorem State.setHalted_imePending (s : State) (x : Bool) : (s.setHalted x).imePending = s.imePending := rfl
@[simp] theorem State.setHalted_halted (s : State) (x : Bool) : (s.setHalted x).halted = x := rfl
@[simp] theorem State.setHalted_fault (s : State) (x : Bool) : (s.setHalted x).fault = s.fault := rfl
@[simp] theorem State.setHalted_mem (s : State) (x : Bool) : (s.setHalted x).mem = s.mem := rfl
@[simp] theorem State.setHalted_bus (s : State) (x : Bool) : (s.setHalted x).bus = s.bus := rfl
@[simp] theorem State.setHalted_params (s : State) (x : Bool) :
    (s.setHalted x).params = s.params := rfl

@[simp] theorem State.setFault_regs (s : State) (x : Option DecodeFault) : (s.setFault x).regs = s.regs := rfl
@[simp] theorem State.setFault_pc (s : State) (x : Option DecodeFault) : (s.setFault x).pc = s.pc := rfl
@[simp] theorem State.setFault_sp (s : State) (x : Option DecodeFault) : (s.setFault x).sp = s.sp := rfl
@[simp] theorem State.setFault_ime (s : State) (x : Option DecodeFault) : (s.setFault x).ime = s.ime := rfl
@[simp] theorem State.setFault_imePending (s : State) (x : Option DecodeFault) : (s.setFault x).imePending = s.imePending := rfl
@[simp] theorem State.setFault_halted (s : State) (x : Option DecodeFault) : (s.setFault x).halted = s.halted := rfl
@[simp] theorem State.setFault_fault (s : State) (x : Option DecodeFault) : (s.setFault x).fault = x := rfl
@[simp] theorem State.setFault_mem (s : State) (x : Option DecodeFault) : (s.setFault x).mem = s.mem := rfl
@[simp] theorem State.setFault_bus (s : State) (x : Option DecodeFault) : (s.setFault x).bus = s.bus := rfl
@[simp] theorem State.setFault_params (s : State) (x : Option DecodeFault) :
    (s.setFault x).params = s.params := rfl

@[simp] theorem State.poke_regs (s : State) (a : Word) (v : Byte) : (s.poke a v).regs = s.regs := rfl
@[simp] theorem State.poke_pc (s : State) (a : Word) (v : Byte) : (s.poke a v).pc = s.pc := rfl
@[simp] theorem State.poke_sp (s : State) (a : Word) (v : Byte) : (s.poke a v).sp = s.sp := rfl
@[simp] theorem State.poke_ime (s : State) (a : Word) (v : Byte) : (s.poke a v).ime = s.ime := rfl
@[simp] theorem State.poke_imePending (s : State) (a : Word) (v : Byte) : (s.poke a v).imePending = s.imePending := rfl
@[simp] theorem State.poke_halted (s : State) (a : Word) (v : Byte) : (s.poke a v).halted = s.halted := rfl
@[simp] theorem State.poke_fault (s : State) (a : Word) (v : Byte) : (s.poke a v).fault = s.fault := rfl
@[simp] theorem State.poke_mem (s : State) (a : Word) (v : Byte) : (s.poke a v).mem = s.mem.write a.toNat v := rfl
@[simp] theorem State.poke_bus (s : State) (a : Word) (v : Byte) : (s.poke a v).bus = s.bus := rfl
@[simp] theorem State.poke_params (s : State) (a : Word) (v : Byte) :
    (s.poke a v).params = s.params := rfl

@[simp] theorem State.record_regs (s : State) (x : BusAccess) : (s.record x).regs = s.regs := rfl
@[simp] theorem State.record_pc (s : State) (x : BusAccess) : (s.record x).pc = s.pc := rfl
@[simp] theorem State.record_sp (s : State) (x : BusAccess) : (s.record x).sp = s.sp := rfl
@[simp] theorem State.record_ime (s : State) (x : BusAccess) : (s.record x).ime = s.ime := rfl
@[simp] theorem State.record_imePending (s : State) (x : BusAccess) : (s.record x).imePending = s.imePending := rfl
@[simp] theorem State.record_halted (s : State) (x : BusAccess) : (s.record x).halted = s.halted := rfl
@[simp] theorem State.record_fault (s : State) (x : BusAccess) : (s.record x).fault = s.fault := rfl
@[simp] theorem State.record_mem (s : State) (x : BusAccess) : (s.record x).mem = s.mem := rfl
@[simp] theorem State.record_bus (s : State) (x : BusAccess) : (s.record x).bus = s.bus ++ [x] := rfl
@[simp] theorem State.record_params (s : State) (x : BusAccess) :
    (s.record x).params = s.params := rfl

@[simp] theorem State.clearBus_regs (s : State) : (s.clearBus).regs = s.regs := rfl
@[simp] theorem State.clearBus_pc (s : State) : (s.clearBus).pc = s.pc := rfl
@[simp] theorem State.clearBus_sp (s : State) : (s.clearBus).sp = s.sp := rfl
@[simp] theorem State.clearBus_ime (s : State) : (s.clearBus).ime = s.ime := rfl
@[simp] theorem State.clearBus_imePending (s : State) : (s.clearBus).imePending = s.imePending := rfl
@[simp] theorem State.clearBus_halted (s : State) : (s.clearBus).halted = s.halted := rfl
@[simp] theorem State.clearBus_fault (s : State) : (s.clearBus).fault = s.fault := rfl
@[simp] theorem State.clearBus_mem (s : State) : (s.clearBus).mem = s.mem := rfl
@[simp] theorem State.clearBus_bus (s : State) : (s.clearBus).bus = [] := rfl
@[simp] theorem State.clearBus_params (s : State) :
    (s.clearBus).params = s.params := rfl

/-! ### The register file -/

@[simp] theorem State.setReg_pc (s : State) (n : Reg8) (v : Byte) : (s.setReg n v).pc = s.pc := by cases n <;> rfl
@[simp] theorem State.setReg_sp (s : State) (n : Reg8) (v : Byte) : (s.setReg n v).sp = s.sp := by cases n <;> rfl
@[simp] theorem State.setReg_ime (s : State) (n : Reg8) (v : Byte) : (s.setReg n v).ime = s.ime := by cases n <;> rfl
@[simp] theorem State.setReg_imePending (s : State) (n : Reg8) (v : Byte) : (s.setReg n v).imePending = s.imePending := by cases n <;> rfl
@[simp] theorem State.setReg_halted (s : State) (n : Reg8) (v : Byte) : (s.setReg n v).halted = s.halted := by cases n <;> rfl
@[simp] theorem State.setReg_fault (s : State) (n : Reg8) (v : Byte) : (s.setReg n v).fault = s.fault := by cases n <;> rfl
@[simp] theorem State.setReg_mem (s : State) (n : Reg8) (v : Byte) : (s.setReg n v).mem = s.mem := by cases n <;> rfl
@[simp] theorem State.setReg_bus (s : State) (n : Reg8) (v : Byte) : (s.setReg n v).bus = s.bus := by cases n <;> rfl
@[simp] theorem State.setReg_params (s : State) (n : Reg8) (v : Byte) :
    (s.setReg n v).params = s.params := by cases n <;> rfl

/-- What a cell of the register file holds after a write: F drops its low nibble (10_state.md R20, R22). -/
theorem State.reg_setReg (s : State) (n m : Reg8) (v : Byte) :
    (s.setReg n v).reg m = if m = n then (if n = .f then v &&& 0xF0#8 else v) else s.reg m := by
  cases n <;> cases m <;> rfl

@[simp] theorem State.setReg_a_regs (s : State) (v : Byte) : (s.setReg .a v).regs = { s.regs with a := v } := rfl
@[simp] theorem State.setReg_b_regs (s : State) (v : Byte) : (s.setReg .b v).regs = { s.regs with b := v } := rfl
@[simp] theorem State.setReg_c_regs (s : State) (v : Byte) : (s.setReg .c v).regs = { s.regs with c := v } := rfl
@[simp] theorem State.setReg_d_regs (s : State) (v : Byte) : (s.setReg .d v).regs = { s.regs with d := v } := rfl
@[simp] theorem State.setReg_e_regs (s : State) (v : Byte) : (s.setReg .e v).regs = { s.regs with e := v } := rfl
@[simp] theorem State.setReg_f_regs (s : State) (v : Byte) : (s.setReg .f v).regs = { s.regs with f := v &&& 0xF0#8 } := rfl
@[simp] theorem State.setReg_h_regs (s : State) (v : Byte) : (s.setReg .h v).regs = { s.regs with h := v } := rfl
@[simp] theorem State.setReg_l_regs (s : State) (v : Byte) : (s.setReg .l v).regs = { s.regs with l := v } := rfl
@[simp] theorem State.reg_a (s : State) : s.reg .a = s.regs.a := rfl
@[simp] theorem State.reg_b (s : State) : s.reg .b = s.regs.b := rfl
@[simp] theorem State.reg_c (s : State) : s.reg .c = s.regs.c := rfl
@[simp] theorem State.reg_d (s : State) : s.reg .d = s.regs.d := rfl
@[simp] theorem State.reg_e (s : State) : s.reg .e = s.regs.e := rfl
@[simp] theorem State.reg_f (s : State) : s.reg .f = s.regs.f := rfl
@[simp] theorem State.reg_h (s : State) : s.reg .h = s.regs.h := rfl
@[simp] theorem State.reg_l (s : State) : s.reg .l = s.regs.l := rfl

@[simp] theorem State.setAf_pc (s : State) (w : Word) : (s.setAf w).pc = s.pc := by simp [State.setAf]
@[simp] theorem State.setAf_sp (s : State) (w : Word) : (s.setAf w).sp = s.sp := by simp [State.setAf]
@[simp] theorem State.setAf_ime (s : State) (w : Word) : (s.setAf w).ime = s.ime := by simp [State.setAf]
@[simp] theorem State.setAf_imePending (s : State) (w : Word) : (s.setAf w).imePending = s.imePending := by simp [State.setAf]
@[simp] theorem State.setAf_halted (s : State) (w : Word) : (s.setAf w).halted = s.halted := by simp [State.setAf]
@[simp] theorem State.setAf_fault (s : State) (w : Word) : (s.setAf w).fault = s.fault := by simp [State.setAf]
@[simp] theorem State.setAf_mem (s : State) (w : Word) : (s.setAf w).mem = s.mem := by simp [State.setAf]
@[simp] theorem State.setAf_bus (s : State) (w : Word) : (s.setAf w).bus = s.bus := by simp [State.setAf]
@[simp] theorem State.setAf_params (s : State) (w : Word) :
    (s.setAf w).params = s.params := by simp [State.setAf]
@[simp] theorem State.setBc_pc (s : State) (w : Word) : (s.setBc w).pc = s.pc := by simp [State.setBc]
@[simp] theorem State.setBc_sp (s : State) (w : Word) : (s.setBc w).sp = s.sp := by simp [State.setBc]
@[simp] theorem State.setBc_ime (s : State) (w : Word) : (s.setBc w).ime = s.ime := by simp [State.setBc]
@[simp] theorem State.setBc_imePending (s : State) (w : Word) : (s.setBc w).imePending = s.imePending := by simp [State.setBc]
@[simp] theorem State.setBc_halted (s : State) (w : Word) : (s.setBc w).halted = s.halted := by simp [State.setBc]
@[simp] theorem State.setBc_fault (s : State) (w : Word) : (s.setBc w).fault = s.fault := by simp [State.setBc]
@[simp] theorem State.setBc_mem (s : State) (w : Word) : (s.setBc w).mem = s.mem := by simp [State.setBc]
@[simp] theorem State.setBc_bus (s : State) (w : Word) : (s.setBc w).bus = s.bus := by simp [State.setBc]
@[simp] theorem State.setBc_params (s : State) (w : Word) :
    (s.setBc w).params = s.params := by simp [State.setBc]
@[simp] theorem State.setDe_pc (s : State) (w : Word) : (s.setDe w).pc = s.pc := by simp [State.setDe]
@[simp] theorem State.setDe_sp (s : State) (w : Word) : (s.setDe w).sp = s.sp := by simp [State.setDe]
@[simp] theorem State.setDe_ime (s : State) (w : Word) : (s.setDe w).ime = s.ime := by simp [State.setDe]
@[simp] theorem State.setDe_imePending (s : State) (w : Word) : (s.setDe w).imePending = s.imePending := by simp [State.setDe]
@[simp] theorem State.setDe_halted (s : State) (w : Word) : (s.setDe w).halted = s.halted := by simp [State.setDe]
@[simp] theorem State.setDe_fault (s : State) (w : Word) : (s.setDe w).fault = s.fault := by simp [State.setDe]
@[simp] theorem State.setDe_mem (s : State) (w : Word) : (s.setDe w).mem = s.mem := by simp [State.setDe]
@[simp] theorem State.setDe_bus (s : State) (w : Word) : (s.setDe w).bus = s.bus := by simp [State.setDe]
@[simp] theorem State.setDe_params (s : State) (w : Word) :
    (s.setDe w).params = s.params := by simp [State.setDe]
@[simp] theorem State.setHl_pc (s : State) (w : Word) : (s.setHl w).pc = s.pc := by simp [State.setHl]
@[simp] theorem State.setHl_sp (s : State) (w : Word) : (s.setHl w).sp = s.sp := by simp [State.setHl]
@[simp] theorem State.setHl_ime (s : State) (w : Word) : (s.setHl w).ime = s.ime := by simp [State.setHl]
@[simp] theorem State.setHl_imePending (s : State) (w : Word) : (s.setHl w).imePending = s.imePending := by simp [State.setHl]
@[simp] theorem State.setHl_halted (s : State) (w : Word) : (s.setHl w).halted = s.halted := by simp [State.setHl]
@[simp] theorem State.setHl_fault (s : State) (w : Word) : (s.setHl w).fault = s.fault := by simp [State.setHl]
@[simp] theorem State.setHl_mem (s : State) (w : Word) : (s.setHl w).mem = s.mem := by simp [State.setHl]
@[simp] theorem State.setHl_bus (s : State) (w : Word) : (s.setHl w).bus = s.bus := by simp [State.setHl]
@[simp] theorem State.setHl_params (s : State) (w : Word) :
    (s.setHl w).params = s.params := by simp [State.setHl]

@[simp] theorem State.write16_pc (s : State) (p : Pair) (w : Word) : (s.write16 p w).pc = s.pc := by
  cases p <;> simp [State.write16]
@[simp] theorem State.write16_ime (s : State) (p : Pair) (w : Word) : (s.write16 p w).ime = s.ime := by
  cases p <;> simp [State.write16]
@[simp] theorem State.write16_imePending (s : State) (p : Pair) (w : Word) : (s.write16 p w).imePending = s.imePending := by
  cases p <;> simp [State.write16]
@[simp] theorem State.write16_halted (s : State) (p : Pair) (w : Word) : (s.write16 p w).halted = s.halted := by
  cases p <;> simp [State.write16]
@[simp] theorem State.write16_fault (s : State) (p : Pair) (w : Word) : (s.write16 p w).fault = s.fault := by
  cases p <;> simp [State.write16]
@[simp] theorem State.write16_mem (s : State) (p : Pair) (w : Word) : (s.write16 p w).mem = s.mem := by
  cases p <;> simp [State.write16]
@[simp] theorem State.write16_bus (s : State) (p : Pair) (w : Word) : (s.write16 p w).bus = s.bus := by
  cases p <;> simp [State.write16]
@[simp] theorem State.write16_params (s : State) (p : Pair) (w : Word) :
    (s.write16 p w).params = s.params := by
  cases p <;> simp [State.write16]
@[simp] theorem State.write16S_pc (s : State) (p : StackPair) (w : Word) : (s.write16S p w).pc = s.pc := by
  cases p <;> simp [State.write16S]
@[simp] theorem State.write16S_sp (s : State) (p : StackPair) (w : Word) : (s.write16S p w).sp = s.sp := by
  cases p <;> simp [State.write16S]
@[simp] theorem State.write16S_ime (s : State) (p : StackPair) (w : Word) : (s.write16S p w).ime = s.ime := by
  cases p <;> simp [State.write16S]
@[simp] theorem State.write16S_imePending (s : State) (p : StackPair) (w : Word) : (s.write16S p w).imePending = s.imePending := by
  cases p <;> simp [State.write16S]
@[simp] theorem State.write16S_halted (s : State) (p : StackPair) (w : Word) : (s.write16S p w).halted = s.halted := by
  cases p <;> simp [State.write16S]
@[simp] theorem State.write16S_fault (s : State) (p : StackPair) (w : Word) : (s.write16S p w).fault = s.fault := by
  cases p <;> simp [State.write16S]
@[simp] theorem State.write16S_mem (s : State) (p : StackPair) (w : Word) : (s.write16S p w).mem = s.mem := by
  cases p <;> simp [State.write16S]
@[simp] theorem State.write16S_bus (s : State) (p : StackPair) (w : Word) : (s.write16S p w).bus = s.bus := by
  cases p <;> simp [State.write16S]
@[simp] theorem State.write16S_params (s : State) (p : StackPair) (w : Word) :
    (s.write16S p w).params = s.params := by
  cases p <;> simp [State.write16S]

@[simp] theorem State.setFlags_pc (s : State) (f : Flags) : (s.setFlags f).pc = s.pc := rfl
@[simp] theorem State.setFlags_sp (s : State) (f : Flags) : (s.setFlags f).sp = s.sp := rfl
@[simp] theorem State.setFlags_ime (s : State) (f : Flags) : (s.setFlags f).ime = s.ime := rfl
@[simp] theorem State.setFlags_imePending (s : State) (f : Flags) : (s.setFlags f).imePending = s.imePending := rfl
@[simp] theorem State.setFlags_halted (s : State) (f : Flags) : (s.setFlags f).halted = s.halted := rfl
@[simp] theorem State.setFlags_fault (s : State) (f : Flags) : (s.setFlags f).fault = s.fault := rfl
@[simp] theorem State.setFlags_mem (s : State) (f : Flags) : (s.setFlags f).mem = s.mem := rfl
@[simp] theorem State.setFlags_bus (s : State) (f : Flags) : (s.setFlags f).bus = s.bus := rfl
@[simp] theorem State.setFlags_params (s : State) (f : Flags) :
    (s.setFlags f).params = s.params := rfl

/-- A cell other than F keeps its value when the flags are written. -/
theorem State.setFlags_reg (s : State) (f : Flags) (n : Reg8) (h : n ≠ .f) : (s.setFlags f).reg n = s.reg n := by
  cases n <;> first | rfl | exact absurd rfl h

end Sys2Proof.Machine
end

