-- ==== Sys2Proof/Laws/Ops.lean ====
section
/-! SUPPORT. What each shared operation does, said once as an equation over the whole state, for later proofs to cite
instead of unfolding the operation. -/

namespace Sys2Proof.Machine

/-! ### The byte behind the bus -/

theorem State.memPeek_poke (s : State) (a b : Word) (v : Byte) :
    (s.poke a v).memPeek b = if b = a then v else s.memPeek b := by
  unfold State.memPeek State.poke
  split
  · rename_i h
    exact h ▸ Memory.read_write_same s.mem b.toNat v
  · rename_i h
    exact Memory.read_write_other s.mem v (fun e => h (BitVec.eq_of_toNat_eq e))

theorem State.memPeek_memWrite (s : State) (a b : Word) (v : Byte) :
    (s.memWrite a v).memPeek b = if b = a then v else s.memPeek b := State.memPeek_poke s a b v

/-- A state with the same memory reads the same. -/
theorem State.memPeek_congr {s t : State} (h : t.mem = s.mem) (a : Word) : t.memPeek a = s.memPeek a := by
  unfold State.memPeek
  rw [h]

theorem State.memWrite_eq (s : State) (a : Word) (v : Byte) :
    s.memWrite a v = { s with mem := s.mem.write a.toNat v, bus := s.bus ++ [.write a v] } := rfl

theorem State.memRead_eq (s : State) (a : Word) :
    s.memRead a = (s.memPeek a, { s with bus := s.bus ++ [.read a (s.memPeek a)] }) := rfl

/-! ### The instruction stream (40_step_and_primitives.md R140, R141) -/

theorem State.fetch8_eq (s : State) :
    s.fetch8 = (s.imm8, { s with pc := s.pc + 1, bus := s.bus ++ s.imm8Read }) := rfl

theorem State.fetch16_eq (s : State) :
    s.fetch16 = (s.imm16, { s with pc := s.pc + 2, bus := s.bus ++ s.imm16Read }) := by
  have h : s.pc + 1 + 1 = s.pc + 2 := by rw [BitVec.add_assoc]; rfl
  simp only [State.fetch16, State.fetch8, State.memRead, State.record, State.setPc, h, wordOf, State.imm16,
    State.imm16Read, List.append_assoc, List.cons_append, List.nil_append]
  rfl

/-! ### The stack (40_step_and_primitives.md R142, R143) -/

theorem State.push16_eq (s : State) (v : Word) :
    s.push16 v =
      { s with
        sp := s.sp - 2
        mem := (s.mem.write (s.sp - 1).toNat (hiByte v)).write (s.sp - 2).toNat (loByte v)
        bus := s.bus ++ [.write (s.sp - 1) (hiByte v), .write (s.sp - 2) (loByte v)] } := by
  simp only [State.push16, State.memWrite, State.record, State.poke, State.setSp, List.append_assoc, List.cons_append,
    List.nil_append]

theorem State.memPeek_push16 (s : State) (v a : Word) :
    (s.push16 v).memPeek a =
      if a = s.sp - 2 then loByte v else if a = s.sp - 1 then hiByte v else s.memPeek a := by
  unfold State.push16
  rw [State.memPeek_memWrite]
  split
  · rfl
  · exact State.memPeek_memWrite (s.setSp (s.sp - 1)) (s.sp - 1) a (hiByte v)

theorem State.pop16_eq (s : State) :
    s.pop16 = (s.stackTop, { s with sp := s.sp + 2, bus := s.bus ++ s.stackTopRead }) := by
  simp only [State.pop16, State.memRead, State.record, State.setSp, wordOf, State.stackTop, State.stackTopRead,
    List.append_assoc, List.cons_append, List.nil_append]
  rfl

/-- A word is its two bytes. -/
theorem hiByte_append_loByte (v : Word) : hiByte v ++ loByte v = v := by
  unfold hiByte loByte
  ext i hi
  simp only [BitVec.getElem_append, BitVec.getElem_extractLsb']
  split <;> simp_all

/-- A pop after a push returns the value. -/
theorem State.stackTop_push16 (s : State) (v : Word) : (s.push16 v).stackTop = v := by
  have h1 : (s.push16 v).sp = s.sp - 2 := by rw [State.push16_eq]
  have h2 : s.sp - 2 + 1 = s.sp - 1 := by bv_omega
  have h3 : s.sp - 1 ≠ s.sp - 2 := by bv_omega
  unfold State.stackTop
  rw [h1, h2, State.memPeek_push16, State.memPeek_push16, if_pos rfl, if_neg h3, if_pos rfl, hiByte_append_loByte]

/-! ### Operands (40_step_and_primitives.md R144, R145) -/

theorem State.read8_eq (s : State) (r : Op8) :
    s.read8 r = (s.operand r, { s with bus := s.bus ++ s.operandRead r }) := by
  rcases r with n | _
  · cases n <;> simp [State.read8, State.operand, State.operandRead, Gpr.cell]
  · rfl

theorem State.write8_reg (s : State) (n : Gpr) (v : Byte) :
    s.write8 (.reg n) v = { s with regs := s.regs.put n v } := by cases n <;> rfl

theorem State.write8_memHl (s : State) (v : Byte) : s.write8 .memHl v = s.memWrite s.hl v := rfl

theorem State.read16_eq (s : State) (p : Pair) : s.read16 p = s.pairValue p := by cases p <;> rfl

theorem State.write16_eq (s : State) (p : Pair) (v : Word) : s.write16 p v = s.putPair p v := by cases p <;> rfl

theorem State.read16S_eq (s : State) (p : StackPair) : s.read16S p = s.stackPairValue p := by cases p <;> rfl

theorem State.write16S_eq (s : State) (p : StackPair) (v : Word) : s.write16S p v = s.putStackPair p v := by
  cases p <;> rfl

theorem State.setHl_eq (s : State) (v : Word) : s.setHl v = s.putPair .hl v := rfl

theorem State.cond_eq (s : State) (cc : Cond) : s.cond cc = s.holds cc := by cases cc <;> rfl

/-- An operand written, then F: the form of every instruction that changes an r8 operand. -/
theorem State.operandWritten_write8 (s : State) (r : Op8) (v : Byte) (f : Flags) :
    OperandWritten s
      ((({ s with bus := s.bus ++ s.operandRead r } : State).write8 r v).setFlags f) r v
      (f.toByte &&& 0xF0#8) (s.operandRead r) := by
  rcases r with n | _
  · cases n <;> rfl
  · exact ⟨rfl, fun b => State.memPeek_poke s s.hl b v⟩

/-- An operand written and F kept. -/
theorem State.operandWritten_modify8 (s : State) (r : Op8) (v : Byte) :
    OperandWritten s (({ s with bus := s.bus ++ s.operandRead r } : State).write8 r v) r v s.regs.f
      (s.operandRead r) := by
  rcases r with n | _
  · cases n <;> rfl
  · exact ⟨rfl, fun b => State.memPeek_poke s s.hl b v⟩

/-! ### Addresses (20_memory.md R62, 30_encoding.md R104) -/

theorem highAddr_eq (b : Byte) : highAddr b = BitVec.ofNat 16 (65280 + b.toNat) := by
  apply BitVec.eq_of_toNat_eq
  simp [highAddr, zext16]

theorem sext16_eq (b : Byte) : sext16 b = displacement b := by
  revert b
  decide

end Sys2Proof.Machine
end

