-- ==== Sys2Proof/Laws/Flags.lean ====
section
/-! SUPPORT. The flags codec, and the arithmetic of results and flags as sums of numbers (10_state.md R27,
40_step_and_primitives.md R150 to R153). -/

namespace Sys2Proof.Machine

theorem Flags.toByte_eq (f : Flags) : f.toByte = fByte f.z f.n f.h f.c := by
  rcases f with ⟨z, n, h, c⟩
  revert z n h c
  decide

theorem fByte_masked (z n h c : Bool) : fByte z n h c &&& 0xF0#8 = fByte z n h c := by
  revert z n h c
  decide

theorem fByte_low (z n h c : Bool) : fByte z n h c &&& 0x0F#8 = 0 := by
  revert z n h c
  decide

/-- The byte that reaches F when the flags are written. -/
theorem Flags.toByte_masked (f : Flags) : f.toByte &&& 0xF0#8 = fByte f.z f.n f.h f.c := by
  rw [Flags.toByte_eq, fByte_masked]

theorem Flags.fromByte_toByte (f : Flags) : Flags.fromByte f.toByte = f := by
  rcases f with ⟨z, n, h, c⟩
  revert z n h c
  decide

theorem Flags.toByte_fromByte (b : Byte) : (Flags.fromByte b).toByte = b &&& 0xF0#8 := by
  revert b
  decide

theorem State.setFlags_eq (s : State) (f : Flags) :
    s.setFlags f = { s with regs := { s.regs with f := fByte f.z f.n f.h f.c } } := by
  unfold State.setFlags State.setReg State.setRegs
  rw [Flags.toByte_masked]

@[simp] theorem State.flags_z (s : State) : s.flags.z = s.flagZ := rfl
@[simp] theorem State.flags_n (s : State) : s.flags.n = s.flagN := rfl
@[simp] theorem State.flags_h (s : State) : s.flags.h = s.flagH := rfl
@[simp] theorem State.flags_c (s : State) : s.flags.c = s.flagC := rfl

/-! ### Sums and differences -/

theorem overflowAdd8_sum (a b : Byte) (x : Bool) : (overflowAdd8 a b x).sum = a + b + BitVec.ofNat 8 x.toNat := by
  apply BitVec.eq_of_toNat_eq
  simp [overflowAdd8]

theorem overflowAdd16_sum (a b : Word) (x : Bool) : (overflowAdd16 a b x).sum = a + b + BitVec.ofNat 16 x.toNat := by
  apply BitVec.eq_of_toNat_eq
  simp [overflowAdd16]

theorem subtractWithBorrow8_result (a b : Byte) (x : Bool) :
    (subtractWithBorrow8 a b x).result = a - b - BitVec.ofNat 8 x.toNat := by
  have hx := x.toNat_le
  apply BitVec.eq_of_toNat_eq
  simp only [subtractWithBorrow8, BitVec.toNat_ofInt, BitVec.toNat_sub, BitVec.toNat_ofNat]
  omega

theorem subtractWithBorrow8_borrow (a b : Byte) (x : Bool) :
    (subtractWithBorrow8 a b x).borrow = decide (a.toNat < b.toNat + x.toNat) := by
  simp only [subtractWithBorrow8, decide_eq_decide]
  omega

theorem subtractWithBorrow16_borrow (a b : Word) (x : Bool) :
    (subtractWithBorrow16 a b x).borrow = decide (a.toNat < b.toNat + x.toNat) := by
  simp only [subtractWithBorrow16, decide_eq_decide]
  omega

/-- The exact difference, with the borrow as the missing 256. -/
theorem subtractWithBorrow8_exact (a b : Byte) (x : Bool) :
    (subtractWithBorrow8 a b x).result.toNat + b.toNat + x.toNat =
      a.toNat + 256 * (subtractWithBorrow8 a b x).borrow.toNat := by
  have hx := x.toNat_le
  rw [subtractWithBorrow8_borrow]
  simp only [subtractWithBorrow8, BitVec.toNat_ofInt]
  by_cases h : a.toNat < b.toNat + x.toNat <;> simp [h] <;> omega

theorem subtractWithBorrow16_exact (a b : Word) (x : Bool) :
    (subtractWithBorrow16 a b x).result.toNat + b.toNat + x.toNat =
      a.toNat + 65536 * (subtractWithBorrow16 a b x).borrow.toNat := by
  have hx := x.toNat_le
  rw [subtractWithBorrow16_borrow]
  simp only [subtractWithBorrow16, BitVec.toNat_ofInt]
  by_cases h : a.toNat < b.toNat + x.toNat <;> simp [h] <;> omega

/-! ### The accumulator rotates (43_rotate_shift_bit.md R224) -/

/-- An accumulator rotate writes A and F, and under either reading of R224 C is the bit that left. -/
theorem State.rotateA_eq (s : State) (x : ShiftResult) :
    s.rotateA x = { s with regs := { s.regs with
      a := x.res
      f := if s.params.rotaClearsZnh then fByte false false false x.cy else fByte s.flagZ s.flagN s.flagH x.cy } } := by
  have key : ∀ p : Bool, fByte (accRotateFlags p s.flags x).z (accRotateFlags p s.flags x).n
      (accRotateFlags p s.flags x).h (accRotateFlags p s.flags x).c =
      if p then fByte false false false x.cy else fByte s.flagZ s.flagN s.flagH x.cy := fun p => by cases p <;> rfl
  unfold State.rotateA
  rw [State.setFlags_eq, key]
  rfl
end Sys2Proof.Machine
end

