-- ==== Sys2Proof/Laws/Bus.lean ====
section
/-! SUPPORT. An operation is traced when the accesses it adds to the record, replayed on the memory it began with, read
what it read and leave the memory it left (20_memory.md R74); a traced operation keeps the canonical form of memory. -/

namespace Sys2Proof.Machine

/-- The accesses from `s` to `t` replay. -/
def Traced (s t : State) : Prop := ∃ log, t.bus = s.bus ++ log ∧ replayBus s.mem log = some t.mem

theorem replayBus_append (m : Memory) (xs ys : List BusAccess) :
    replayBus m (xs ++ ys) = (replayBus m xs).bind fun m' => replayBus m' ys := by
  induction xs generalizing m with
  | nil => rfl
  | cons x rest ih =>
    cases x with
    | read a v =>
      simp only [List.cons_append, replayBus]
      split
      · exact ih m
      · rfl
    | write a v => exact ih _

theorem replayBus_wf {m m' : Memory} {log : List BusAccess} (h : replayBus m log = some m') (hm : Memory.wf m) :
    Memory.wf m' := by
  induction log generalizing m with
  | nil => exact Option.some.inj h ▸ hm
  | cons x rest ih =>
    cases x with
    | read a v =>
      simp only [replayBus] at h
      split at h
      · exact ih h hm
      · cases h
    | write a v => exact ih h (Memory.wf_write hm v a.isLt)

theorem Traced.refl (s : State) : Traced s s := ⟨[], by simp, rfl⟩

theorem Traced.trans {s t u : State} (h1 : Traced s t) (h2 : Traced t u) : Traced s u := by
  obtain ⟨l1, b1, r1⟩ := h1
  obtain ⟨l2, b2, r2⟩ := h2
  exact ⟨l1 ++ l2, by rw [b2, b1, List.append_assoc], by rw [replayBus_append, r1]; exact r2⟩

/-- Changes outside memory and the record are traced, before and after. -/
theorem Traced.congr {s s' t t' : State} (h : Traced s t) (hm : s'.mem = s.mem) (hb : s'.bus = s.bus)
    (hm' : t'.mem = t.mem) (hb' : t'.bus = t.bus) : Traced s' t' := by
  unfold Traced
  rw [hm, hb, hm', hb']
  exact h

theorem Traced.of_eq {s t : State} (hm : t.mem = s.mem) (hb : t.bus = s.bus) : Traced s t :=
  (Traced.refl s).congr rfl rfl hm hb

theorem Traced.wf {s t : State} (h : Traced s t) (hs : Memory.wf s.mem) : Memory.wf t.mem := by
  obtain ⟨_, _, hr⟩ := h
  exact replayBus_wf hr hs

theorem traced_memRead (s : State) (a : Word) : Traced s (s.memRead a).2 :=
  ⟨[.read a (s.memPeek a)], rfl, by simp [replayBus, State.memRead, State.record, State.memPeek]⟩

theorem traced_memWrite (s : State) (a : Word) (v : Byte) : Traced s (s.memWrite a v) :=
  ⟨[.write a v], rfl, rfl⟩

end Sys2Proof.Machine
end

