-- ==== Sys2Proof/Laws/Frame.lean ====
section
/-! SUPPORT. What a plain operation can do, said once: its bus accesses replay, it keeps the low nibble of F zero, and it
leaves the four control bits of 10_state.md section 6 and the machine's parameters. Every shared operation but those of
interrupts is plain. -/

namespace Sys2Proof.Machine

/-- The low nibble of F is zero (10_state.md R22). -/
def State.FLow (s : State) : Prop := s.regs.f &&& 0x0F#8 = 0

theorem masked_low (v : Byte) : v &&& 0xF0#8 &&& 0x0F#8 = 0 := by
  revert v
  decide

structure Plain (s t : State) : Prop where
  traced     : Traced s t
  fLow       : s.FLow → t.FLow
  ime        : t.ime = s.ime
  imePending : t.imePending = s.imePending
  halted     : t.halted = s.halted
  fault      : t.fault = s.fault
  params     : t.params = s.params

theorem Plain.refl (s : State) : Plain s s := ⟨Traced.refl s, id, rfl, rfl, rfl, rfl, rfl⟩

theorem Plain.trans {s t u : State} (h1 : Plain s t) (h2 : Plain t u) : Plain s u :=
  ⟨h1.traced.trans h2.traced, h2.fLow ∘ h1.fLow, h2.ime.trans h1.ime, h2.imePending.trans h1.imePending,
    h2.halted.trans h1.halted, h2.fault.trans h1.fault, h2.params.trans h1.params⟩

theorem plain_memRead (s : State) (a : Word) : Plain s (s.memRead a).2 :=
  ⟨traced_memRead s a, id, rfl, rfl, rfl, rfl, rfl⟩

theorem plain_memWrite (s : State) (a : Word) (v : Byte) : Plain s (s.memWrite a v) :=
  ⟨traced_memWrite s a v, id, rfl, rfl, rfl, rfl, rfl⟩

theorem plain_setPc (s : State) (w : Word) : Plain s (s.setPc w) := ⟨Traced.of_eq rfl rfl, id, rfl, rfl, rfl, rfl, rfl⟩

theorem plain_setSp (s : State) (w : Word) : Plain s (s.setSp w) := ⟨Traced.of_eq rfl rfl, id, rfl, rfl, rfl, rfl, rfl⟩

theorem plain_setReg (s : State) (n : Reg8) (v : Byte) : Plain s (s.setReg n v) := by
  cases n
  case f => exact ⟨Traced.of_eq rfl rfl, fun _ => masked_low v, rfl, rfl, rfl, rfl, rfl⟩
  all_goals exact ⟨Traced.of_eq rfl rfl, id, rfl, rfl, rfl, rfl, rfl⟩

theorem plain_setFlags (s : State) (f : Flags) : Plain s (s.setFlags f) := plain_setReg s .f f.toByte

theorem plain_fetch8 (s : State) : Plain s s.fetch8.2 := (plain_memRead s s.pc).trans (plain_setPc _ _)

theorem plain_fetch16 (s : State) : Plain s s.fetch16.2 := (plain_fetch8 s).trans (plain_fetch8 _)

theorem plain_push16 (s : State) (v : Word) : Plain s (s.push16 v) :=
  ((plain_setSp s _).trans (plain_memWrite _ _ _)).trans ((plain_setSp _ _).trans (plain_memWrite _ _ _))

theorem plain_pop16 (s : State) : Plain s s.pop16.2 :=
  (plain_memRead s s.sp).trans ((plain_setSp _ _).trans ((plain_memRead _ _).trans (plain_setSp _ _)))

theorem plain_setBc (s : State) (w : Word) : Plain s (s.setBc w) := (plain_setReg s .b _).trans (plain_setReg _ .c _)
theorem plain_setDe (s : State) (w : Word) : Plain s (s.setDe w) := (plain_setReg s .d _).trans (plain_setReg _ .e _)
theorem plain_setHl (s : State) (w : Word) : Plain s (s.setHl w) := (plain_setReg s .h _).trans (plain_setReg _ .l _)
theorem plain_setAf (s : State) (w : Word) : Plain s (s.setAf w) := (plain_setReg s .a _).trans (plain_setReg _ .f _)

theorem plain_read8 (s : State) (r : Op8) : Plain s (s.read8 r).2 := by
  cases r
  case reg n => exact Plain.refl s
  case memHl => exact plain_memRead s s.hl

theorem plain_write8 (s : State) (r : Op8) (v : Byte) : Plain s (s.write8 r v) := by
  cases r
  case reg n => exact plain_setReg s _ v
  case memHl => exact plain_memWrite s s.hl v

theorem plain_write16 (s : State) (p : Pair) (w : Word) : Plain s (s.write16 p w) := by
  cases p
  case bc => exact plain_setBc s w
  case de => exact plain_setDe s w
  case hl => exact plain_setHl s w
  case sp => exact plain_setSp s w

theorem plain_write16S (s : State) (p : StackPair) (w : Word) : Plain s (s.write16S p w) := by
  cases p
  case bc => exact plain_setBc s w
  case de => exact plain_setDe s w
  case hl => exact plain_setHl s w
  case af => exact plain_setAf s w

theorem plain_effAddr (s : State) (m : AddrMode) : Plain s (s.effAddr m).2 := by
  cases m
  case imm16 => exact plain_fetch16 s
  case highImm8 => exact plain_fetch8 s
  all_goals exact Plain.refl s

theorem plain_ite {s t u : State} (b : Bool) (ht : Plain s t) (hu : Plain s u) : Plain s (if b then t else u) := by
  cases b
  · exact hu
  · exact ht

/-! ### Shared shapes of the meanings -/

theorem plain_addToA (s : State) (v : Byte) (x : Bool) : Plain s (s.addToA v x) :=
  (plain_setReg s .a _).trans (plain_setFlags _ _)

theorem plain_subFromA (s : State) (v : Byte) (x : Bool) : Plain s (s.subFromA v x) :=
  (plain_setReg s .a _).trans (plain_setFlags _ _)

theorem plain_compareWithA (s : State) (v : Byte) : Plain s (s.compareWithA v) := plain_setFlags s _

theorem plain_logicToA (s : State) (v : Byte) (h : Bool) : Plain s (s.logicToA v h) :=
  (plain_setReg s .a _).trans (plain_setFlags _ _)

theorem plain_rotateA (s : State) (x : ShiftResult) : Plain s (s.rotateA x) :=
  (plain_setReg s .a _).trans (plain_setFlags _ _)

theorem plain_shift8 (s : State) (r : Op8) (op : Byte → Bool → ShiftResult) : Plain s (s.shift8 r op) :=
  ((plain_read8 s r).trans (plain_write8 _ r _)).trans (plain_setFlags _ _)

theorem plain_modify8 (s : State) (r : Op8) (op : Byte → Byte) : Plain s (s.modify8 r op) :=
  (plain_read8 s r).trans (plain_write8 _ r _)

theorem plain_loadReg (s : State) (n : Reg8) (r : Op8) : Plain s (s.loadReg n r) :=
  (plain_read8 s r).trans (plain_setReg _ n _)

theorem plain_storeReg (s : State) (n : Reg8) : Plain s (s.storeReg n) := plain_memWrite s _ _

theorem plain_loadA (s : State) (m : AddrMode) : Plain s (s.loadA m) :=
  ((plain_effAddr s m).trans (plain_memRead _ _)).trans (plain_setReg _ .a _)

theorem plain_storeA (s : State) (m : AddrMode) : Plain s (s.storeA m) :=
  (plain_effAddr s m).trans (plain_memWrite _ _ _)

theorem plain_jumpTaken (s : State) : Plain s s.jumpTaken := (plain_fetch16 s).trans (plain_setPc _ _)

theorem plain_jumpRelTaken (s : State) : Plain s s.jumpRelTaken := (plain_fetch8 s).trans (plain_setPc _ _)

theorem plain_callTaken (s : State) : Plain s s.callTaken :=
  ((plain_fetch16 s).trans (plain_push16 _ _)).trans (plain_setPc _ _)

theorem plain_returnTaken (s : State) : Plain s s.returnTaken := (plain_pop16 s).trans (plain_setPc _ _)

theorem plain_skip (s : State) (n : Word) : Plain s (s.skip n) := plain_setPc s _

end Sys2Proof.Machine
end

