-- ==== Sys2Proof/Laws/Exec.lean ====
section
/-! SUPPORT. What holds of every meaning: it ends in a next state, and the ones that write no control bit are plain. -/

namespace Sys2Proof.Machine

/-- A prefixed instruction's row has the meaning its second byte selects. -/
theorem exec_toInstr (i : CbInstr) (s : State) : exec i.toInstr s = execCb i s := by cases i <;> rfl

/-- An outcome is a next state, and that state satisfies `p`. -/
def Result.Ends (p : State → Prop) : Result → Prop
  | .next t => p t
  | .fault _ => False
  | .refused _ => False

theorem Result.Ends.next {p : State → Prop} {r : Result} (h : Result.Ends p r) : ∃ t, r = .next t ∧ p t := by
  cases r with
  | next t => exact ⟨t, rfl, h⟩
  | fault _ => exact h.elim
  | refused _ => exact h.elim

/-- The rows that write a control bit: DI, EI, RETI, HALT, STOP and the rows without an instruction. -/
def writesControl : Instr → Bool
  | .di | .ei | .reti | .halt | .stop => true
  | i => i.format == .illegal

/-- The prefixed meanings are plain. -/
theorem execCb_plain (i : CbInstr) (s : State) : Result.Ends (Plain s) (execCb i s) := by
  cases i
  case bit b r => exact (plain_read8 s r).trans (plain_setFlags _ _)
  case res b r => exact plain_modify8 s r _
  case set b r => exact plain_modify8 s r _
  all_goals exact plain_shift8 s _ _

/-- Every other meaning is plain. -/
theorem exec_plain (i : Instr) (s : State) (h : writesControl i = false) : Result.Ends (Plain s) (exec i s) := by
  cases i
  case nop => exact Plain.refl s
  case ldMemA16Sp => exact ((plain_fetch16 s).trans (plain_memWrite _ _ _)).trans (plain_memWrite _ _ _)
  case jrE8 => exact plain_jumpRelTaken s
  case jrCcE8 cc => exact plain_ite _ (plain_jumpRelTaken s) (plain_skip s _)
  case ldRrD16 p => exact (plain_fetch16 s).trans (plain_write16 _ p _)
  case addHlRr p => exact (plain_setHl s _).trans (plain_setFlags _ _)
  case ldMemBcA => exact plain_storeA s .bc
  case ldMemDeA => exact plain_storeA s .de
  case ldMemHlIncA => exact (plain_storeA s .hl).trans (plain_setHl _ _)
  case ldMemHlDecA => exact (plain_storeA s .hl).trans (plain_setHl _ _)
  case ldAMemBc => exact plain_loadA s .bc
  case ldAMemDe => exact plain_loadA s .de
  case ldAMemHlInc => exact (plain_loadA s .hl).trans (plain_setHl _ _)
  case ldAMemHlDec => exact (plain_loadA s .hl).trans (plain_setHl _ _)
  case incRr p => exact plain_write16 s p _
  case decRr p => exact plain_write16 s p _
  case incR8 r => exact ((plain_read8 s r).trans (plain_write8 _ r _)).trans (plain_setFlags _ _)
  case decR8 r => exact ((plain_read8 s r).trans (plain_write8 _ r _)).trans (plain_setFlags _ _)
  case ldR8D8 r => exact (plain_fetch8 s).trans (plain_write8 _ r _)
  case rlca => exact plain_rotateA s _
  case rrca => exact plain_rotateA s _
  case rla => exact plain_rotateA s _
  case rra => exact plain_rotateA s _
  case daa => exact (plain_setReg s .a _).trans (plain_setFlags _ _)
  case cpl => exact (plain_setReg s .a _).trans (plain_setFlags _ _)
  case scf => exact plain_setFlags s _
  case ccf => exact plain_setFlags s _
  case ldMemHlB => exact plain_storeReg s _
  case ldMemHlC => exact plain_storeReg s _
  case ldMemHlD => exact plain_storeReg s _
  case ldMemHlE => exact plain_storeReg s _
  case ldMemHlH => exact plain_storeReg s _
  case ldMemHlL => exact plain_storeReg s _
  case ldMemHlA => exact plain_storeReg s _
  case ldBR8 r => exact plain_loadReg s .b r
  case ldCR8 r => exact plain_loadReg s .c r
  case ldDR8 r => exact plain_loadReg s .d r
  case ldER8 r => exact plain_loadReg s .e r
  case ldHR8 r => exact plain_loadReg s .h r
  case ldLR8 r => exact plain_loadReg s .l r
  case ldAR8 r => exact plain_loadReg s .a r
  case addAR8 r => exact (plain_read8 s r).trans (plain_addToA _ _ _)
  case adcAR8 r => exact (plain_read8 s r).trans (plain_addToA _ _ _)
  case subR8 r => exact (plain_read8 s r).trans (plain_subFromA _ _ _)
  case sbcAR8 r => exact (plain_read8 s r).trans (plain_subFromA _ _ _)
  case andR8 r => exact (plain_read8 s r).trans (plain_logicToA _ _ _)
  case xorR8 r => exact (plain_read8 s r).trans (plain_logicToA _ _ _)
  case orR8 r => exact (plain_read8 s r).trans (plain_logicToA _ _ _)
  case cpR8 r => exact (plain_read8 s r).trans (plain_compareWithA _ _)
  case retCc cc => exact plain_ite _ (plain_returnTaken s) (Plain.refl s)
  case ldhMemA8A => exact plain_storeA s .highImm8
  case addSpE8 => exact ((plain_fetch8 s).trans (plain_setSp _ _)).trans (plain_setFlags _ _)
  case ldhAMemA8 => exact plain_loadA s .highImm8
  case ldHlSpE8 => exact ((plain_fetch8 s).trans (plain_setHl _ _)).trans (plain_setFlags _ _)
  case popRr p => exact (plain_pop16 s).trans (plain_write16S _ p _)
  case ret => exact plain_returnTaken s
  case jpHl => exact plain_setPc s _
  case ldSpHl => exact plain_setSp s _
  case jpCcA16 cc => exact plain_ite _ (plain_jumpTaken s) (plain_skip s _)
  case ldMemCA => exact plain_storeA s .highC
  case ldMemA16A => exact plain_storeA s .imm16
  case ldAMemC => exact plain_loadA s .highC
  case ldAMemA16 => exact plain_loadA s .imm16
  case jpA16 => exact plain_jumpTaken s
  case callCcA16 cc => exact plain_ite _ (plain_callTaken s) (plain_skip s _)
  case pushRr p => exact plain_push16 s _
  case callA16 => exact plain_callTaken s
  case addAD8 => exact (plain_fetch8 s).trans (plain_addToA _ _ _)
  case adcAD8 => exact (plain_fetch8 s).trans (plain_addToA _ _ _)
  case subD8 => exact (plain_fetch8 s).trans (plain_subFromA _ _ _)
  case sbcAD8 => exact (plain_fetch8 s).trans (plain_subFromA _ _ _)
  case andD8 => exact (plain_fetch8 s).trans (plain_logicToA _ _ _)
  case xorD8 => exact (plain_fetch8 s).trans (plain_logicToA _ _ _)
  case orD8 => exact (plain_fetch8 s).trans (plain_logicToA _ _ _)
  case cpD8 => exact (plain_fetch8 s).trans (plain_compareWithA _ _)
  case rstT k => exact (plain_push16 s _).trans (plain_setPc _ _)
  case prefixCb =>
    obtain ⟨t, ht, hp⟩ := (execCb_plain (cbRow s.fetch8.1) s.fetch8.2).next
    show Result.Ends (Plain s) (execCb (cbRow s.fetch8.1) s.fetch8.2)
    rw [ht]
    exact (plain_fetch8 s).trans hp
  case bitBR8 b r => exact (plain_read8 s r).trans (plain_setFlags _ _)
  case resBR8 b r => exact plain_modify8 s r _
  case setBR8 b r => exact plain_modify8 s r _
  case rlcR8 r => exact plain_shift8 s r _
  case rrcR8 r => exact plain_shift8 s r _
  case rlR8 r => exact plain_shift8 s r _
  case rrR8 r => exact plain_shift8 s r _
  case slaR8 r => exact plain_shift8 s r _
  case sraR8 r => exact plain_shift8 s r _
  case swapR8 r => exact plain_shift8 s r _
  case srlR8 r => exact plain_shift8 s r _
  all_goals exact absurd h (by decide)

/-- RETI writes `ime` and is plain otherwise. -/
theorem execReti_frame (s : State) :
    ∃ t, exec .reti s = .next t ∧ Traced s t ∧ (s.FLow → t.FLow) ∧ t.ime = true ∧ t.imePending = s.imePending ∧
      t.halted = s.halted ∧ t.fault = s.fault ∧ t.params = s.params := by
  have h := plain_pop16 s
  exact ⟨_, rfl, ⟨h.traced, h.fLow, rfl, h.imePending, h.halted, h.fault, h.params⟩⟩

/-- Every meaning ends in a next state, replays, keeps the low nibble of F zero and leaves the machine's parameters. -/
theorem exec_ends (i : Instr) (s : State) :
    ∃ t, exec i s = .next t ∧ Traced s t ∧ (s.FLow → t.FLow) ∧ t.params = s.params := by
  cases h : writesControl i with
  | false =>
    obtain ⟨t, ht, hp⟩ := (exec_plain i s h).next
    exact ⟨t, ht, hp.traced, hp.fLow, hp.params⟩
  | true =>
    cases i
    case reti =>
      obtain ⟨t, ht, h1, h2, _, _, _, _, h3⟩ := execReti_frame s
      exact ⟨t, ht, h1, h2, h3⟩
    all_goals first | cases h; done | exact ⟨_, rfl, Traced.of_eq rfl rfl, id, rfl⟩

end Sys2Proof.Machine
end

