-- ==== Sys2Proof/Laws/Step.lean ====
section
/-! SUPPORT. The branches of the step cycle (40_step_and_primitives.md R130), one equation each. -/

namespace Sys2Proof.Machine

/-! ### The pending mask (60_exceptions.md R363) -/

theorem State.pendingMask_bit (s : State) (j : Nat) :
    s.pendingMask.getLsbD j =
      ((s.memPeek Config.ieAddr).getLsbD j && (s.memPeek Config.ifAddr).getLsbD j && decide (j < 5)) := by
  have h : (0x1F#8).getLsbD j = decide (j < 5) := by
    by_cases hj : j < 8
    · interval_cases j <;> rfl
    · rw [BitVec.getLsbD_of_ge _ _ (Nat.le_of_not_lt hj)]
      simp
      omega
  simp only [State.pendingMask, BitVec.getLsbD_and, h]

/-- States with the same memory have the same mask. -/
theorem State.pendingMask_congr {s t : State} (h : t.mem = s.mem) : t.pendingMask = s.pendingMask := by
  unfold State.pendingMask State.memPeek
  rw [h]

/-- The least set bit of a mask of five bits, and its source. -/
theorem lowestPending_spec (p : Byte) (h : p &&& 0x1F#8 = p) (hp : p ≠ 0) :
    p.getLsbD (Irq.bit (lowestPending p)) = true ∧ ∀ j < Irq.bit (lowestPending p), p.getLsbD j = false := by
  revert p
  decide

theorem Irq.bit_lt (k : Irq) : Irq.bit k < 5 := by cases k <;> decide

/-- The sources are told apart by their bits. -/
theorem lowestPending_eq {p : Byte} {k : Nat} (hm : p &&& 0x1F#8 = p) (hk : p.getLsbD k = true)
    (hl : ∀ j < k, p.getLsbD j = false) : Irq.bit (lowestPending p) = k := by
  have hp : p ≠ 0 := by
    rintro rfl
    simp at hk
  obtain ⟨h1, h2⟩ := lowestPending_spec p hm hp
  rcases Nat.lt_trichotomy (Irq.bit (lowestPending p)) k with h | h | h
  · exact absurd (hl _ h) (by simp [h1])
  · exact h
  · exact absurd (h2 _ h) (by simp [hk])

theorem State.pendingMask_low (s : State) : s.pendingMask &&& 0x1F#8 = s.pendingMask := by
  unfold State.pendingMask
  rw [BitVec.and_assoc, BitVec.and_self]

/-! ### The dispatch (60_exceptions.md R366) -/

/-- IF with the bit of the serviced source cleared. -/
def State.acknowledged (s : State) (p : Byte) : Byte := clearBit (s.memPeek Config.ifAddr) (Irq.bit (lowestPending p))

theorem State.dispatch_eq (s : State) (p : Byte) :
    s.dispatch p =
      { s with
        ime := false
        sp := s.sp - 2
        pc := Irq.vector (lowestPending p)
        mem := (s.dispatch p).mem
        bus := s.bus ++
          [.read Config.ifAddr (s.memPeek Config.ifAddr), .write Config.ifAddr (s.acknowledged p),
            .write (s.sp - 1) (hiByte s.pc), .write (s.sp - 2) (loByte s.pc)] } := by
  have h : s.dispatch p =
      (((s.setIme false).acknowledge (lowestPending p)).push16 s.pc).setPc (Irq.vector (lowestPending p)) := rfl
  rw [h, State.push16_eq]
  simp only [State.acknowledge, State.memRead_eq, State.memWrite_eq, State.setPc, State.setIme, List.append_assoc,
    List.cons_append, List.nil_append]
  rfl

theorem State.memPeek_dispatch (s : State) (p : Byte) (a : Word) :
    (s.dispatch p).memPeek a =
      if a = s.sp - 2 then loByte s.pc
      else if a = s.sp - 1 then hiByte s.pc
      else if a = Config.ifAddr then s.acknowledged p
      else s.memPeek a := by
  show (State.push16 ((s.setIme false).acknowledge (lowestPending p)) s.pc).memPeek a = _
  rw [State.memPeek_push16]
  show (if a = s.sp - 2 then _ else if a = s.sp - 1 then _ else State.memPeek (State.memWrite _ _ _) a) = _
  rw [State.memPeek_memWrite]
  rfl

/-! ### The branches -/

theorem step_fault {s : State} {d : DecodeFault} (h : s.fault = some d) :
    step s = .fault (.decodeFault d.op d.prefixed) := by simp [step, stepCycle, h]

/-- The step, with its tests made on the state before the record is cleared. -/
theorem step_eq {s : State} (hf : s.fault = none) :
    step s =
      if s.ime && s.pendingMask != 0 then .next ((s.clearBus.setHalted false).dispatch s.pendingMask)
      else if s.halted && s.pendingMask == 0 then .next s.clearBus
      else (s.clearBus.setHalted false).runInstr := by
  unfold step stepCycle
  rw [hf]
  rfl

theorem step_dispatch {s : State} (hf : s.fault = none) (hi : s.ime = true) (hp : s.pendingMask ≠ 0) :
    step s = .next ((s.clearBus.setHalted false).dispatch s.pendingMask) := by
  rw [step_eq hf, hi, bne_iff_ne.mpr hp]
  rfl

theorem step_idle {s : State} (hf : s.fault = none) (hh : s.halted = true) (hp : s.pendingMask = 0) :
    step s = .next s.clearBus := by
  rw [step_eq hf, hh, hp, bne_self_eq_false, Bool.and_false]
  rfl

theorem step_runsInstr {s : State} (h : s.runsInstr) : step s = (s.clearBus.setHalted false).runInstr := by
  obtain ⟨hf, hi, hh⟩ := h
  rw [step_eq hf, if_neg, if_neg]
  · intro e
    rw [Bool.and_eq_true, beq_iff_eq] at e
    exact hh e.1 e.2
  · intro e
    rw [Bool.and_eq_true, bne_iff_ne] at e
    exact e.2 (hi e.1)

/-- Every state without a latched fault takes one of the three branches. -/
theorem State.branches (s : State) (hf : s.fault = none) :
    (s.ime = true ∧ s.pendingMask ≠ 0) ∨ (s.halted = true ∧ s.pendingMask = 0) ∨ s.runsInstr := by
  by_cases hp : s.pendingMask = 0
  · cases hh : s.halted with
    | true => exact .inr (.inl ⟨rfl, hp⟩)
    | false => exact .inr (.inr ⟨hf, fun _ => hp, fun h => by simp [hh] at h⟩)
  · cases hi : s.ime with
    | true => exact .inl ⟨rfl, hp⟩
    | false => exact .inr (.inr ⟨hf, fun h => by simp [hi] at h, fun _ => hp⟩)

/-! ### The opcode fetch -/

theorem State.fetchInstr_eq (s : State) :
    s.fetchInstr =
      if s.imm8 = cbPrefix then
        (some (cbRow (s.memPeek (s.pc + 1))).toInstr, s.memPeek (s.pc + 1),
          { s with pc := s.pc + 2, bus := s.bus ++ s.imm16Read })
      else (decodeWith s.params.illegalOpcodes s.imm8 false, s.imm8, { s with pc := s.pc + 1, bus := s.bus ++ s.imm8Read }) := by
  have h : s.pc + 1 + 1 = s.pc + 2 := by rw [BitVec.add_assoc]; rfl
  unfold State.fetchInstr
  rw [State.fetch8_eq]
  simp only
  split
  · rw [State.fetch8_eq]
    simp only [decodeWith, if_true, List.append_assoc, h]
    rfl
  · rfl

/-- The meaning of the decoded instruction runs, and the commit follows. -/
theorem State.runInstr_some {s s1 t : State} {i : Instr} {b : Byte} (hf : s.fetchInstr = (some i, b, s1))
    (ht : exec i s1 = .next t) : s.runInstr = .next (t.commitImePending s.imePending) := by
  unfold State.runInstr
  simp only [hf, ht, commitAfter]

theorem State.commitImePending_eq (t : State) (p0 : Bool) :
    t.commitImePending p0 = if p0 && t.imePending then { t with ime := true, imePending := false } else t := rfl

end Sys2Proof.Machine
end

