-- ==== Sys2Proof/Laws/Decode.lean ====
section
/-! SUPPORT. How many opcode bytes an instruction has, and what the opcode fetch of a step gives (30_encoding.md R90,
R106). -/

namespace Sys2Proof.Machine

/-- A row of the base table that is an instruction is one of one opcode byte, not the prefix. -/
theorem baseRow_spec (op : Byte) (h : (baseRow op).wf = true) :
    op ≠ cbPrefix ∧ encode (baseRow op) = [op] ∧ (baseRow op).format.opcodeBytes = 1 := by
  revert op
  decide

/-- The rows of the base table that are none are the prefix and the 11 bytes of R108. -/
theorem baseRow_wf_iff (op : Byte) : (baseRow op).wf = false ↔ op = cbPrefix ∨ op ∈ Config.illegalOpcodes := by
  revert op
  decide

theorem decode_eq (op : Byte) (prefixed : Bool) :
    decode op prefixed = decodeWith Config.illegalOpcodes op prefixed := rfl

theorem decodeBytes_eq (bytes : List Byte) : decodeBytes bytes = decodeBytesWith Config.illegalOpcodes bytes := rfl

theorem decodeWith_true (illegal : List Byte) (op : Byte) : decodeWith illegal op true = some (cbRow op).toInstr := rfl

/-- What the decoder answers without the prefix, under any `ILLEGAL_OPCODES`. -/
theorem decodeWith_false_iff {illegal : List Byte} {op : Byte} {i : Instr} :
    decodeWith illegal op false = some i ↔ op ∉ illegal ∧ (baseRow op).wf = true ∧ i = baseRow op := by
  unfold decodeWith
  split
  · contradiction
  split
  · simp [*]
  split
  · simp [*, eq_comm]
  · simp [*]

theorem decodeWith_false_none {illegal : List Byte} {op : Byte} :
    decodeWith illegal op false = none ↔ op ∈ illegal ∨ op = cbPrefix ∨ op ∈ Config.illegalOpcodes := by
  rw [← baseRow_wf_iff]
  unfold decodeWith
  split
  · contradiction
  split
  · simp [*]
  split <;> simp [*]

/-- Every unprefixed instruction has one opcode byte and is well-formed. -/
theorem decodeWith_false_spec {illegal : List Byte} {op : Byte} {i : Instr}
    (h : decodeWith illegal op false = some i) :
    op ≠ cbPrefix ∧ i.wf = true ∧ encode i = [op] ∧ i.format.opcodeBytes = 1 := by
  obtain ⟨_, hw, rfl⟩ := decodeWith_false_iff.mp h
  exact ⟨(baseRow_spec op hw).1, hw, (baseRow_spec op hw).2⟩

/-- Every prefixed instruction has two. -/
theorem cbRow_spec (op : Byte) :
    (cbRow op).toInstr.wf = true ∧ encode (cbRow op).toInstr = [cbPrefix, op] ∧
      (cbRow op).toInstr.format.opcodeBytes = 2 := by
  revert op
  decide

theorem decodeBytesWith_prefixed (illegal : List Byte) (op : Byte) (rest : List Byte) :
    decodeBytesWith illegal (cbPrefix :: op :: rest) = .ok ((cbRow op).toInstr, rest) := by simp [decodeBytesWith]

theorem decodeBytesWith_plain {illegal : List Byte} {op : Byte} {i : Instr}
    (h : decodeWith illegal op false = some i) (rest : List Byte) :
    decodeBytesWith illegal (op :: rest) = .ok (i, rest) := by
  simp [decodeBytesWith, (decodeWith_false_spec h).1, h]

/-- The two ways the bytes at `pc` decode. -/
theorem State.decodesTo_cases {s : State} {i : Instr} (h : s.decodesTo i) :
    (s.imm8 = cbPrefix ∧ i = (cbRow (s.memPeek (s.pc + 1))).toInstr) ∨
      (s.imm8 ≠ cbPrefix ∧ decodeWith s.params.illegalOpcodes s.imm8 false = some i) := by
  obtain ⟨rest, h⟩ := h
  by_cases hp : s.memPeek s.pc = cbPrefix
  · simp only [decodeBytesWith, hp, if_true] at h
    cases h
    exact .inl ⟨hp, rfl⟩
  · simp only [decodeBytesWith, hp, if_false] at h
    cases hd : decodeWith s.params.illegalOpcodes (s.memPeek s.pc) false with
    | none =>
      rw [hd] at h
      cases h
    | some j =>
      rw [hd] at h
      cases h
      exact .inr ⟨hp, hd⟩

/-- The opcode fetch of a step that executes ends in `s.fetched i`. -/
theorem State.fetchInstr_decodes {s : State} {i : Instr} (h : s.decodesTo i) :
    ∃ b, (s.clearBus.setHalted false).fetchInstr = (some i, b, s.fetched i) := by
  rw [State.fetchInstr_eq]
  rcases State.decodesTo_cases h with ⟨hp, rfl⟩ | ⟨hp, hd⟩
  · have hp' : (s.clearBus.setHalted false).imm8 = cbPrefix := hp
    refine ⟨s.memPeek (s.pc + 1), ?_⟩
    rw [if_pos hp']
    unfold State.fetched
    rw [(cbRow_spec _).2.2]
    simp [List.range_succ]
    exact ⟨rfl, rfl, rfl⟩
  · have hp' : (s.clearBus.setHalted false).imm8 ≠ cbPrefix := hp
    have hd' : decodeWith (s.clearBus.setHalted false).params.illegalOpcodes (s.clearBus.setHalted false).imm8 false =
        some i := hd
    refine ⟨s.imm8, ?_⟩
    rw [if_neg hp', hd']
    unfold State.fetched
    rw [(decodeWith_false_spec hd).2.2.2]
    simp [List.range_succ]
    exact ⟨rfl, rfl⟩

/-- The fetch is plain. -/
theorem plain_fetchInstr (s : State) : Plain s s.fetchInstr.2.2 := by
  unfold State.fetchInstr
  dsimp only
  split
  · exact (plain_fetch8 s).trans (plain_fetch8 _)
  · exact plain_fetch8 s

/-- A fetch that finds no instruction has read an illegal byte. -/
theorem State.fetchInstr_none {s s1 : State} {b : Byte} (h : s.fetchInstr = (none, b, s1)) : s.illegalByte b := by
  rw [State.fetchInstr_eq] at h
  split at h
  · simp at h
  · rename_i hp
    simp only [Prod.mk.injEq] at h
    obtain ⟨hd, rfl, _⟩ := h
    exact ⟨hp, (decodeWith_false_none.mp hd).imp_right fun h => h.resolve_left hp⟩

end Sys2Proof.Machine
end

