-- ==== Sys2Proof/Laws/PerInstr.lean ====
section
/-! SUPPORT. The form of every row's encoding, one lemma per constructor: as many opcode bytes as the row's format has
(30_encoding.md R90), the first of them 0xCB exactly for the rows behind the prefix and the prefix itself (R106). -/

namespace Sys2Proof.Laws.EncodeForm

/-- What holds of an instruction's encoding. -/
def Statement (i : Instr) : Prop :=
  (encode i).length = i.format.opcodeBytes ∧
    ((encode i).head? = some 0xCB#8 ↔ i.format = .cb ∨ i.format = .prefixByte)

theorem nop : Statement .nop := by unfold Statement; decide

theorem ldMemA16Sp : Statement .ldMemA16Sp := by unfold Statement; decide

theorem stop : Statement .stop := by unfold Statement; decide

theorem jrE8 : Statement .jrE8 := by unfold Statement; decide

theorem jrCcE8 (cc : Cond) : Statement (.jrCcE8 cc) := by
  unfold Statement
  cases cc <;> decide

theorem ldRrD16 (p : Pair) : Statement (.ldRrD16 p) := by
  unfold Statement
  cases p <;> decide

theorem addHlRr (p : Pair) : Statement (.addHlRr p) := by
  unfold Statement
  cases p <;> decide

theorem ldMemBcA : Statement .ldMemBcA := by unfold Statement; decide

theorem ldMemDeA : Statement .ldMemDeA := by unfold Statement; decide

theorem ldMemHlIncA : Statement .ldMemHlIncA := by unfold Statement; decide

theorem ldMemHlDecA : Statement .ldMemHlDecA := by unfold Statement; decide

theorem ldAMemBc : Statement .ldAMemBc := by unfold Statement; decide

theorem ldAMemDe : Statement .ldAMemDe := by unfold Statement; decide

theorem ldAMemHlInc : Statement .ldAMemHlInc := by unfold Statement; decide

theorem ldAMemHlDec : Statement .ldAMemHlDec := by unfold Statement; decide

theorem incRr (p : Pair) : Statement (.incRr p) := by
  unfold Statement
  cases p <;> decide

theorem decRr (p : Pair) : Statement (.decRr p) := by
  unfold Statement
  cases p <;> decide

theorem incR8 (r : Op8) : Statement (.incR8 r) := by
  unfold Statement
  rcases r with n | _
  · cases n <;> decide
  · decide

theorem decR8 (r : Op8) : Statement (.decR8 r) := by
  unfold Statement
  rcases r with n | _
  · cases n <;> decide
  · decide

theorem ldR8D8 (r : Op8) : Statement (.ldR8D8 r) := by
  unfold Statement
  rcases r with n | _
  · cases n <;> decide
  · decide

theorem rlca : Statement .rlca := by unfold Statement; decide

theorem rrca : Statement .rrca := by unfold Statement; decide

theorem rla : Statement .rla := by unfold Statement; decide

theorem rra : Statement .rra := by unfold Statement; decide

theorem daa : Statement .daa := by unfold Statement; decide

theorem cpl : Statement .cpl := by unfold Statement; decide

theorem scf : Statement .scf := by unfold Statement; decide

theorem ccf : Statement .ccf := by unfold Statement; decide

theorem ldBR8 (s : Op8) : Statement (.ldBR8 s) := by
  unfold Statement
  rcases s with n | _
  · cases n <;> decide
  · decide

theorem ldCR8 (s : Op8) : Statement (.ldCR8 s) := by
  unfold Statement
  rcases s with n | _
  · cases n <;> decide
  · decide

theorem ldDR8 (s : Op8) : Statement (.ldDR8 s) := by
  unfold Statement
  rcases s with n | _
  · cases n <;> decide
  · decide

theorem ldER8 (s : Op8) : Statement (.ldER8 s) := by
  unfold Statement
  rcases s with n | _
  · cases n <;> decide
  · decide

theorem ldHR8 (s : Op8) : Statement (.ldHR8 s) := by
  unfold Statement
  rcases s with n | _
  · cases n <;> decide
  · decide

theorem ldLR8 (s : Op8) : Statement (.ldLR8 s) := by
  unfold Statement
  rcases s with n | _
  · cases n <;> decide
  · decide

theorem ldMemHlB : Statement .ldMemHlB := by unfold Statement; decide

theorem ldMemHlC : Statement .ldMemHlC := by unfold Statement; decide

theorem ldMemHlD : Statement .ldMemHlD := by unfold Statement; decide

theorem ldMemHlE : Statement .ldMemHlE := by unfold Statement; decide

theorem ldMemHlH : Statement .ldMemHlH := by unfold Statement; decide

theorem ldMemHlL : Statement .ldMemHlL := by unfold Statement; decide

theorem ldMemHlA : Statement .ldMemHlA := by unfold Statement; decide

theorem halt : Statement .halt := by unfold Statement; decide

theorem ldAR8 (s : Op8) : Statement (.ldAR8 s) := by
  unfold Statement
  rcases s with n | _
  · cases n <;> decide
  · decide

theorem addAR8 (r : Op8) : Statement (.addAR8 r) := by
  unfold Statement
  rcases r with n | _
  · cases n <;> decide
  · decide

theorem adcAR8 (r : Op8) : Statement (.adcAR8 r) := by
  unfold Statement
  rcases r with n | _
  · cases n <;> decide
  · decide

theorem subR8 (r : Op8) : Statement (.subR8 r) := by
  unfold Statement
  rcases r with n | _
  · cases n <;> decide
  · decide

theorem sbcAR8 (r : Op8) : Statement (.sbcAR8 r) := by
  unfold Statement
  rcases r with n | _
  · cases n <;> decide
  · decide

theorem andR8 (r : Op8) : Statement (.andR8 r) := by
  unfold Statement
  rcases r with n | _
  · cases n <;> decide
  · decide

theorem xorR8 (r : Op8) : Statement (.xorR8 r) := by
  unfold Statement
  rcases r with n | _
  · cases n <;> decide
  · decide

theorem orR8 (r : Op8) : Statement (.orR8 r) := by
  unfold Statement
  rcases r with n | _
  · cases n <;> decide
  · decide

theorem cpR8 (r : Op8) : Statement (.cpR8 r) := by
  unfold Statement
  rcases r with n | _
  · cases n <;> decide
  · decide

theorem retCc (cc : Cond) : Statement (.retCc cc) := by
  unfold Statement
  cases cc <;> decide

theorem ldhMemA8A : Statement .ldhMemA8A := by unfold Statement; decide

theorem addSpE8 : Statement .addSpE8 := by unfold Statement; decide

theorem ldhAMemA8 : Statement .ldhAMemA8 := by unfold Statement; decide

theorem ldHlSpE8 : Statement .ldHlSpE8 := by unfold Statement; decide

theorem popRr (p : StackPair) : Statement (.popRr p) := by
  unfold Statement
  cases p <;> decide

theorem ret : Statement .ret := by unfold Statement; decide

theorem reti : Statement .reti := by unfold Statement; decide

theorem jpHl : Statement .jpHl := by unfold Statement; decide

theorem ldSpHl : Statement .ldSpHl := by unfold Statement; decide

theorem jpCcA16 (cc : Cond) : Statement (.jpCcA16 cc) := by
  unfold Statement
  cases cc <;> decide

theorem ldMemCA : Statement .ldMemCA := by unfold Statement; decide

theorem ldMemA16A : Statement .ldMemA16A := by unfold Statement; decide

theorem ldAMemC : Statement .ldAMemC := by unfold Statement; decide

theorem ldAMemA16 : Statement .ldAMemA16 := by unfold Statement; decide

theorem jpA16 : Statement .jpA16 := by unfold Statement; decide

theorem prefixCb : Statement .prefixCb := ⟨rfl, fun _ => .inr rfl, fun _ => rfl⟩

theorem di : Statement .di := by unfold Statement; decide

theorem ei : Statement .ei := by unfold Statement; decide

theorem callCcA16 (cc : Cond) : Statement (.callCcA16 cc) := by
  unfold Statement
  cases cc <;> decide

theorem pushRr (p : StackPair) : Statement (.pushRr p) := by
  unfold Statement
  cases p <;> decide

theorem callA16 : Statement .callA16 := by unfold Statement; decide

theorem addAD8 : Statement .addAD8 := by unfold Statement; decide

theorem adcAD8 : Statement .adcAD8 := by unfold Statement; decide

theorem subD8 : Statement .subD8 := by unfold Statement; decide

theorem sbcAD8 : Statement .sbcAD8 := by unfold Statement; decide

theorem andD8 : Statement .andD8 := by unfold Statement; decide

theorem xorD8 : Statement .xorD8 := by unfold Statement; decide

theorem orD8 : Statement .orD8 := by unfold Statement; decide

theorem cpD8 : Statement .cpD8 := by unfold Statement; decide

theorem rstT (t : BitVec 3) : Statement (.rstT t) := by
  unfold Statement
  revert t
  decide

theorem illegalD3 : Statement .illegalD3 := by unfold Statement; decide

theorem illegalDB : Statement .illegalDB := by unfold Statement; decide

theorem illegalDD : Statement .illegalDD := by unfold Statement; decide

theorem illegalE3 : Statement .illegalE3 := by unfold Statement; decide

theorem illegalE4 : Statement .illegalE4 := by unfold Statement; decide

theorem illegalEB : Statement .illegalEB := by unfold Statement; decide

theorem illegalEC : Statement .illegalEC := by unfold Statement; decide

theorem illegalED : Statement .illegalED := by unfold Statement; decide

theorem illegalF4 : Statement .illegalF4 := by unfold Statement; decide

theorem illegalFC : Statement .illegalFC := by unfold Statement; decide

theorem illegalFD : Statement .illegalFD := by unfold Statement; decide

theorem rlcR8 (r : Op8) : Statement (.rlcR8 r) := ⟨rfl, fun _ => .inl rfl, fun _ => rfl⟩

theorem rrcR8 (r : Op8) : Statement (.rrcR8 r) := ⟨rfl, fun _ => .inl rfl, fun _ => rfl⟩

theorem rlR8 (r : Op8) : Statement (.rlR8 r) := ⟨rfl, fun _ => .inl rfl, fun _ => rfl⟩

theorem rrR8 (r : Op8) : Statement (.rrR8 r) := ⟨rfl, fun _ => .inl rfl, fun _ => rfl⟩

theorem slaR8 (r : Op8) : Statement (.slaR8 r) := ⟨rfl, fun _ => .inl rfl, fun _ => rfl⟩

theorem sraR8 (r : Op8) : Statement (.sraR8 r) := ⟨rfl, fun _ => .inl rfl, fun _ => rfl⟩

theorem swapR8 (r : Op8) : Statement (.swapR8 r) := ⟨rfl, fun _ => .inl rfl, fun _ => rfl⟩

theorem srlR8 (r : Op8) : Statement (.srlR8 r) := ⟨rfl, fun _ => .inl rfl, fun _ => rfl⟩

theorem bitBR8 (b : BitVec 3) (r : Op8) : Statement (.bitBR8 b r) := ⟨rfl, fun _ => .inl rfl, fun _ => rfl⟩

theorem resBR8 (b : BitVec 3) (r : Op8) : Statement (.resBR8 b r) := ⟨rfl, fun _ => .inl rfl, fun _ => rfl⟩

theorem setBR8 (b : BitVec 3) (r : Op8) : Statement (.setBR8 b r) := ⟨rfl, fun _ => .inl rfl, fun _ => rfl⟩

end Sys2Proof.Laws.EncodeForm
end

