-- ==== Sys2Proof/Tests/Slice0.lean ====
section
/-! SUPPORT. Tests of the model, and witnesses for the hypotheses of the statements. Decode tests are words written
from the patterns of 30_encoding.md R100 and R102. A step test named after a vector `V<n>` takes its start state and its
expected values from that row of 95_test_vectors.md; the others are worked by hand from the rule of the instruction. -/

namespace Sys2Proof.Tests
open Sys2Proof Sys2Proof.Machine

/-- A register file of zero bytes. -/
def zeros : Regs := ⟨0, 0, 0, 0, 0, 0, 0, 0⟩

/-- The default state of 95_test_vectors.md with the bytes of a program at an address. -/
def loadedAt (a : Word) (prog : List Byte) : State :=
  { State.resetWith ResetParams.chosen with regs := zeros }.pokeBytes a prog

/-- The same at address 0, where `pc` is. -/
def loaded (prog : List Byte) : State := loadedAt 0 prog

/-- The next state, if there is one. -/
def nextState : Result → Option State
  | .next t => some t
  | .fault _ | .refused _ => none

/-- What one reads off the state one step later, if there is one. -/
def gives {α : Type} (s : State) (f : State → α) : Option α := (nextState (step s)).map f

/-! ### Well-formed syntax -/

theorem test_wf_accepts : Instr.wf .nop = true ∧ Instr.wf (.bitBR8 7 .memHl) = true ∧ Instr.wf .callA16 = true := by
  decide

/-- The prefix byte is "never an instruction by itself" (R90). -/
theorem test_wf_refuses_prefix_byte : Instr.wf .prefixCb = false := by decide

/-- The 11 bytes "for which the decoder returns none" (R90, R108). -/
theorem test_wf_refuses_illegal : ∀ i ∈ [Instr.illegalD3, .illegalDB, .illegalDD, .illegalE3, .illegalE4, .illegalEB,
    .illegalEC, .illegalED, .illegalF4, .illegalFC, .illegalFD], Instr.wf i = false := by decide

/-! ### Decoding -/

theorem test_decode_system :
    decode 0b00000000#8 false = some .nop ∧
    decode 0b00010000#8 false = some .stop ∧
    decode 0b01110110#8 false = some .halt ∧
    decode 0b11110011#8 false = some .di ∧
    decode 0b11111011#8 false = some .ei := by
  decide

theorem test_decode_loads :
    decode 0b00001000#8 false = some .ldMemA16Sp ∧
    decode 0b00000001#8 false = some (.ldRrD16 .bc) ∧
    decode 0b00000010#8 false = some .ldMemBcA ∧
    decode 0b00010010#8 false = some .ldMemDeA ∧
    decode 0b00100010#8 false = some .ldMemHlIncA ∧
    decode 0b00110010#8 false = some .ldMemHlDecA ∧
    decode 0b00001010#8 false = some .ldAMemBc ∧
    decode 0b00011010#8 false = some .ldAMemDe ∧
    decode 0b00101010#8 false = some .ldAMemHlInc ∧
    decode 0b00111010#8 false = some .ldAMemHlDec ∧
    decode 0b00010110#8 false = some (.ldR8D8 (.reg .d)) ∧
    decode 0b11100000#8 false = some .ldhMemA8A ∧
    decode 0b11110000#8 false = some .ldhAMemA8 ∧
    decode 0b11111001#8 false = some .ldSpHl ∧
    decode 0b11100010#8 false = some .ldMemCA ∧
    decode 0b11101010#8 false = some .ldMemA16A ∧
    decode 0b11110010#8 false = some .ldAMemC ∧
    decode 0b11111010#8 false = some .ldAMemA16 := by
  decide

theorem test_decode_control :
    decode 0b00011000#8 false = some .jrE8 ∧
    decode 0b00111000#8 false = some (.jrCcE8 .c) ∧
    decode 0b11010000#8 false = some (.retCc .nc) ∧
    decode 0b11001001#8 false = some .ret ∧
    decode 0b11011001#8 false = some .reti ∧
    decode 0b11101001#8 false = some .jpHl ∧
    decode 0b11000010#8 false = some (.jpCcA16 .nz) ∧
    decode 0b11000011#8 false = some .jpA16 ∧
    decode 0b11001100#8 false = some (.callCcA16 .z) ∧
    decode 0b11001101#8 false = some .callA16 ∧
    decode 0b11101111#8 false = some (.rstT 5) := by
  decide

theorem test_decode_alu16 :
    decode 0b00011001#8 false = some (.addHlRr .de) ∧
    decode 0b00100011#8 false = some (.incRr .hl) ∧
    decode 0b00111011#8 false = some (.decRr .sp) ∧
    decode 0b11101000#8 false = some .addSpE8 ∧
    decode 0b11111000#8 false = some .ldHlSpE8 := by
  decide

theorem test_decode_alu8 :
    decode 0b00000100#8 false = some (.incR8 (.reg .b)) ∧
    decode 0b00101101#8 false = some (.decR8 (.reg .l)) ∧
    decode 0b00100111#8 false = some .daa ∧
    decode 0b00101111#8 false = some .cpl ∧
    decode 0b00110111#8 false = some .scf ∧
    decode 0b00111111#8 false = some .ccf ∧
    decode 0b10000010#8 false = some (.addAR8 (.reg .d)) ∧
    decode 0b10001111#8 false = some (.adcAR8 (.reg .a)) ∧
    decode 0b10010100#8 false = some (.subR8 (.reg .h)) ∧
    decode 0b10011001#8 false = some (.sbcAR8 (.reg .c)) ∧
    decode 0b10100110#8 false = some (.andR8 .memHl) ∧
    decode 0b10101011#8 false = some (.xorR8 (.reg .e)) ∧
    decode 0b10110000#8 false = some (.orR8 (.reg .b)) ∧
    decode 0b10111101#8 false = some (.cpR8 (.reg .l)) ∧
    decode 0b11000110#8 false = some .addAD8 ∧
    decode 0b11001110#8 false = some .adcAD8 ∧
    decode 0b11010110#8 false = some .subD8 ∧
    decode 0b11011110#8 false = some .sbcAD8 ∧
    decode 0b11100110#8 false = some .andD8 ∧
    decode 0b11101110#8 false = some .xorD8 ∧
    decode 0b11110110#8 false = some .orD8 ∧
    decode 0b11111110#8 false = some .cpD8 := by
  decide

theorem test_decode_accumulator_rotates :
    decode 0b00000111#8 false = some .rlca ∧
    decode 0b00001111#8 false = some .rrca ∧
    decode 0b00010111#8 false = some .rla ∧
    decode 0b00011111#8 false = some .rra := by
  decide

theorem test_decode_load_block :
    decode 0b01000111#8 false = some (.ldBR8 (.reg .a)) ∧
    decode 0b01001100#8 false = some (.ldCR8 (.reg .h)) ∧
    decode 0b01010001#8 false = some (.ldDR8 (.reg .c)) ∧
    decode 0b01011110#8 false = some (.ldER8 .memHl) ∧
    decode 0b01100011#8 false = some (.ldHR8 (.reg .e)) ∧
    decode 0b01101000#8 false = some (.ldLR8 (.reg .b)) ∧
    decode 0b01110000#8 false = some .ldMemHlB ∧
    decode 0b01110001#8 false = some .ldMemHlC ∧
    decode 0b01110010#8 false = some .ldMemHlD ∧
    decode 0b01110011#8 false = some .ldMemHlE ∧
    decode 0b01110100#8 false = some .ldMemHlH ∧
    decode 0b01110101#8 false = some .ldMemHlL ∧
    decode 0b01110111#8 false = some .ldMemHlA ∧
    decode 0b01111101#8 false = some (.ldAR8 (.reg .l)) := by
  decide

theorem test_decode_stack :
    decode 0b11110001#8 false = some (.popRr .af) ∧
    decode 0b11100101#8 false = some (.pushRr .hl) := by
  decide

theorem test_decode_prefixed :
    decode 0b00000100#8 true = some (.rlcR8 (.reg .h)) ∧
    decode 0b00001001#8 true = some (.rrcR8 (.reg .c)) ∧
    decode 0b00010110#8 true = some (.rlR8 .memHl) ∧
    decode 0b00011011#8 true = some (.rrR8 (.reg .e)) ∧
    decode 0b00100000#8 true = some (.slaR8 (.reg .b)) ∧
    decode 0b00101101#8 true = some (.sraR8 (.reg .l)) ∧
    decode 0b00110010#8 true = some (.swapR8 (.reg .d)) ∧
    decode 0b00111111#8 true = some (.srlR8 (.reg .a)) ∧
    decode 0b01100100#8 true = some (.bitBR8 4 (.reg .h)) ∧
    decode 0b10001001#8 true = some (.resBR8 1 (.reg .c)) ∧
    decode 0b11110110#8 true = some (.setBR8 6 .memHl) := by
  decide

/-- Bytes are refused by name: none at all, a prefix with nothing behind it, a byte without an instruction. -/
theorem test_decode_refuses :
    decodeBytes [] = .error .noByte ∧
    decodeBytes [0b11001011#8] = .error .nothingAfterPrefix ∧
    decodeBytes [0b11010011#8, 0x00#8] = .error (.noInstruction 0xD3#8) ∧
    decodeBytes [0b11111101#8] = .error (.noInstruction 0xFD#8) := ⟨rfl, rfl, rfl, rfl⟩

/-- The second byte of a prefixed instruction selects it, 0xCB included; what follows is left over. -/
theorem test_decode_bytes :
    decodeBytes [0b11001011#8, 0b01111110#8, 0x12#8] = .ok (.bitBR8 7 .memHl, [0x12#8]) ∧
    decodeBytes [0b11001011#8, 0b11001011#8] = .ok (.setBR8 1 (.reg .e), []) ∧
    decodeBytes [0b11000011#8, 0x50#8, 0x01#8] = .ok (.jpA16, [0x50#8, 0x01#8]) := ⟨rfl, rfl, rfl⟩

/-- Words numbered as the opcode table numbers them: the first byte is the low one. -/
theorem test_decode_table_word :
    decodeTableWord 8 0b01110110 = some .halt ∧
    decodeTableWord 24 0x0150C3 = some .jpA16 ∧
    decodeTableWord 16 0x7ECB = some (.bitBR8 7 .memHl) ∧
    decodeTableWord 8 0xCB = some .prefixCb ∧
    decodeTableWord 8 0xE4 = some .illegalE4 := by decide

/-- Lengths: the examples of R105 and of the table's format column. -/
theorem test_lengths :
    Instr.length .nop = 1 ∧ Instr.length .jrE8 = 2 ∧ Instr.length .callA16 = 3 ∧
    Instr.length (.jpCcA16 .nz) = 3 ∧ Instr.length (.setBR8 0 .memHl) = 2 ∧ Instr.length .stop = 1 := by decide

/-! ### The arithmetic primitives (vectors A5, A6, A13, A21, A26) -/

theorem test_primitives :
    overflowAdd8 0x0F 0x00 true = ⟨0x10, false, true⟩ ∧
    overflowAdd8 0xFF 0xFF true = ⟨0xFF, true, true⟩ ∧
    overflowAdd16 0x0FFF 0x0000 true = ⟨0x1000, false, true⟩ ∧
    subtractWithBorrow8 0x00 0xFF true = ⟨0x00, true, true⟩ ∧
    subtractWithBorrow16 0x0000 0xFFFF true = ⟨0x0000, true, true⟩ := by decide

/-! ### One step of every instruction -/

theorem test_nop_V201 :
    gives ({ loadedAt 0xFFFF [0x00] with pc := 0xFFFF })
      (fun t => (t.regs.f, t.pc)) = some (0x00, 0x0000) := by decide

theorem test_ldMemA16Sp_V184 :
    gives ({ loaded [0x08, 0x00, 0xC1] with sp := 0xFFF8 })
      (fun t => (t.regs.f, t.pc, t.memPeek 0xC100, t.memPeek 0xC101)) = some (0x00, 0x0003, 0xF8, 0xFF) := by decide

theorem test_ldMemA16Sp_V185 :
    gives ({ loaded [0x08, 0xFF, 0xFF] with sp := 0x1204 })
      (fun t => (t.regs.f, t.pc, t.memPeek 0x0000, t.memPeek 0xFFFF)) = some (0x00, 0x0003, 0x12, 0x04) := by decide

theorem test_stop : gives (loaded [0x10, 0x00, 0x3C]) (fun t => (t.halted, t.pc)) = some (true, 0x0001) := by decide

theorem test_jrE8_V126 :
    gives ({ loadedAt 0x0100 [0x18, 0x80] with pc := 0x0100 })
      (fun t => (t.regs.f, t.pc)) = some (0x00, 0x0082) := by decide

theorem test_jrE8_V127 :
    gives ({ loadedAt 0xFFF0 [0x18, 0x7F] with pc := 0xFFF0 })
      (fun t => (t.regs.f, t.pc)) = some (0x00, 0x0071) := by decide

theorem test_jrCcE8_V129 :
    gives ({ loaded [0x20, 0x05] with regs := { zeros with f := 0x80 } })
      (fun t => (t.regs.f, t.pc)) = some (0x80, 0x0002) := by decide

theorem test_jrCcE8_V131 :
    gives ({ loadedAt 0x0010 [0x30, 0xFC] with pc := 0x0010 })
      (fun t => (t.regs.f, t.pc)) = some (0x00, 0x000E) := by decide

theorem test_ldRrD16_V163 :
    gives (loaded [0x01, 0x34, 0x12])
      (fun t => (t.regs.f, t.regs.b, t.regs.c, t.pc)) = some (0x00, 0x12, 0x34, 0x0003) := by decide

theorem test_ldRrD16_V166 :
    gives (loaded [0x31, 0x00, 0xD0])
      (fun t => (t.regs.f, t.sp, t.pc)) = some (0x00, 0xD000, 0x0003) := by decide

theorem test_addHlRr_V67 :
    gives ({ loaded [0x09] with regs := { zeros with f := 0x80, b := 0x06, c := 0x05, h := 0x8A, l := 0x23 } })
      (fun t => (t.regs.f, t.regs.h, t.regs.l, t.pc)) = some (0xA0, 0x90, 0x28, 0x0001) := by decide

theorem test_addHlRr_V68 :
    gives ({ loaded [0x19] with regs := { zeros with f := 0x40, e := 0x01, h := 0xFF, l := 0xFF } })
      (fun t => (t.regs.f, t.regs.h, t.regs.l, t.pc)) = some (0x30, 0x00, 0x00, 0x0001) := by decide

theorem test_ldMemBcA_V167 :
    gives ({ loaded [0x02] with regs := { zeros with a := 0x55, b := 0xC0, c := 0x10 } })
      (fun t => (t.regs.f, t.pc, t.memPeek 0xC010)) = some (0x00, 0x0001, 0x55) := by decide

theorem test_ldMemDeA_V168 :
    gives ({ loaded [0x12] with regs := { zeros with a := 0x66, d := 0xC0, e := 0x20 } })
      (fun t => (t.regs.f, t.pc, t.memPeek 0xC020)) = some (0x00, 0x0001, 0x66) := by decide

theorem test_ldMemHlIncA_V171 :
    gives ({ loaded [0x22] with regs := { zeros with a := 0x77, h := 0xC0, l := 0xFF } })
      (fun t => (t.regs.f, t.regs.h, t.regs.l, t.pc, t.memPeek 0xC0FF)) = some (0x00, 0xC1, 0x00, 0x0001, 0x77) := by decide

theorem test_ldMemHlIncA_V172 :
    gives ({ loaded [0x22] with regs := { zeros with a := 0x01, h := 0xFF, l := 0xFF } })
      (fun t => (t.regs.f, t.regs.h, t.regs.l, t.pc, t.memPeek 0xFFFF)) = some (0x00, 0x00, 0x00, 0x0001, 0x01) := by decide

theorem test_ldMemHlDecA_V174 :
    gives ({ loaded [0x32] with regs := { zeros with a := 0x88, h := 0xC0 } })
      (fun t => (t.regs.f, t.regs.h, t.regs.l, t.pc, t.memPeek 0xC000)) = some (0x00, 0xBF, 0xFF, 0x0001, 0x88) := by decide

theorem test_ldMemHlDecA_V175 :
    gives ({ loaded [0x32] with regs := { zeros with a := 0x3C } })
      (fun t => (t.regs.f, t.regs.h, t.regs.l, t.pc, t.memPeek 0x0000)) = some (0x00, 0xFF, 0xFF, 0x0001, 0x3C) := by decide

theorem test_ldAMemBc_V169 :
    gives ({ (loaded [0x0A]).poke 0xC010 0x11 with regs := { zeros with b := 0xC0, c := 0x10 } })
      (fun t => (t.regs.a, t.regs.f, t.pc)) = some (0x11, 0x00, 0x0001) := by decide

theorem test_ldAMemDe_V170 :
    gives ({ (loaded [0x1A]).poke 0xC020 0x22 with regs := { zeros with d := 0xC0, e := 0x20 } })
      (fun t => (t.regs.a, t.regs.f, t.pc)) = some (0x22, 0x00, 0x0001) := by decide

theorem test_ldAMemHlInc_V173 :
    gives ({ (loaded [0x2A]).poke 0xC000 0x33 with regs := { zeros with h := 0xC0 } })
      (fun t => (t.regs.a, t.regs.f, t.regs.l, t.pc)) = some (0x33, 0x00, 0x01, 0x0001) := by decide

theorem test_ldAMemHlDec_V176 :
    gives ({ (loaded [0x3A]).poke 0xC100 0x44 with regs := { zeros with h := 0xC1 } })
      (fun t => (t.regs.a, t.regs.f, t.regs.h, t.regs.l, t.pc)) = some (0x44, 0x00, 0xC0, 0xFF, 0x0001) := by decide

theorem test_incRr_V59 :
    gives ({ loaded [0x03] with regs := { zeros with f := 0xF0, b := 0xFF, c := 0xFF } })
      (fun t => (t.regs.f, t.regs.b, t.regs.c, t.pc)) = some (0xF0, 0x00, 0x00, 0x0001) := by decide

theorem test_incRr_V62 :
    gives ({ loaded [0x33] with sp := 0xFFFF })
      (fun t => (t.regs.f, t.sp, t.pc)) = some (0x00, 0x0000, 0x0001) := by decide

theorem test_decRr_V65 :
    gives ({ loaded [0x2B] with regs := { zeros with h := 0x10 } })
      (fun t => (t.regs.f, t.regs.h, t.regs.l, t.pc)) = some (0x00, 0x0F, 0xFF, 0x0001) := by decide

theorem test_decRr_V66 :
    gives ({ loaded [0x3B] with sp := 0x0000 })
      (fun t => (t.regs.f, t.sp, t.pc)) = some (0x00, 0xFFFF, 0x0001) := by decide

theorem test_incR8_V33 :
    gives ({ loaded [0x04] with regs := { zeros with f := 0x10, b := 0xFF } })
      (fun t => (t.regs.f, t.regs.b, t.pc)) = some (0xB0, 0x00, 0x0001) := by decide

theorem test_incR8_V35 :
    gives ({ (loaded [0x34]).poke 0xC000 0x50 with regs := { zeros with h := 0xC0 } })
      (fun t => (t.regs.f, t.pc, t.memPeek 0xC000)) = some (0x00, 0x0001, 0x51) := by decide

theorem test_decR8_V37 :
    gives ({ loaded [0x05] with regs := { zeros with f := 0x10, b := 0x01 } })
      (fun t => (t.regs.f, t.regs.b, t.pc)) = some (0xD0, 0x00, 0x0001) := by decide

theorem test_decR8_V38 :
    gives (loaded [0x0D])
      (fun t => (t.regs.f, t.regs.c, t.pc)) = some (0x60, 0xFF, 0x0001) := by decide

theorem test_ldR8D8_V160 :
    gives (loaded [0x06, 0x42])
      (fun t => (t.regs.f, t.regs.b, t.pc)) = some (0x00, 0x42, 0x0002) := by decide

theorem test_ldR8D8_V162 :
    gives ({ loaded [0x36, 0xAB] with regs := { zeros with h := 0xC0 } })
      (fun t => (t.regs.f, t.pc, t.memPeek 0xC000)) = some (0x00, 0x0002, 0xAB) := by decide

theorem test_rlca_V82 :
    gives ({ loaded [0x07] with regs := { zeros with f := 0x10 } })
      (fun t => (t.regs.f, t.pc)) = some (0x00, 0x0001) := by decide

theorem test_rlca_V83 :
    gives ({ loaded [0x07] with regs := { zeros with a := 0x80, f := 0xE0 } })
      (fun t => (t.regs.a, t.regs.f, t.pc)) = some (0x01, 0xF0, 0x0001) := by decide

theorem test_rrca_V84 :
    gives ({ loaded [0x0F] with regs := { zeros with a := 0x3B } })
      (fun t => (t.regs.a, t.regs.f, t.pc)) = some (0x9D, 0x10, 0x0001) := by decide

theorem test_rla_V86 :
    gives ({ loaded [0x17] with regs := { zeros with a := 0x95, f := 0x10 } })
      (fun t => (t.regs.a, t.regs.f, t.pc)) = some (0x2B, 0x10, 0x0001) := by decide

theorem test_rla_V87 :
    gives ({ loaded [0x17] with regs := { zeros with a := 0x80 } })
      (fun t => (t.regs.a, t.regs.f, t.pc)) = some (0x00, 0x10, 0x0001) := by decide

theorem test_rra_V88 :
    gives ({ loaded [0x1F] with regs := { zeros with a := 0x81 } })
      (fun t => (t.regs.a, t.regs.f, t.pc)) = some (0x40, 0x10, 0x0001) := by decide

theorem test_rra_V89 :
    gives ({ loaded [0x1F] with regs := { zeros with f := 0x90 } })
      (fun t => (t.regs.a, t.regs.f, t.pc)) = some (0x80, 0x80, 0x0001) := by decide

theorem test_daa_V43 :
    gives ({ loaded [0x27] with regs := { zeros with a := 0x9A } })
      (fun t => (t.regs.a, t.regs.f, t.pc)) = some (0x00, 0x90, 0x0001) := by decide

theorem test_daa_V51 :
    gives ({ loaded [0x27] with regs := { zeros with a := 0x66, f := 0x70 } })
      (fun t => (t.regs.a, t.regs.f, t.pc)) = some (0x00, 0xD0, 0x0001) := by decide

theorem test_cpl_V53 :
    gives ({ loaded [0x2F] with regs := { zeros with a := 0x35, f := 0x90 } })
      (fun t => (t.regs.a, t.regs.f, t.pc)) = some (0xCA, 0xF0, 0x0001) := by decide

theorem test_cpl_V54 :
    gives ({ loaded [0x2F] with regs := { zeros with a := 0xFF } })
      (fun t => (t.regs.a, t.regs.f, t.pc)) = some (0x00, 0x60, 0x0001) := by decide

theorem test_scf_V55 :
    gives ({ loaded [0x37] with regs := { zeros with f := 0xE0 } })
      (fun t => (t.regs.f, t.pc)) = some (0x90, 0x0001) := by decide

theorem test_ccf_V57 :
    gives ({ loaded [0x3F] with regs := { zeros with f := 0xF0 } })
      (fun t => (t.regs.f, t.pc)) = some (0x80, 0x0001) := by decide

theorem test_ccf_V58 : gives (loaded [0x3F]) (fun t => (t.regs.f, t.pc)) = some (0x10, 0x0001) := by decide

theorem test_ldBR8_V154 :
    gives ({ loaded [0x41] with regs := { zeros with f := 0xF0, c := 0x5A } })
      (fun t => (t.regs.f, t.regs.b, t.pc)) = some (0xF0, 0x5A, 0x0001) := by decide

theorem test_ldCR8 :
    gives ({ loaded [0x4A] with regs := { zeros with d := 0x91, f := 0xF0 } })
      (fun t => (t.regs.c, t.regs.f)) = some (0x91, 0xF0) := by decide

theorem test_ldDR8_V156 :
    gives ({ (loaded [0x56]).poke 0xC000 0x77 with regs := { zeros with h := 0xC0 } })
      (fun t => (t.regs.f, t.regs.d, t.pc)) = some (0x00, 0x77, 0x0001) := by decide

theorem test_ldER8 :
    gives ({ (loaded [0x5E]).poke 0xC000 0x77 with regs := { zeros with h := 0xC0 } })
      (fun t => (t.regs.e, t.pc)) = some (0x77, 0x0001) := by decide

theorem test_ldHR8_V159 :
    gives ({ (loaded [0x66]).poke 0xC000 0x12 with regs := { zeros with h := 0xC0 } })
      (fun t => (t.regs.f, t.regs.h, t.pc)) = some (0x00, 0x12, 0x0001) := by decide

theorem test_ldLR8 :
    gives ({ (loaded [0x6E]).poke 0xC011 0x12 with regs := { zeros with h := 0xC0, l := 0x11 } })
      (fun t => (t.regs.h, t.regs.l)) = some (0xC0, 0x12) := by decide

theorem test_ldMemHlB :
    gives ({ loaded [0x70] with regs := { zeros with b := 0x21, h := 0xC0 } })
      (fun t => t.memPeek 0xC000) = some 0x21 := by decide

theorem test_ldMemHlC :
    gives ({ loaded [0x71] with regs := { zeros with c := 0x32, h := 0xC0 } })
      (fun t => t.memPeek 0xC000) = some 0x32 := by decide

theorem test_ldMemHlD :
    gives ({ loaded [0x72] with regs := { zeros with d := 0x43, h := 0xC0 } })
      (fun t => t.memPeek 0xC000) = some 0x43 := by decide

theorem test_ldMemHlE_V157 :
    gives ({ loaded [0x73] with regs := { zeros with e := 0x99, h := 0xC0 } })
      (fun t => (t.regs.f, t.pc, t.memPeek 0xC000)) = some (0x00, 0x0001, 0x99) := by decide

theorem test_ldMemHlH_V158 :
    gives ({ loaded [0x74] with regs := { zeros with h := 0xC0 } })
      (fun t => (t.regs.f, t.pc, t.memPeek 0xC000)) = some (0x00, 0x0001, 0xC0) := by decide

theorem test_ldMemHlL :
    gives ({ loaded [0x75] with regs := { zeros with h := 0xC0, l := 0x54 } })
      (fun t => t.memPeek 0xC054) = some 0x54 := by decide

theorem test_ldMemHlA :
    gives ({ loaded [0x77] with regs := { zeros with a := 0x65, h := 0xC0, f := 0xF0 } })
      (fun t => (t.memPeek 0xC000, t.regs.f)) = some (0x65, 0xF0) := by decide

theorem test_halt_V202 :
    gives (loaded [0x76])
      (fun t => (t.regs.f, t.pc, t.halted)) = some (0x00, 0x0001, true) := by decide

theorem test_ldAR8_V155 :
    gives ({ loaded [0x7F] with regs := { zeros with a := 0x12 } })
      (fun t => (t.regs.f, t.pc)) = some (0x00, 0x0001) := by decide

theorem test_addAR8_V3 :
    gives ({ loaded [0x87] with regs := { zeros with a := 0x80, f := 0x40 } })
      (fun t => (t.regs.a, t.regs.f, t.pc)) = some (0x00, 0x90, 0x0001) := by decide

theorem test_addAR8_V4 :
    gives ({ (loaded [0x86]).poke 0xC000 0x02 with regs := { zeros with a := 0x01, h := 0xC0 } })
      (fun t => (t.regs.a, t.regs.f, t.pc)) = some (0x03, 0x00, 0x0001) := by decide

theorem test_adcAR8_V7 :
    gives ({ loaded [0x88] with regs := { zeros with a := 0x0F, f := 0x10 } })
      (fun t => (t.regs.a, t.regs.f, t.pc)) = some (0x10, 0x20, 0x0001) := by decide

theorem test_adcAR8_V8 :
    gives ({ loaded [0x8B] with regs := { zeros with a := 0xFF, f := 0x10, e := 0xFF } })
      (fun t => (t.regs.f, t.pc)) = some (0x30, 0x0001) := by decide

theorem test_subR8_V13 :
    gives ({ loaded [0x91] with regs := { zeros with a := 0x10, c := 0x01 } })
      (fun t => (t.regs.a, t.regs.f, t.pc)) = some (0x0F, 0x60, 0x0001) := by decide

theorem test_subR8_V14 :
    gives ({ (loaded [0x96]).poke 0xC000 0x01 with regs := { zeros with h := 0xC0 } })
      (fun t => (t.regs.a, t.regs.f, t.pc)) = some (0xFF, 0x70, 0x0001) := by decide

theorem test_sbcAR8_V16 :
    gives ({ loaded [0x9C] with regs := { zeros with a := 0x3B, f := 0x10, h := 0x2A } })
      (fun t => (t.regs.a, t.regs.f, t.pc)) = some (0x10, 0x40, 0x0001) := by decide

theorem test_sbcAR8_V18 :
    gives ({ loaded [0x98] with regs := { zeros with f := 0x10, b := 0xFF } })
      (fun t => (t.regs.f, t.pc)) = some (0xF0, 0x0001) := by decide

theorem test_andR8_V20 :
    gives ({ loaded [0xA0] with regs := { zeros with a := 0x5A, f := 0x50, b := 0x3F } })
      (fun t => (t.regs.a, t.regs.f, t.pc)) = some (0x1A, 0x20, 0x0001) := by decide

theorem test_andR8_V21 : gives (loaded [0xA7]) (fun t => (t.regs.f, t.pc)) = some (0xA0, 0x0001) := by decide

theorem test_xorR8_V23 :
    gives ({ loaded [0xAF] with regs := { zeros with a := 0xFF, f := 0xF0 } })
      (fun t => (t.regs.a, t.regs.f, t.pc)) = some (0x00, 0x80, 0x0001) := by decide

theorem test_xorR8_V24 :
    gives ({ (loaded [0xAE]).poke 0xC000 0x8A with regs := { zeros with a := 0xFF, h := 0xC0 } })
      (fun t => (t.regs.a, t.regs.f, t.pc)) = some (0x75, 0x00, 0x0001) := by decide

theorem test_orR8_V26 :
    gives ({ loaded [0xB0] with regs := { zeros with f := 0x70 } })
      (fun t => (t.regs.f, t.pc)) = some (0x80, 0x0001) := by decide

theorem test_orR8_V27 :
    gives ({ loaded [0xB1] with regs := { zeros with a := 0x5A, c := 0x03 } })
      (fun t => (t.regs.a, t.regs.f, t.pc)) = some (0x5B, 0x00, 0x0001) := by decide

theorem test_cpR8_V29 :
    gives ({ loaded [0xB8] with regs := { zeros with a := 0x3C, b := 0x2F } })
      (fun t => (t.regs.f, t.pc)) = some (0x60, 0x0001) := by decide

theorem test_cpR8_V31 :
    gives ({ (loaded [0xBE]).poke 0xC000 0x40 with regs := { zeros with a := 0x3C, h := 0xC0 } })
      (fun t => (t.regs.f, t.pc)) = some (0x50, 0x0001) := by decide

theorem test_retCc_V139 :
    gives ({ ((loaded [0xC0]).poke 0xFFFC 0x03).poke 0xFFFD 0x02 with regs := { zeros with f := 0x80 }, sp := 0xFFFC })
      (fun t => (t.regs.f, t.pc)) = some (0x80, 0x0001) := by decide

theorem test_retCc_V140 :
    gives ({ ((loaded [0xC8]).poke 0xFFFC 0x03).poke 0xFFFD 0x02 with regs := { zeros with f := 0x80 }, sp := 0xFFFC })
      (fun t => (t.regs.f, t.sp, t.pc)) = some (0x80, 0xFFFE, 0x0203) := by decide

theorem test_ldhMemA8A_V179 :
    gives ({ loaded [0xE0, 0x0F] with regs := { zeros with a := 0x1F } })
      (fun t => (t.regs.f, t.pc, t.memPeek 0xFF0F)) = some (0x00, 0x0002, 0x1F) := by decide

theorem test_addSpE8_V72 :
    gives ({ loaded [0xE8, 0xFF] with regs := { zeros with f := 0xF0 }, sp := 0x0005 })
      (fun t => (t.regs.f, t.sp, t.pc)) = some (0x30, 0x0004, 0x0002) := by decide

theorem test_addSpE8_V74 :
    gives ({ loaded [0xE8, 0x80] with sp := 0x0100 })
      (fun t => (t.regs.f, t.sp, t.pc)) = some (0x00, 0x0080, 0x0002) := by decide

theorem test_ldhAMemA8_V181 :
    gives ((loaded [0xF0, 0x80]).poke 0xFF80 0x42)
      (fun t => (t.regs.a, t.regs.f, t.pc)) = some (0x42, 0x00, 0x0002) := by decide

theorem test_ldHlSpE8_V78 :
    gives ({ loaded [0xF8, 0xFE] with sp := 0x0001 })
      (fun t => (t.regs.f, t.regs.h, t.regs.l, t.pc)) = some (0x00, 0xFF, 0xFF, 0x0002) := by decide

theorem test_ldHlSpE8_V80 :
    gives ({ loaded [0xF8, 0x00] with regs := { zeros with f := 0xF0, h := 0x12, l := 0x34 }, sp := 0x0000 })
      (fun t => (t.regs.f, t.regs.h, t.regs.l, t.pc)) = some (0x00, 0x00, 0x00, 0x0002) := by decide

theorem test_popRr_V195 :
    gives ({ ((loaded [0xF1]).poke 0xFFFC 0x34).poke 0xFFFD 0x12 with sp := 0xFFFC })
      (fun t => (t.regs.a, t.regs.f, t.sp, t.pc)) = some (0x12, 0x30, 0xFFFE, 0x0001) := by decide

theorem test_popRr_V197 :
    gives ({ ((loaded [0xC1]).poke 0x0000 0xC1).poke 0xFFFF 0x11 with sp := 0xFFFF })
      (fun t => (t.regs.f, t.regs.b, t.regs.c, t.sp, t.pc)) = some (0x00, 0xC1, 0x11, 0x0001, 0x0001) := by decide

theorem test_ret_V138 :
    gives ({ ((loadedAt 0x1234 [0xC9]).poke 0xFFFC 0x03).poke 0xFFFD 0x02 with sp := 0xFFFC, pc := 0x1234 })
      (fun t => (t.regs.f, t.sp, t.pc)) = some (0x00, 0xFFFE, 0x0203) := by decide

theorem test_ret_V143 :
    gives ({ ((loaded [0xC9]).poke 0x0000 0xC9).poke 0xFFFF 0x78 with sp := 0xFFFF })
      (fun t => (t.regs.f, t.sp, t.pc)) = some (0x00, 0x0001, 0xC978) := by decide

theorem test_reti_V144 :
    gives ({ ((loaded [0xD9]).poke 0xFFFC 0x34).poke 0xFFFD 0x12 with sp := 0xFFFC })
      (fun t => (t.regs.f, t.sp, t.pc, t.ime)) = some (0x00, 0xFFFE, 0x1234, true) := by decide

theorem test_reti_V145 :
    gives ({ ((loaded [0xD9]).poke 0xFFFC 0x34).poke 0xFFFD 0x12 with sp := 0xFFFC, imePending := true })
      (fun t => (t.regs.f, t.sp, t.pc, t.ime, t.imePending)) = some (0x00, 0xFFFE, 0x1234, true, false) := by decide

theorem test_jpHl_V123 :
    gives ({ loaded [0xE9] with regs := { zeros with h := 0xC1, l := 0x23 } })
      (fun t => (t.regs.f, t.pc)) = some (0x00, 0xC123) := by decide

theorem test_ldSpHl_V186 :
    gives ({ loaded [0xF9] with regs := { zeros with f := 0xF0, h := 0xD0 } })
      (fun t => (t.regs.f, t.sp, t.pc)) = some (0xF0, 0xD000, 0x0001) := by decide

theorem test_jpCcA16_V118 :
    gives ({ loaded [0xC2, 0xCD, 0xAB] with regs := { zeros with f := 0x80 } })
      (fun t => (t.regs.f, t.pc)) = some (0x80, 0x0003) := by decide

theorem test_jpCcA16_V122 :
    gives ({ loaded [0xDA, 0x00, 0x80] with regs := { zeros with f := 0x10 } })
      (fun t => (t.regs.f, t.pc)) = some (0x10, 0x8000) := by decide

theorem test_ldMemCA_V182 :
    gives ({ loaded [0xE2] with regs := { zeros with a := 0x07, c := 0x80 } })
      (fun t => (t.regs.f, t.pc, t.memPeek 0xFF80)) = some (0x00, 0x0001, 0x07) := by decide

theorem test_ldMemA16A_V177 :
    gives ({ loaded [0xEA, 0x00, 0xC0] with regs := { zeros with a := 0x5A } })
      (fun t => (t.regs.f, t.pc, t.memPeek 0xC000)) = some (0x00, 0x0003, 0x5A) := by decide

theorem test_ldAMemC_V183 :
    gives ({ (loaded [0xF2]).poke 0xFF0F 0xE5 with regs := { zeros with c := 0x0F } })
      (fun t => (t.regs.a, t.regs.f, t.pc)) = some (0xE5, 0x00, 0x0001) := by decide

theorem test_ldAMemA16_V178 :
    gives ((loaded [0xFA, 0x34, 0xC2]).poke 0xC234 0x99)
      (fun t => (t.regs.a, t.regs.f, t.pc)) = some (0x99, 0x00, 0x0003) := by decide

theorem test_jpA16_V117 :
    gives (loaded [0xC3, 0x50, 0x01])
      (fun t => (t.regs.f, t.pc)) = some (0x00, 0x0150) := by decide

theorem test_prefixCb_V222 :
    gives ({ loaded [0xCB, 0xCB] with regs := { zeros with e := 0x01 } })
      (fun t => (t.regs.f, t.regs.e, t.pc)) = some (0x00, 0x03, 0x0002) := by decide

theorem test_di_V205 :
    gives ({ loaded [0xF3] with ime := true, imePending := true })
      (fun t => (t.regs.f, t.pc, t.ime, t.imePending)) = some (0x00, 0x0001, false, false) := by decide

theorem test_ei_V206 :
    gives (loaded [0xFB])
      (fun t => (t.regs.f, t.pc, t.imePending)) = some (0x00, 0x0001, true) := by decide

theorem test_ei_V210 :
    gives ({ loaded [0xFB] with ime := true })
      (fun t => (t.regs.f, t.pc, t.imePending)) = some (0x00, 0x0001, true) := by decide

theorem test_callCcA16_V134 :
    gives ({ loadedAt 0x0200 [0xC4, 0x34, 0x12] with regs := { zeros with f := 0x80 }, pc := 0x0200 })
      (fun t => (t.regs.f, t.pc)) = some (0x80, 0x0203) := by decide

theorem test_callCcA16_V137 :
    gives ({ loaded [0xDC, 0x00, 0x40] with regs := { zeros with f := 0x10 }, sp := 0x0001 })
      (fun t => (t.regs.f, t.sp, t.pc, t.memPeek 0x0000, t.memPeek 0xFFFF)) = some (0x10, 0xFFFF, 0x4000, 0x00, 0x03) := by decide

theorem test_pushRr_V187 :
    gives ({ loaded [0xC5] with regs := { zeros with b := 0x12, c := 0x34 } })
      (fun t => (t.regs.f, t.sp, t.pc, t.memPeek 0xFFFC, t.memPeek 0xFFFD)) = some (0x00, 0xFFFC, 0x0001, 0x34, 0x12) := by decide

theorem test_pushRr_V191 :
    gives ({ loaded [0xC5] with regs := { zeros with b := 0x12, c := 0x34 }, sp := 0x0001 })
      (fun t => (t.regs.f, t.sp, t.pc, t.memPeek 0x0000, t.memPeek 0xFFFF)) = some (0x00, 0xFFFF, 0x0001, 0x12, 0x34) := by decide

theorem test_callA16_V133 :
    gives ({ loadedAt 0x0200 [0xCD, 0x34, 0x12] with pc := 0x0200 })
      (fun t => (t.regs.f, t.sp, t.pc, t.memPeek 0xFFFC, t.memPeek 0xFFFD)) = some (0x00, 0xFFFC, 0x1234, 0x03, 0x02) := by decide

theorem test_addAD8_V5 :
    gives ({ loaded [0xC6, 0xFF] with regs := { zeros with a := 0x01 } })
      (fun t => (t.regs.a, t.regs.f, t.pc)) = some (0x00, 0xB0, 0x0002) := by decide

theorem test_addAD8_V6 :
    gives ({ loaded [0xC6, 0x00] with regs := { zeros with f := 0x70 } })
      (fun t => (t.regs.f, t.pc)) = some (0x80, 0x0002) := by decide

theorem test_adcAD8_V9 :
    gives ({ loaded [0xCE, 0xFF] with regs := { zeros with f := 0x10 } })
      (fun t => (t.regs.f, t.pc)) = some (0xB0, 0x0002) := by decide

theorem test_adcAD8_V10 :
    gives ({ loaded [0xCE, 0x01] with regs := { zeros with a := 0x01, f := 0xE0 } })
      (fun t => (t.regs.a, t.regs.f, t.pc)) = some (0x02, 0x00, 0x0002) := by decide

theorem test_subD8_V15 :
    gives ({ loaded [0xD6, 0x0F] with regs := { zeros with a := 0x3E } })
      (fun t => (t.regs.a, t.regs.f, t.pc)) = some (0x2F, 0x60, 0x0002) := by decide

theorem test_sbcAD8_V19 :
    gives ({ loaded [0xDE, 0x0F] with regs := { zeros with a := 0x10, f := 0x10 } })
      (fun t => (t.regs.a, t.regs.f, t.pc)) = some (0x00, 0xE0, 0x0002) := by decide

theorem test_andD8_V22 :
    gives ({ loaded [0xE6, 0x38] with regs := { zeros with a := 0x5A } })
      (fun t => (t.regs.a, t.regs.f, t.pc)) = some (0x18, 0x20, 0x0002) := by decide

theorem test_xorD8_V25 :
    gives ({ loaded [0xEE, 0x0F] with regs := { zeros with a := 0xFF } })
      (fun t => (t.regs.a, t.regs.f, t.pc)) = some (0xF0, 0x00, 0x0002) := by decide

theorem test_orD8_V28 :
    gives ({ loaded [0xF6, 0x0F] with regs := { zeros with a := 0x5A } })
      (fun t => (t.regs.a, t.regs.f, t.pc)) = some (0x5F, 0x00, 0x0002) := by decide

theorem test_cpD8_V30 :
    gives ({ loaded [0xFE, 0x3C] with regs := { zeros with a := 0x3C } })
      (fun t => (t.regs.f, t.pc)) = some (0xC0, 0x0002) := by decide

theorem test_rstT_V146 :
    gives ({ loadedAt 0x0150 [0xC7] with pc := 0x0150 })
      (fun t => (t.regs.f, t.sp, t.pc, t.memPeek 0xFFFC, t.memPeek 0xFFFD)) = some (0x00, 0xFFFC, 0x0000, 0x51, 0x01) := by decide

theorem test_rstT_V153 :
    gives ({ loadedAt 0x0150 [0xFF] with pc := 0x0150 })
      (fun t => (t.regs.f, t.sp, t.pc, t.memPeek 0xFFFC, t.memPeek 0xFFFD)) = some (0x00, 0xFFFC, 0x0038, 0x51, 0x01) := by decide

theorem test_rlcR8_V91 :
    gives ({ (loaded [0xCB, 0x06]).poke 0xC000 0x00 with regs := { zeros with f := 0xF0, h := 0xC0 } })
      (fun t => (t.regs.f, t.pc)) = some (0x80, 0x0002) := by decide

theorem test_rlcR8_V92 :
    gives ({ loaded [0xCB, 0x07] with regs := { zeros with a := 0x80 } })
      (fun t => (t.regs.a, t.regs.f, t.pc)) = some (0x01, 0x10, 0x0002) := by decide

theorem test_rrcR8_V93 :
    gives ({ loaded [0xCB, 0x09] with regs := { zeros with c := 0x01 } })
      (fun t => (t.regs.f, t.regs.c, t.pc)) = some (0x10, 0x80, 0x0002) := by decide

theorem test_rlR8_V95 :
    gives ({ loaded [0xCB, 0x12] with regs := { zeros with d := 0x80 } })
      (fun t => (t.regs.f, t.regs.d, t.pc)) = some (0x90, 0x00, 0x0002) := by decide

theorem test_rlR8_V96 :
    gives ({ loaded [0xCB, 0x15] with regs := { zeros with f := 0x10, l := 0x11 } })
      (fun t => (t.regs.f, t.regs.l, t.pc)) = some (0x00, 0x23, 0x0002) := by decide

theorem test_rrR8_V97 :
    gives ({ loaded [0xCB, 0x1B] with regs := { zeros with e := 0x01 } })
      (fun t => (t.regs.f, t.regs.e, t.pc)) = some (0x90, 0x00, 0x0002) := by decide

theorem test_rrR8_V98 :
    gives ({ loaded [0xCB, 0x1F] with regs := { zeros with a := 0x8A, f := 0x10 } })
      (fun t => (t.regs.a, t.regs.f, t.pc)) = some (0xC5, 0x00, 0x0002) := by decide

theorem test_slaR8_V99 :
    gives ({ loaded [0xCB, 0x24] with regs := { zeros with h := 0x80 } })
      (fun t => (t.regs.f, t.regs.h, t.pc)) = some (0x90, 0x00, 0x0002) := by decide

theorem test_slaR8_V100 :
    gives ({ loaded [0xCB, 0x20] with regs := { zeros with f := 0xE0, b := 0xFF } })
      (fun t => (t.regs.f, t.regs.b, t.pc)) = some (0x10, 0xFE, 0x0002) := by decide

theorem test_sraR8_V101 :
    gives ({ loaded [0xCB, 0x28] with regs := { zeros with b := 0x8A } })
      (fun t => (t.regs.f, t.regs.b, t.pc)) = some (0x00, 0xC5, 0x0002) := by decide

theorem test_sraR8_V103 :
    gives ({ (loaded [0xCB, 0x2E]).poke 0xC000 0xFF with regs := { zeros with h := 0xC0 } })
      (fun t => (t.regs.f, t.pc)) = some (0x10, 0x0002) := by decide

theorem test_swapR8_V104 :
    gives ({ loaded [0xCB, 0x37] with regs := { zeros with a := 0xF1, f := 0xF0 } })
      (fun t => (t.regs.a, t.regs.f, t.pc)) = some (0x1F, 0x00, 0x0002) := by decide

theorem test_swapR8_V105 :
    gives ({ loaded [0xCB, 0x30] with regs := { zeros with f := 0x10 } })
      (fun t => (t.regs.f, t.pc)) = some (0x80, 0x0002) := by decide

theorem test_srlR8_V106 :
    gives ({ loaded [0xCB, 0x3F] with regs := { zeros with a := 0x01 } })
      (fun t => (t.regs.a, t.regs.f, t.pc)) = some (0x00, 0x90, 0x0002) := by decide

theorem test_srlR8_V107 :
    gives ({ loaded [0xCB, 0x38] with regs := { zeros with b := 0xFF } })
      (fun t => (t.regs.f, t.regs.b, t.pc)) = some (0x10, 0x7F, 0x0002) := by decide

theorem test_bitBR8_V109 :
    gives ({ loaded [0xCB, 0x47] with regs := { zeros with a := 0xFE } })
      (fun t => (t.regs.f, t.pc)) = some (0xA0, 0x0002) := by decide

theorem test_bitBR8_V110 :
    gives ({ (loaded [0xCB, 0x5E]).poke 0xC000 0x08 with regs := { zeros with f := 0x90, h := 0xC0 } })
      (fun t => (t.regs.f, t.pc)) = some (0x30, 0x0002) := by decide

theorem test_resBR8_V111 :
    gives ({ loaded [0xCB, 0x80] with regs := { zeros with f := 0xF0, b := 0xFF } })
      (fun t => (t.regs.f, t.regs.b, t.pc)) = some (0xF0, 0xFE, 0x0002) := by decide

theorem test_resBR8_V112 :
    gives ({ (loaded [0xCB, 0xBE]).poke 0xC000 0xFF with regs := { zeros with h := 0xC0 } })
      (fun t => (t.regs.f, t.pc, t.memPeek 0xC000)) = some (0x00, 0x0002, 0x7F) := by decide

theorem test_setBR8_V115 :
    gives ({ (loaded [0xCB, 0xC6]).poke 0xC000 0x00 with regs := { zeros with h := 0xC0 } })
      (fun t => (t.regs.f, t.pc, t.memPeek 0xC000)) = some (0x00, 0x0002, 0x01) := by decide

theorem test_setBR8_V116 :
    gives ({ loaded [0xCB, 0xE3] with regs := { zeros with e := 0x10 } })
      (fun t => (t.regs.f, t.pc)) = some (0x00, 0x0002) := by decide

/-- The core with the other reading of R224. -/
def clearing : CoreParams := { CoreParams.default with rotaClearsZnh := true }

/-- V83, V85, V86 and V89 under the other reading, `ROTA_CLEARS_ZNH = true`: F as 95_test_vectors.md gives it below the vectors. -/
theorem test_accumulator_rotates_clear_znh :
    gives { loaded [0x07] with regs := { zeros with a := 0x80, f := 0xE0 }, params := clearing }
      (fun t => (t.regs.a, t.regs.f)) = some (0x01, 0x10) ∧
    gives { loaded [0x0F] with regs := { zeros with a := 0x01 }, params := clearing }
      (fun t => (t.regs.a, t.regs.f)) = some (0x80, 0x10) ∧
    gives { loaded [0x17] with regs := { zeros with a := 0x95, f := 0x10 }, params := clearing }
      (fun t => (t.regs.a, t.regs.f)) = some (0x2B, 0x10) ∧
    gives { loaded [0x1F] with regs := { zeros with f := 0x90 }, params := clearing }
      (fun t => (t.regs.a, t.regs.f)) = some (0x80, 0x00) := by decide

/-- V211 to V221: the latch, and `pc` past the byte. -/
theorem test_illegal_bytes : ∀ op ∈ Config.illegalOpcodes,
    gives (loaded [op]) (fun t => (t.pc, t.fault)) = some (0x0001, some ⟨op, false⟩) := by decide

/-- 93_implementation_defined.md G8's example of another `ILLEGAL_OPCODES`: with 0x2F in it CPL is no instruction. The
prefix byte and the bytes behind it are not affected, and a byte the opcode map leaves empty stays one (log 9). -/
theorem test_other_illegal_opcodes :
    let core : CoreParams := { CoreParams.default with illegalOpcodes := [0x2F#8, 0xCB#8] }
    gives { loaded [0x2F] with params := core } (fun t => (t.pc, t.fault)) = some (0x0001, some ⟨0x2F, false⟩) ∧
    gives { loaded [0xCB, 0x2F] with params := core } (fun t => (t.pc, t.fault)) = some (0x0002, none) ∧
    gives { loaded [0xD3] with params := core } (fun t => (t.pc, t.fault)) = some (0x0001, some ⟨0xD3, false⟩) ∧
    gives { loaded [0x00] with params := core } (fun t => (t.pc, t.fault)) = some (0x0001, none) := by decide

/-- R346: each illegal row's meaning latches its own byte. -/
theorem test_illegal_rows :
    ∀ x ∈ [(Instr.illegalD3, 0xD3#8), (.illegalDB, 0xDB#8), (.illegalDD, 0xDD#8), (.illegalE3, 0xE3#8),
        (.illegalE4, 0xE4#8), (.illegalEB, 0xEB#8), (.illegalEC, 0xEC#8), (.illegalED, 0xED#8), (.illegalF4, 0xF4#8),
        (.illegalFC, 0xFC#8), (.illegalFD, 0xFD#8)],
      nextState (exec x.1 State.reset) = some { State.reset with fault := some ⟨x.2, false⟩ } := by decide

/-- V4's accesses in order: the opcode, then the operand. -/
theorem test_bus_of_add_mem : gives { (loaded [0x86]).poke 0xC000 0x02 with regs := { zeros with h := 0xC0 } } (·.bus) =
    some [.read 0x0000 0x86, .read 0xC000 0x02] := by decide

/-- V133's accesses in order: high byte of the return address first. -/
theorem test_bus_of_call : gives { loadedAt 0x0200 [0xCD, 0x34, 0x12] with pc := 0x0200 } (·.bus) =
    some [.read 0x0200 0xCD, .read 0x0201 0x34, .read 0x0202 0x12, .write 0xFFFD 0x02, .write 0xFFFC 0x03] := by decide

/-- V139: a return not taken reads nothing but its opcode. -/
theorem test_bus_of_ret_not_taken : gives { loaded [0xC0] with regs := { zeros with f := 0x80 } } (·.bus) =
    some [.read 0x0000 0xC0] := by decide

/-! ### Interrupts, the halted state, the latency of EI -/

/-- A core at 0x1234 with interrupts enabled and the two interrupt bytes given. -/
def waiting (ie iff : Byte) : State :=
  { ((loaded []).poke 0xFFFF ie).poke 0xFF0F iff with pc := 0x1234, ime := true }

/-- R365, R366: of sources 2 and 4 the lower is taken, its bit cleared, the return address pushed. -/
theorem test_dispatch :
    gives (waiting 0x1F 0xF4) (fun t => (t.pc, t.ime, t.memPeek 0xFF0F, t.memPeek 0xFFFD)) =
      some (0x0050, false, 0xF0, 0x12) := by decide

/-- R373: with `ime` clear the wake-up executes the next instruction in the same step. -/
theorem test_wake_without_dispatch :
    gives { ((loaded [0x3C]).poke 0xFFFF 0x01).poke 0xFF0F 0x01 with halted := true }
      (fun t => (t.regs.a, t.halted, t.memPeek 0xFF0F)) = some (0x01, false, 0x01) := by decide

/-- V207's second step: the enable commits at the end of the instruction after EI. -/
theorem test_enable_commits :
    gives { loaded [0x00] with imePending := true } (fun t => (t.ime, t.imePending)) = some (true, false) := by decide

/-- V209's second step: DI cancels it. -/
theorem test_di_cancels :
    gives { loaded [0xF3] with imePending := true } (fun t => (t.ime, t.imePending)) = some (false, false) := by decide

/-- R39: no step from a latched fault. -/
theorem test_no_step_after_fault :
    step { loaded [0x00] with fault := some ⟨0xFD, false⟩ } = .fault (.decodeFault 0xFD false) := rfl

/-- The word the host places is what the next step runs, also where an interrupt would be taken (log 11). -/
theorem test_with_fetch_word :
    gives ((waiting 0x01 0x01).withFetchWord 16 0x053E) (·.regs.a) = some 0x05 ∧
    gives (State.reset.withFetchWord 24 0xC12345) (·.pc) = some 0x0001 := by decide

/-! ### Witnesses: a state and operands that meet the hypotheses of each statement that has some -/

theorem test_witness_DecodeUndoesEncode :
    (Instr.wf (.setBR8 7 (.reg .a)) = true ∧ (Instr.setBR8 7 (.reg .a)).format = .cb) ∧
    (Instr.wf .nop = true ∧ ∀ op ∈ encode .nop, op ∉ [0x2F#8]) :=
  ⟨by decide, by decide, by simp [encode]⟩

theorem test_witness_EncodeUndoesDecode :
    decodeBytes [0xCB#8, 0xFF#8, 0x00#8] = .ok (.setBR8 7 (.reg .a), [0x00#8]) ∧
    decodeBytesWith [0x2F#8] [0xFE#8, 0x3C#8] = .ok (.cpD8, [0x3C#8]) := ⟨rfl, rfl⟩

/-- A state some steps and a move of the environment away from reset. -/
theorem test_witness_LowNibbleOfFIsAlwaysZero :
    Reaches (State.resetWith ResetParams.chosen)
      ((State.resetWith ResetParams.chosen).envMove (.setReg .f 0xFF#8)) := .env _ .refl

theorem test_witness_MemoryReadsTheLastWrite :
    Memory.wf ((State.reset.poke 0xC000 0x05).poke 0x0000 0x01).mem ∧
    Memory.wf (((State.reset.poke 0xC000 0x05).poke 0x0000 0x01).memWrite 0xC000 0x00).mem := by decide

/-- 99 + 1 and 0 - 1, where the carry leaves the range. -/
theorem test_witness_DaaKeepsDecimalArithmetic :
    (∃ t u, exec (.addAR8 (.reg .b)) { loaded [] with regs := { zeros with a := 0x99, b := 0x01 } } = .next t ∧
      exec .daa t = .next u ∧ u.regs.a = 0x00#8 ∧ u.flagC = true) ∧
    (∃ t u, exec (.subR8 (.reg .b)) { loaded [] with regs := { zeros with a := 0x00, b := 0x01 } } = .next t ∧
      exec .daa t = .next u ∧ u.regs.a = 0x99#8 ∧ u.flagC = true) :=
  ⟨⟨_, _, rfl, rfl, by decide, by decide⟩, _, _, rfl, rfl, by decide, by decide⟩

theorem test_witness_CallsAndRestarts :
    State.reset.holds .nz = true ∧ State.reset.holds .z = false ∧
    State.reset.holds .nc = true ∧ State.reset.holds .c = false := by decide

/-- RETI with an interrupt waiting. -/
theorem test_witness_ReturnFromInterrupt :
    ∃ t, exec .reti { waiting 0x10 0x10 with ime := false } = .next t ∧
      (waiting 0x10 0x10).fault = none ∧ t.pendingMask ≠ 0 := ⟨_, rfl, rfl, by decide⟩

theorem test_witness_CallThenReturnComesBack :
    ∃ cc, Instr.callCcA16 .nc = .callCcA16 cc ∧ State.reset.holds cc = true := ⟨.nc, rfl, by decide⟩

theorem test_witness_NopAndDi :
    (loaded [0x00]).runsInstr ∧ (loaded [0x00]).decodesTo .nop ∧
    { loaded [0x00] with imePending := true }.runsInstr ∧ { loaded [0x00] with imePending := true }.decodesTo .nop :=
  ⟨⟨rfl, by decide, by decide⟩, ⟨_, rfl⟩, ⟨rfl, by decide, by decide⟩, ⟨_, rfl⟩⟩

theorem test_witness_PrefixRunsItsSecondByte :
    (loaded [0xCB, 0x37]).runsInstr ∧ (loaded [0xCB, 0x37]).memPeek (loaded [0xCB, 0x37]).pc = 0xCB#8 :=
  ⟨⟨rfl, by decide, by decide⟩, by decide⟩

/-- A plain and a prefixed instruction, not halted; and one behind a halted core that an interrupt wakes. -/
theorem test_witness_StepRunsTheDecodedInstruction :
    (loaded [0xC3, 0x50, 0x01]).runsInstr ∧ (loaded [0xC3, 0x50, 0x01]).decodesTo .jpA16 ∧
    (loaded [0xCB, 0x37]).runsInstr ∧ (loaded [0xCB, 0x37]).decodesTo (.swapR8 (.reg .a)) ∧
    { waiting 0x01 0x01 with ime := false, halted := true }.runsInstr ∧
    { waiting 0x01 0x01 with ime := false, halted := true }.decodesTo .nop :=
  ⟨⟨rfl, by decide, by decide⟩, ⟨_, rfl⟩, ⟨rfl, by decide, by decide⟩, ⟨_, rfl⟩, ⟨rfl, by decide, by decide⟩, ⟨_, rfl⟩⟩

/-- A core whose `ILLEGAL_OPCODES` has CPL's opcode, about to fetch it. -/
def withoutCpl : State :=
  { loaded [0x2F] with params := { CoreParams.default with illegalOpcodes := [0x2F#8] } }

theorem test_witness_DecodeFaultStopsTheCore :
    (loaded [0xD3]).runsInstr ∧ (loaded [0xD3]).memPeek (loaded [0xD3]).pc = 0xD3#8 ∧
    (loaded [0xFD]).runsInstr ∧ (loaded [0xFD]).memPeek (loaded [0xFD]).pc = 0xFD#8 ∧
    (withoutCpl.runsInstr ∧ withoutCpl.memPeek withoutCpl.pc ≠ 0xCB#8 ∧
      withoutCpl.memPeek withoutCpl.pc ∈ withoutCpl.params.illegalOpcodes) :=
  ⟨⟨rfl, by decide, by decide⟩, by decide, ⟨rfl, by decide, by decide⟩, by decide, ⟨rfl, by decide, by decide⟩, by decide,
    by decide⟩

theorem test_witness_OnlyTheDecodeFaultStopsAStep :
    (loaded []).fault = none ∧ { loaded [] with fault := some ⟨0xE3, false⟩ }.fault = some ⟨0xE3, false⟩ := ⟨rfl, rfl⟩

/-- An instruction of three bytes that takes no jump, and a jump whose condition is false. -/
theorem test_witness_PcPassesTheWholeInstruction :
    (Instr.wf .ldMemA16Sp = true ∧ ∃ t, exec .ldMemA16Sp State.reset = .next t ∧ t.pc = 0x0002) ∧
    (Instr.wf (.jpCcA16 .z) = true ∧ State.reset.holds .z = false ∧
      ∃ t, exec (.jpCcA16 .z) State.reset = .next t ∧ t.pc = 0x0002) :=
  ⟨⟨by decide, _, rfl, by decide⟩, by decide, by decide, _, rfl, by decide⟩

/-- The first and the last source; and a push whose high byte lands on IF itself. -/
theorem test_witness_InterruptDispatch :
    ((waiting 0x1F 0x1F).fault = none ∧ (waiting 0x1F 0x1F).ime = true ∧
      ((waiting 0x1F 0x1F).memPeek 0xFF0F#16).getLsbD 0 = true ∧
      ((waiting 0x1F 0x1F).memPeek 0xFFFF#16).getLsbD 0 = true) ∧
    ((waiting 0x10 0xFF).fault = none ∧ (waiting 0x10 0xFF).ime = true ∧
      ((waiting 0x10 0xFF).memPeek 0xFF0F#16).getLsbD 4 = true ∧
      ((waiting 0x10 0xFF).memPeek 0xFFFF#16).getLsbD 4 = true ∧
      (∀ j < 4, (((waiting 0x10 0xFF).memPeek 0xFF0F#16).getLsbD j &&
        ((waiting 0x10 0xFF).memPeek 0xFFFF#16).getLsbD j) = false)) ∧
    gives { waiting 0x1F 0x02 with sp := 0xFF10 } (fun t => (t.pc, t.memPeek 0xFF0F)) = some (0x0048, 0x12) := by
  decide

theorem test_witness_LowestPendingBitIsServiced :
    (waiting 0x1F 0x18).fault = none ∧ (waiting 0x1F 0x18).ime = true ∧ (waiting 0x1F 0x18).pendingMask ≠ 0 ∧
    ∀ a ∈ [(waiting 0x1F 0x18).sp - 1, (waiting 0x1F 0x18).sp - 2], a ≠ 0xFF0F#16 ∧ a ≠ 0xFFFF#16 := by
  refine ⟨rfl, rfl, by decide, ?_⟩
  rw [show (waiting 0x1F 0x18).sp = 0xFFFE#16 from rfl]
  simp

theorem test_witness_HaltedCoreIdles :
    let s := { loaded [0x00] with halted := true }.poke 0xFFFF 0x10
    s.fault = none ∧ s.halted = true ∧ s.pendingMask = 0 ∧ (s.envMove (.request .joypad)).pendingMask ≠ 0 := by decide

theorem test_witness_WakeUpWithoutDispatch :
    let s := { waiting 0x01 0x01 with ime := false, halted := true }
    s.fault = none ∧ s.halted = true ∧ s.ime = false ∧ s.pendingMask ≠ 0 ∧ s.decodesTo .nop :=
  ⟨rfl, rfl, rfl, by decide, _, rfl⟩

/-- Each case of the rule: DI, a committing step, RETI, EI, and an instruction that does none of these. -/
theorem test_witness_EnableTakesEffectOneInstructionLate :
    ((loaded [0xF3]).runsInstr ∧ (loaded [0xF3]).decodesTo .di) ∧
    ({ loaded [0xFB] with imePending := true }.runsInstr ∧
      { loaded [0xFB] with imePending := true }.decodesTo .ei) ∧
    ((loaded [0xD9]).runsInstr ∧ (loaded [0xD9]).decodesTo .reti) ∧
    ((loaded [0xFB]).runsInstr ∧ (loaded [0xFB]).decodesTo .ei) ∧
    ((loaded [0x76]).runsInstr ∧ (loaded [0x76]).decodesTo .halt) :=
  ⟨⟨⟨rfl, by decide, by decide⟩, _, rfl⟩, ⟨⟨rfl, by decide, by decide⟩, _, rfl⟩, ⟨⟨rfl, by decide, by decide⟩, _, rfl⟩,
    ⟨⟨rfl, by decide, by decide⟩, _, rfl⟩, ⟨rfl, by decide, by decide⟩, _, rfl⟩

/-- Each of the five registers does change somewhere. -/
theorem test_witness_WhoWritesControlBitsAndSp :
    (∃ t, exec .reti State.reset = .next t ∧ t.ime ≠ State.reset.ime ∧ t.sp ≠ State.reset.sp) ∧
    (∃ t, exec .ei State.reset = .next t ∧ t.imePending ≠ State.reset.imePending) ∧
    (∃ t, exec .stop State.reset = .next t ∧ t.halted ≠ State.reset.halted) ∧
    (∃ t, exec .illegalED State.reset = .next t ∧ t.fault ≠ State.reset.fault) :=
  ⟨⟨_, rfl, by decide, by decide⟩, ⟨_, rfl, by decide⟩, ⟨_, rfl, by decide⟩, _, rfl, by decide⟩

theorem test_witness_FlagsChangeOnlyWhereListed :
    (∃ t, exec .scf State.reset = .next t ∧ t.regs.f ≠ State.reset.regs.f) ∧
    (∃ t, exec (.bitBR8 0 (.reg .a)) State.reset = .next t ∧ t.regs.f ≠ State.reset.regs.f) :=
  ⟨⟨_, rfl, by decide⟩, _, rfl, by decide⟩

/-- The invariant holds right after reset. -/
theorem test_reset_inv : State.reset.Inv := ⟨by decide, by decide, fun _ h => nomatch h⟩

theorem test_witness_ResetMeetsTheInvariant :
    Memory.wf ({ ResetParams.chosen with mem := [(0x0000, 0x76#8), (0xFFFF, 0x1F#8)] } : ResetParams).mem := by decide

theorem test_witness_StepKeepsTheInvariant : State.reset.Inv ∧ ∃ t, step State.reset = .next t :=
  ⟨test_reset_inv, _, rfl⟩

theorem test_witness_ReachedStatesMeetTheInvariant :
    State.reset.Inv ∧ ∃ t, step State.reset = .next t ∧ Reaches State.reset (t.envMove (.request .timer)) :=
  ⟨test_reset_inv, _, rfl, .env _ (.core .refl rfl)⟩

/-- A run of a machine with another value of the parameters, and a meaning that reads one. -/
theorem test_witness_NothingWritesTheParameters :
    let s : State := { loaded [0x07] with params := clearing }
    (∃ t, exec .rlca s = .next t ∧ t.params = clearing) ∧
    ∃ t, step s = .next t ∧ Reaches s (t.envMove (.setPc 0)) ∧ (t.envMove (.setPc 0)).params = clearing :=
  ⟨⟨_, rfl, rfl⟩, _, rfl, .env _ (.core .refl rfl), rfl⟩

/-- A step with reads and writes. -/
theorem test_witness_StepIsItsBusAccessesInOrder :
    ∃ t, step { loaded [0x34] with regs := { zeros with h := 0xC0 } } = .next t ∧ t.bus.length = 3 :=
  ⟨_, rfl, by decide⟩

end Sys2Proof.Tests
end

/-! # The state (10_state.md): cells, pair views, the flags codec, and the low nibble of F -/

namespace Sys2Proof.Machine

/-! ### Register cells and pair views (R20, R24, R25) -/

/-- A register write touches only the register file. -/
theorem State.setReg_eq (s : State) (n : Reg8) (v : Byte) :
    s.setReg n v = { s with regs := (s.setReg n v).regs } := by cases n <;> rfl

theorem wordOf_toNat (hi lo : Byte) : (wordOf hi lo).toNat = 256 * hi.toNat + lo.toNat := by
  rw [wordOf, BitVec.toNat_append, ← Nat.shiftLeft_add_eq_or_of_lt lo.isLt, Nat.shiftLeft_eq, Nat.mul_comm]

/-- AF reads back the word written with the low nibble of F dropped. -/
theorem State.af_setAf (s : State) (w : Word) : (s.setAf w).af = w &&& 0xFFF0#16 := by
  calc (s.setAf w).af = hiByte w ++ (loByte w &&& 0xF0#8) := rfl
    _ = (hiByte w &&& BitVec.allOnes 8) ++ (loByte w &&& 0xF0#8) := by rw [BitVec.and_allOnes]
    _ = (hiByte w ++ loByte w) &&& (BitVec.allOnes 8 ++ 0xF0#8) := BitVec.and_append.symm
    _ = w &&& 0xFFF0#16 := by rw [hiByte_append_loByte]; rfl

/-- Settles O6: the cells by the read-after-write law, the views as numbers by `wordOf_toNat`, the view writes by the
pair-write laws. -/
theorem registerCellsAndPairViews : Obligations.RegisterCellsAndPairViews := by
  intro s n m v w
  exact ⟨State.reg_setReg s n m v, State.setReg_eq s n v,
    wordOf_toNat _ _, wordOf_toNat _ _, wordOf_toNat _ _, wordOf_toNat _ _,
    State.write16_eq s .bc w, State.write16_eq s .de w, State.write16_eq s .hl w, State.write16S_eq s .af w,
    State.af_setAf s 0x1234#16⟩

/-! ### The flags codec (R27) -/

/-- Settles O8: the two round trips, and `toByte` as the packed byte, whose low nibble is zero. -/
theorem flagsCodecRoundTrip : Obligations.FlagsCodecRoundTrip := by
  refine ⟨fun f => ⟨Flags.fromByte_toByte f, Flags.toByte_eq f, ?_⟩, fun b => ⟨rfl, Flags.toByte_fromByte b⟩⟩
  rw [Flags.toByte_eq]
  exact fByte_low f.z f.n f.h f.c

/-! ### What a step that completes has done (40_step_and_primitives.md R130) -/

/-- An instruction cycle that completes either executed the fetched instruction and committed, or latched the decode
fault of the byte it fetched. -/
theorem State.runInstr_next {s t : State} (h : s.runInstr = .next t) :
    (∃ i b s1 u, s.fetchInstr = (some i, b, s1) ∧ exec i s1 = .next u ∧ t = u.commitImePending s.imePending) ∨
      ∃ b s1, s.fetchInstr = (none, b, s1) ∧ t = s1.latchDecodeFault b := by
  rcases hf : s.fetchInstr with ⟨_ | i, b, s1⟩
  · simp only [State.runInstr, hf] at h
    cases h
    exact .inr ⟨b, s1, rfl, rfl⟩
  · obtain ⟨u, hu, -⟩ := exec_ends i s1
    rw [State.runInstr_some hf hu] at h
    cases h
    exact .inl ⟨i, b, s1, u, rfl, hu, rfl⟩

/-- A step that completes began without a latched fault, and dispatched an interrupt, idled, or ran an instruction. -/
theorem step_next {s t : State} (h : step s = .next t) :
    s.fault = none ∧
      ((s.ime = true ∧ s.pendingMask ≠ 0 ∧ t = (s.clearBus.setHalted false).dispatch s.pendingMask) ∨
        (s.halted = true ∧ s.pendingMask = 0 ∧ t = s.clearBus) ∨
        (s.runsInstr ∧ (s.clearBus.setHalted false).runInstr = .next t)) := by
  cases hf : s.fault with
  | some d => rw [step_fault hf] at h; cases h
  | none =>
    refine ⟨rfl, ?_⟩
    rcases State.branches s hf with ⟨hi, hp⟩ | ⟨hh, hp⟩ | hr
    · rw [step_dispatch hf hi hp] at h
      cases h
      exact .inl ⟨hi, hp, rfl⟩
    · rw [step_idle hf hh hp] at h
      cases h
      exact .inr (.inl ⟨hh, hp, rfl⟩)
    · exact .inr (.inr ⟨hr, step_runsInstr hr ▸ h⟩)

/-- What every step and every move of the environment keeps holds of all that is reached. -/
theorem Reaches.keeps {P : State → Prop} (hstep : ∀ {s t : State}, P s → step s = .next t → P t)
    (henv : ∀ {s : State} (m : EnvMove), P s → P (s.envMove m)) {s t : State} (h : Reaches s t) (hs : P s) : P t := by
  induction h with
  | refl => exact hs
  | core _ hu ih => exact hstep ih hu
  | env m _ ih => exact henv m ih

/-! ### The low nibble of F stays zero (R22) -/

@[simp] theorem State.dispatch_regs (s : State) (p : Byte) : (s.dispatch p).regs = s.regs := by
  rw [State.dispatch_eq]

@[simp] theorem State.latchDecodeFault_regs (s : State) (op : Byte) : (s.latchDecodeFault op).regs = s.regs := rfl

@[simp] theorem State.commitImePending_regs (s : State) (p0 : Bool) : (s.commitImePending p0).regs = s.regs := by
  unfold State.commitImePending
  split <;> rfl

theorem State.FLow.of_regs {s t : State} (hs : s.FLow) (h : t.regs = s.regs) : t.FLow := by
  unfold State.FLow
  rw [h]
  exact hs

theorem resetWith_fLow (p : ResetParams) : (State.resetWith p).FLow := by
  have key : ∀ x : BitVec 4, (x ++ 0#4) &&& 0x0F#8 = 0 := by decide
  exact key p.fHigh

theorem exec_fLow {i : Instr} {s t : State} (hs : s.FLow) (h : exec i s = .next t) : t.FLow := by
  obtain ⟨u, hu, -, hexec, -⟩ := exec_ends i s
  cases h.symm.trans hu
  exact hexec hs

theorem runInstr_fLow {s t : State} (hs : s.FLow) (h : s.runInstr = .next t) : t.FLow := by
  have hfetch : s.fetchInstr.2.2.FLow := (plain_fetchInstr s).fLow hs
  rcases State.runInstr_next h with ⟨i, b, s1, u, hf, hu, rfl⟩ | ⟨b, s1, hf, rfl⟩
  · rw [hf] at hfetch
    exact (exec_fLow hfetch hu).of_regs (State.commitImePending_regs u _)
  · rw [hf] at hfetch
    exact hfetch.of_regs (State.latchDecodeFault_regs s1 b)

theorem step_fLow {s t : State} (hs : s.FLow) (h : step s = .next t) : t.FLow := by
  obtain ⟨-, ⟨-, -, rfl⟩ | ⟨-, -, rfl⟩ | ⟨-, hr⟩⟩ := step_next h
  · exact hs.of_regs (State.dispatch_regs _ _)
  · exact hs.of_regs (State.clearBus_regs s)
  · have hready : (s.clearBus.setHalted false).FLow := hs.of_regs rfl
    exact runInstr_fLow hready hr

/-- Only the register accessor of the host writes F, and it masks (R23). -/
theorem envMove_fLow {s : State} (m : EnvMove) (hs : s.FLow) : (s.envMove m).FLow := by
  cases m with
  | setReg n v => exact (plain_setReg s n v).fLow hs
  | write a v => exact hs.of_regs (State.poke_regs s a v)
  | request k => exact hs.of_regs (State.poke_regs s _ _)
  | enable k => exact hs.of_regs (State.poke_regs s _ _)
  | setPc w => exact hs.of_regs (State.setPc_regs s w)
  | setSp w => exact hs.of_regs (State.setSp_regs s w)

/-- Settles O7: a write of F masks, reset leaves the low nibble zero, and every step and every move keeps it so. -/
theorem lowNibbleOfFIsAlwaysZero : Obligations.LowNibbleOfFIsAlwaysZero :=
  ⟨fun s v => State.reg_setReg s .f .f v, fun p _ h => h.keeps step_fLow envMove_fLow (resetWith_fLow p)⟩

end Sys2Proof.Machine

/-! # The prefixed table by its fields (30_encoding.md R94, R96, R100) -/

namespace Sys2Proof.Machine

/-! ### The fields of an opcode byte -/

/-- The operand codes in the order of R96. -/
theorem Op8.ofCode_ofNat (z : Fin 8) :
    Op8.ofCode (BitVec.ofNat 3 z) = #v[.reg .b, .reg .c, .reg .d, .reg .e, .reg .h, .reg .l, .memHl, .reg .a][z] := by
  revert z
  decide

/-- A bit field of a byte given as a number, read off that number by division. -/
theorem extractLsb'_ofNat_eq {n m start len : Nat} (h : n % 256 / 2 ^ start % 2 ^ len = m % 2 ^ len) :
    (BitVec.ofNat 8 n).extractLsb' start len = BitVec.ofNat len m := by
  apply BitVec.eq_of_toNat_eq
  simpa [Nat.shiftRight_eq_div_pow] using h

section
variable (x : Fin 4) (y z : Fin 8)

theorem extractGroup_ofNat : (BitVec.ofNat 8 (64 * x + 8 * y + z)).extractLsb' 6 2 = BitVec.ofNat 2 x :=
  extractLsb'_ofNat_eq (by omega)

theorem fieldIndex_ofNat : fieldIndex (BitVec.ofNat 8 (64 * x + 8 * y + z)) = BitVec.ofNat 3 y :=
  extractLsb'_ofNat_eq (by omega)

theorem fieldZ_ofNat : fieldZ (BitVec.ofNat 8 (64 * x + 8 * y + z)) = Op8.ofCode (BitVec.ofNat 3 z) :=
  congrArg Op8.ofCode (extractLsb'_ofNat_eq (by omega))

end

/-! ### The row behind 0xCB -/

/-- The rotate and shift operations in the order of R100. -/
def CbInstr.shiftOfCode (y : BitVec 3) : Op8 → CbInstr :=
  #v[.rlc, .rrc, .rl, .rr, .sla, .sra, .swap, .srl][y.toFin]

/-- The prefixed instruction with group `x`, operation or bit index `y`, and operand `o` (R100). -/
def CbInstr.ofFields (x : BitVec 2) (y : BitVec 3) (o : Op8) : CbInstr :=
  match x.toNat with
  | 0 => shiftOfCode y o
  | 1 => .bit y o
  | 2 => .res y o
  | _ => .set y o

/-- The eleven masks and patterns of the prefixed table pick out exactly the fields of R100. -/
theorem cbRow_eq_ofFields (op : Byte) :
    cbRow op = CbInstr.ofFields (op.extractLsb' 6 2) (fieldIndex op) (fieldZ op) := by
  revert op
  decide

theorem CbInstr.toInstr_shiftOfCode (y : Fin 8) (o : Op8) :
    (shiftOfCode (BitVec.ofNat 3 y) o).toInstr =
      (#v[.rlcR8, .rrcR8, .rlR8, .rrR8, .slaR8, .sraR8, .swapR8, .srlR8][y] : Op8 → Instr) o := by
  fin_cases y <;> rfl

/-- Behind 0xCB the decoder answers what the three fields of the byte name. -/
theorem decode_prefixed_ofFields (x : Fin 4) (y z : Fin 8) :
    decode (BitVec.ofNat 8 (64 * x + 8 * y + z)) true =
      some (CbInstr.ofFields (BitVec.ofNat 2 x) (BitVec.ofNat 3 y) (Op8.ofCode (BitVec.ofNat 3 z))).toInstr := by
  rw [decode_eq, decodeWith_true, cbRow_eq_ofFields, extractGroup_ofNat, fieldIndex_ofNat, fieldZ_ofNat]

/-- Settles O4: one instance of the decoding by fields for each value of the group field. -/
theorem prefixedOpcodesDecodeByFields : Obligations.PrefixedOpcodesDecodeByFields := by
  intro y z operand shift
  have group (x : Fin 4) := decode_prefixed_ofFields x y z
  simp only [Op8.ofCode_ofNat] at group
  refine ⟨?_, group 1, group 2, group 3⟩
  have hshift := group 0
  rw [Fin.val_zero, Nat.mul_zero, Nat.zero_add] at hshift
  exact hshift.trans (congrArg some (CbInstr.toInstr_shiftOfCode y operand))

end Sys2Proof.Machine

/-! # The arithmetic and stack primitives (40_step_and_primitives.md R142, R143, R150, R152, R155) -/

namespace Sys2Proof.Machine

/-- The exact sum, with the carry as the excess 256. -/
theorem overflowAdd8_exact (a b : Byte) (x : Bool) :
    (overflowAdd8 a b x).sum.toNat + 256 * (overflowAdd8 a b x).carry.toNat = a.toNat + b.toNat + x.toNat := by
  have hx := x.toNat_le
  simp only [overflowAdd8, BitVec.toNat_ofNat]
  by_cases h : a.toNat + b.toNat + x.toNat > 0xFF <;> simp [h] <;> omega

/-- Settles O9: the two exact equations; the borrow by its law, and the nibble conditions as the primitives test them. -/
theorem eightBitPrimitivesAreExact : Obligations.EightBitPrimitivesAreExact := by
  intro a b x add sub
  refine ⟨overflowAdd8_exact a b x, decide_eq_true_iff, subtractWithBorrow8_exact a b x, ?_, decide_eq_true_iff⟩
  have hborrow : sub.borrow = decide (a.toNat < b.toNat + x.toNat) := subtractWithBorrow8_borrow a b x
  rw [hborrow, decide_eq_true_iff]

/-- A push stores the word with its low byte at the new `sp`. -/
theorem storesWord_push16 (s : State) (v : Word) : StoresWord s (s.push16 v) (s.sp - 2) v := by
  intro a
  have hsp : s.sp - 2 + 1 = s.sp - 1 := by bv_omega
  rw [hsp]
  exact State.memPeek_push16 s v a

/-- The whole effect of a push (R142). -/
theorem pushed_push16 (s : State) (v : Word) : Pushed s (s.push16 v) v s.pc [] := by
  refine ⟨?_, storesWord_push16 s v⟩
  rw [State.push16_eq, List.append_nil]
  rfl

/-- A pop after a push restores `sp` (R142, R143). -/
theorem State.sp_pop16_push16 (s : State) (v : Word) : (s.push16 v).pop16.2.sp = s.sp := by
  calc (s.push16 v).pop16.2.sp = (s.push16 v).sp + 2 := by rw [State.pop16_eq]
    _ = s.sp - 2 + 2 := by rw [State.push16_eq]
    _ = s.sp := BitVec.sub_add_cancel s.sp 2

/-- Settles O12: push and pop by the equation of each, the value popped as the stack top a push leaves. -/
theorem stackPrimitivesPushAndPop : Obligations.StackPrimitivesPushAndPop := by
  intro s v
  refine ⟨pushed_push16 s v, State.pop16_eq s, ?_, State.sp_pop16_push16 s v⟩
  rw [State.pop16_eq]
  exact State.stackTop_push16 s v

end Sys2Proof.Machine

/-! # 8-bit arithmetic and logic (41_alu8.md) -/

namespace Sys2Proof.Machine

/-! ### The encodings (30_encoding.md R99, R102) -/

/-- The arithmetic and logic operations in the order of R99. -/
def aluOfCode (y : Fin 8) : Op8 → Instr :=
  #v[.addAR8, .adcAR8, .subR8, .sbcAR8, .andR8, .xorR8, .orR8, .cpR8][y]

/-- Row `y` of the quarter 0x80 to 0xBF is the operation `y` on the operand of the low three bits. -/
theorem decode_aluOfCode (y : Fin 8) (r : Op8) :
    decode (BitVec.ofNat 8 (0x80 + 8 * y) + r.code) false = some (aluOfCode y r) := by
  revert y
  rcases r with n | _
  · cases n <;> decide
  · decide

theorem decode_incR8 (r : Op8) : decode (0x04#8 + 8#8 * r.code) false = some (.incR8 r) := by
  rcases r with n | _
  · cases n <;> rfl
  · rfl

theorem decode_decR8 (r : Op8) : decode (0x05#8 + 8#8 * r.code) false = some (.decR8 r) := by
  rcases r with n | _
  · cases n <;> rfl
  · rfl

/-! ### Operations on A with a value -/

/-- A and the flags written, in this order. -/
theorem State.setFlags_setReg_a (s : State) (v : Byte) (f : Flags) :
    (s.setReg .a v).setFlags f = { s with regs := { s.regs with a := v, f := fByte f.z f.n f.h f.c } } := by
  rw [State.setFlags_eq]
  rfl

/-- Sum and flags with a carry-in (R162). -/
theorem State.addToA_eq (s : State) (v : Byte) (x : Bool) :
    s.addToA v x = { s with regs := { s.regs with
      a := s.regs.a + v + BitVec.ofNat 8 x.toNat
      f := fByte (s.regs.a + v + BitVec.ofNat 8 x.toNat == 0) false
        (15 < s.regs.a.toNat % 16 + v.toNat % 16 + x.toNat) (255 < s.regs.a.toNat + v.toNat + x.toNat) } } := by
  rw [← overflowAdd8_sum]
  exact State.setFlags_setReg_a s _ _

/-- Sum and flags without a carry-in (R160). -/
theorem State.addToA_false (s : State) (v : Byte) :
    s.addToA v false = { s with regs := { s.regs with
      a := s.regs.a + v
      f := fByte (s.regs.a + v == 0) false
        (15 < s.regs.a.toNat % 16 + v.toNat % 16) (255 < s.regs.a.toNat + v.toNat) } } := by
  simpa using s.addToA_eq v false

/-- Difference and flags with a borrow-in (R166). -/
theorem State.subFromA_eq (s : State) (v : Byte) (x : Bool) :
    s.subFromA v x = { s with regs := { s.regs with
      a := s.regs.a - v - BitVec.ofNat 8 x.toNat
      f := fByte (s.regs.a - v - BitVec.ofNat 8 x.toNat == 0) true
        (s.regs.a.toNat % 16 < v.toNat % 16 + x.toNat) (s.regs.a.toNat < v.toNat + x.toNat) } } := by
  rw [← subtractWithBorrow8_result, ← subtractWithBorrow8_borrow]
  exact State.setFlags_setReg_a s _ _

/-- Difference and flags without a borrow-in (R164). -/
theorem State.subFromA_false (s : State) (v : Byte) :
    s.subFromA v false = { s with regs := { s.regs with
      a := s.regs.a - v
      f := fByte (s.regs.a - v == 0) true
        (s.regs.a.toNat % 16 < v.toNat % 16) (s.regs.a.toNat < v.toNat) } } := by
  simpa using s.subFromA_eq v false

/-- A comparison is the subtraction with A put back (R174). -/
theorem State.compareWithA_eq_subFromA (s : State) (v : Byte) :
    s.compareWithA v = { s with regs := { s.regs with f := (s.subFromA v false).regs.f } } := rfl

/-- The result and the flags of a logic operation (R168, R170, R172). -/
theorem State.logicToA_eq (s : State) (res : Byte) (h : Bool) :
    s.logicToA res h = { s with regs := { s.regs with a := res, f := fByte (res == 0) false h false } } :=
  State.setFlags_setReg_a s _ _

/-! ### The instructions with an operand field -/

/-- An instruction that reads its operand first works on the operand's value, with the read recorded (R144). -/
theorem next_read8 (op : State → Byte → State) (r : Op8) (s : State) :
    (.next (op (s.read8 r).2 (s.read8 r).1) : Result) =
      .next (op { s with bus := s.bus ++ s.operandRead r } (s.operand r)) := by
  rw [State.read8_eq]

/-- Settles O13: both rows of the group, and the sum without and with the carry on the operand read. -/
theorem addAndAdcRegisterForms : Obligations.AddAndAdcRegisterForms := by
  intro r s a v x
  refine ⟨decode_aluOfCode 0 r, decode_aluOfCode 1 r, ?add, ?adc⟩
  case add => exact (next_read8 (·.addToA · false) r s).trans (congrArg _ (State.addToA_false _ _))
  case adc => exact (next_read8 (fun t w => t.addToA w t.flags.c) r s).trans (congrArg _ (State.addToA_eq _ _ _))

/-- Settles O14: the three rows, the difference without and with the borrow, and the comparison by the difference. -/
theorem subSbcAndCpRegisterForms : Obligations.SubSbcAndCpRegisterForms := by
  intro r s a v x subF
  refine ⟨decode_aluOfCode 2 r, decode_aluOfCode 3 r, decode_aluOfCode 7 r, ?sub, ?sbc, ?cp⟩
  case sub => exact (next_read8 (·.subFromA · false) r s).trans (congrArg _ (State.subFromA_false _ _))
  case sbc => exact (next_read8 (fun t w => t.subFromA w t.flags.c) r s).trans (congrArg _ (State.subFromA_eq _ _ _))
  case cp =>
    refine (next_read8 State.compareWithA r s).trans ?_
    rw [State.compareWithA_eq_subFromA, State.subFromA_false]

/-- Settles O15: the three rows, and each result written by the one rule for logic. -/
theorem andXorOrRegisterForms : Obligations.AndXorOrRegisterForms := by
  intro r s a v
  refine ⟨decode_aluOfCode 4 r, decode_aluOfCode 5 r, decode_aluOfCode 6 r, ?and, ?xor, ?or⟩
  case and => exact (next_read8 State.andToA r s).trans (congrArg _ (State.logicToA_eq _ _ _))
  case xor => exact (next_read8 State.xorToA r s).trans (congrArg _ (State.logicToA_eq _ _ _))
  case or => exact (next_read8 State.orToA r s).trans (congrArg _ (State.logicToA_eq _ _ _))

/-! ### INC and DEC of a byte (R176, R177) -/

theorem overflowAdd8_one_sum (v : Byte) : (overflowAdd8 v 1 false).sum = v + 1 :=
  (overflowAdd8_sum v 1 false).trans (BitVec.add_zero _)

theorem subtractWithBorrow8_one_result (v : Byte) : (subtractWithBorrow8 v 1 false).result = v - 1 :=
  (subtractWithBorrow8_result v 1 false).trans (BitVec.sub_zero _)

/-- INC reaches zero from 0xFF only, and carries out of the low nibble from 15 only. -/
theorem incFlags_eq (old : Flags) (v : Byte) :
    incFlags old (overflowAdd8 v 1 false) = ⟨v == 0xFF#8, false, v.toNat % 16 == 15, old.c⟩ := by
  have hz : (v + 1 == 0) = (v == 0xFF#8) := by
    rw [Bool.eq_iff_iff, beq_iff_eq, beq_iff_eq]
    bv_omega
  have hh : (overflowAdd8 v 1 false).halfCarry = (v.toNat % 16 == 15) := by
    rw [Bool.eq_iff_iff, beq_iff_eq, overflowAdd8, decide_eq_true_iff]
    change 15 < v.toNat % 16 + 1 ↔ v.toNat % 16 = 15
    omega
  rw [incFlags, overflowAdd8_one_sum, hz, hh]

/-- DEC reaches zero from 1 only, and borrows from the high nibble at a zero low nibble only. -/
theorem decFlags_eq (old : Flags) (v : Byte) :
    decFlags old (subtractWithBorrow8 v 1 false) = ⟨v == 0x01#8, true, v.toNat % 16 == 0, old.c⟩ := by
  have hz : (v - 1 == 0) = (v == 0x01#8) := by
    rw [Bool.eq_iff_iff, beq_iff_eq, beq_iff_eq]
    bv_omega
  have hh : (subtractWithBorrow8 v 1 false).halfBorrow = (v.toNat % 16 == 0) := by
    rw [Bool.eq_iff_iff, beq_iff_eq, subtractWithBorrow8, decide_eq_true_iff]
    exact Nat.lt_one_iff
  rw [decFlags, subtractWithBorrow8_one_result, hz, hh]

/-- An operand written with the four flags: `operandWritten_write8` in the statements' own byte of F. -/
theorem State.operandWritten_write8_fByte (s : State) (r : Op8) (v : Byte) (f : Flags) :
    OperandWritten s ((({ s with bus := s.bus ++ s.operandRead r } : State).write8 r v).setFlags f) r v
      (fByte f.z f.n f.h f.c) (s.operandRead r) := by
  rw [← Flags.toByte_masked]
  exact State.operandWritten_write8 s r v f

/-- Settles O17: both rows, and for each the operand written back under the flags that keep C. -/
theorem incAndDecOfAByte : Obligations.IncAndDecOfAByte := by
  intro r s v
  refine ⟨decode_incR8 r, decode_decR8 r, ⟨_, rfl, ?inc⟩, ⟨_, rfl, ?dec⟩⟩
  case inc =>
    rw [State.read8_eq, overflowAdd8_one_sum, incFlags_eq]
    exact State.operandWritten_write8_fByte s r (v + 1) _
  case dec =>
    rw [State.read8_eq, subtractWithBorrow8_one_result, decFlags_eq]
    exact State.operandWritten_write8_fByte s r (v - 1) _

end Sys2Proof.Machine

/-! # 16-bit arithmetic (42_alu16.md) -/

namespace Sys2Proof.Machine

/-! ### INC and DEC of a pair (30_encoding.md R97, R102; R200, R201) -/

theorem decode_incRr (p : Pair) : decode (0x03#8 + 16#8 * p.code) false = some (.incRr p) := by
  cases p <;> rfl

theorem decode_decRr (p : Pair) : decode (0x0B#8 + 16#8 * p.code) false = some (.decRr p) := by
  cases p <;> rfl

/-- INC rr writes the pair and nothing else, F included (R200). -/
theorem exec_incRr (p : Pair) (s : State) : exec (.incRr p) s = .next (s.putPair p (s.pairValue p + 1)) := by
  rw [← State.read16_eq, ← State.write16_eq]
  rfl

/-- DEC rr writes the pair and nothing else, F included (R201). -/
theorem exec_decRr (p : Pair) (s : State) : exec (.decRr p) s = .next (s.putPair p (s.pairValue p - 1)) := by
  rw [← State.read16_eq, ← State.write16_eq]
  rfl

/-- Settles O20: the row of each instruction at the pair's code, and its meaning as one write of the pair. -/
theorem incAndDecOfAPair : Obligations.IncAndDecOfAPair :=
  fun p s => ⟨decode_incRr p, decode_decRr p, exec_incRr p s, exec_decRr p s⟩

end Sys2Proof.Machine

/-! # Prefixed shifts and single bits (43_rotate_shift_bit.md) -/

namespace Sys2Proof.Machine

/-! ### The encodings (30_encoding.md R96, R100) -/

/-- An operand's code is one of the eight of R96 and names that operand. -/
theorem Op8.exists_code (r : Op8) :
    ∃ z : Fin 8, r.code = BitVec.ofNat 8 z ∧ Op8.ofCode (BitVec.ofNat 3 z) = r := by
  rcases r with n | _
  · cases n
    case a => exact ⟨7, rfl, rfl⟩
    case b => exact ⟨0, rfl, rfl⟩
    case c => exact ⟨1, rfl, rfl⟩
    case d => exact ⟨2, rfl, rfl⟩
    case e => exact ⟨3, rfl, rfl⟩
    case h => exact ⟨4, rfl, rfl⟩
    case l => exact ⟨5, rfl, rfl⟩
  · exact ⟨6, rfl, rfl⟩

/-- `decode_prefixed_ofFields` with the byte written as a sum of the fields' codes. -/
theorem decode_prefixed_code (x : Fin 4) (y : BitVec 3) (r : Op8) :
    decode (BitVec.ofNat 8 (64 * x) + 8#8 * y.setWidth 8 + r.code) true =
      some (CbInstr.ofFields (BitVec.ofNat 2 x) y r).toInstr := by
  obtain ⟨z, hcode, hr⟩ := Op8.exists_code r
  have hbyte : BitVec.ofNat 8 (64 * x) + 8#8 * y.setWidth 8 + r.code =
      BitVec.ofNat 8 (64 * x + 8 * y.toFin + z) := by
    rw [hcode, BitVec.ofNat_add, BitVec.ofNat_add, ← BitVec.ofNat_toNat, ← BitVec.ofNat_mul]
    rfl
  have hy : BitVec.ofNat 3 y.toFin = y := by simp
  rw [hbyte, decode_prefixed_ofFields, hr, hy]

/-! ### SRA, SWAP and SRL (R235 to R238) -/

/-- The bit shifted out to the right. -/
theorem getLsbD_zero_eq_odd (v : Byte) : v.getLsbD 0 = decide (v.toNat % 2 = 1) := Nat.testBit_zero v.toNat

theorem shiftRightArith_eq (v : Byte) (c : Bool) :
    shiftRightArith v c = ⟨BitVec.ofNat 8 (v.toNat / 2 + 128 * (v.toNat / 128)), v.toNat % 2 = 1⟩ := by
  have hres : v >>> 1 ||| v &&& 0x80#8 = BitVec.ofNat 8 (v.toNat / 2 + 128 * (v.toNat / 128)) := by
    revert v
    decide
  rw [shiftRightArith, hres, getLsbD_zero_eq_odd]

theorem swapNibbles_eq (v : Byte) (c : Bool) :
    swapNibbles v c = ⟨BitVec.ofNat 8 (16 * (v.toNat % 16) + v.toNat / 16), false⟩ := by
  have hres : v <<< 4 ||| v >>> 4 = BitVec.ofNat 8 (16 * (v.toNat % 16) + v.toNat / 16) := by
    revert v
    decide
  rw [swapNibbles, hres]

theorem shiftRightLogical_eq (v : Byte) (c : Bool) :
    shiftRightLogical v c = ⟨BitVec.ofNat 8 (v.toNat / 2), v.toNat % 2 = 1⟩ := by
  have hres : v >>> 1 = BitVec.ofNat 8 (v.toNat / 2) := by bv_omega
  rw [shiftRightLogical, hres, getLsbD_zero_eq_odd]

/-- A prefixed rotate or shift works on the operand's value, with the read recorded (R144, R238). -/
theorem State.shift8_eq (s : State) (r : Op8) (op : Byte → Bool → ShiftResult) :
    s.shift8 r op = (({ s with bus := s.bus ++ s.operandRead r } : State).write8 r
      (op (s.operand r) s.flagC).res).setFlags (shiftFlags (op (s.operand r) s.flagC)) := by
  rw [State.shift8, State.read8_eq]
  rfl

/-- A prefixed shift whose result is `n` writes the operand and all four flags (R238); Z may be read off any `m` that is
zero together with the byte `n`. -/
theorem State.operandWritten_shift8 {s : State} {r : Op8} {op : Byte → Bool → ShiftResult} {n m : Nat} {cy : Bool}
    (hop : op (s.operand r) s.flagC = ⟨BitVec.ofNat 8 n, cy⟩) (hm : n % 256 = 0 ↔ m = 0) :
    OperandWritten s (s.shift8 r op) r (BitVec.ofNat 8 n) (fByte (m == 0) false false cy) (s.operandRead r) := by
  have hz : (BitVec.ofNat 8 n == 0) = (m == 0) := by
    rw [Bool.eq_iff_iff, beq_iff_eq, beq_iff_eq, ← hm]
    bv_omega
  rw [State.shift8_eq, hop, ← hz]
  exact State.operandWritten_write8_fByte s r _ _

/-- Settles O24: the three rows by their fields, and each result as a number handed to the one rule for shifts. -/
theorem sraSwapAndSrl : Obligations.SraSwapAndSrl := by
  intro r s v
  have hv : v < 256 := (s.operand r).isLt
  refine ⟨decode_prefixed_code 0 5 r, decode_prefixed_code 0 6 r, decode_prefixed_code 0 7 r,
    ⟨_, rfl, ?sra⟩, ⟨_, rfl, ?swap⟩, ⟨_, rfl, ?srl⟩⟩
  case sra => exact State.operandWritten_shift8 (shiftRightArith_eq _ _) (by omega)
  case swap =>
    have hres : 16 * (v % 16) + v / 16 < 256 := by omega
    exact State.operandWritten_shift8 (swapNibbles_eq _ _) (by rw [Nat.mod_eq_of_lt hres]; omega)
  case srl => exact State.operandWritten_shift8 (shiftRightLogical_eq _ _) (by omega)

/-! ### RES and SET (R241, R242) -/

/-- The mask of one bit. -/
theorem getLsbD_one_shiftLeft (b : Nat) {k : Nat} (hk : k < 8) : (1#8 <<< b).getLsbD k = (k == b) := by
  rw [← BitVec.twoPow_eq, BitVec.getLsbD_twoPow, Bool.eq_iff_iff, Bool.and_eq_true, decide_eq_true_iff,
    decide_eq_true_iff, beq_iff_eq]
  omega

theorem getLsbD_clearBit (v : Byte) (b : Nat) {k : Nat} (hk : k < 8) :
    (clearBit v b).getLsbD k = (v.getLsbD k && !(k == b)) := by
  rw [clearBit, BitVec.getLsbD_and, BitVec.getLsbD_not, getLsbD_one_shiftLeft b hk, decide_eq_true hk, Bool.true_and]

theorem getLsbD_setBit (v : Byte) (b : Nat) {k : Nat} (hk : k < 8) :
    (setBit v b).getLsbD k = (v.getLsbD k || k == b) := by
  rw [setBit, BitVec.getLsbD_or, getLsbD_one_shiftLeft b hk]

/-- A read-modify-write writes its operand back and keeps F. -/
theorem State.operandWritten_modify8_operand (s : State) (r : Op8) (op : Byte → Byte) :
    OperandWritten s (s.modify8 r op) r (op (s.operand r)) s.regs.f (s.operandRead r) := by
  rw [State.modify8, State.read8_eq]
  exact State.operandWritten_modify8 s r _

/-- Settles O27: both rows by their fields, the write-back by the rule for read-modify-write, and the byte written bit by
bit. -/
theorem resAndSetChangeOneBit : Obligations.ResAndSetChangeOneBit := by
  intro b r s v
  refine ⟨decode_prefixed_code 2 b r, decode_prefixed_code 3 b r,
    ⟨_, _, rfl, s.operandWritten_modify8_operand r _, ?res⟩, ⟨_, _, rfl, s.operandWritten_modify8_operand r _, ?set⟩⟩
  case res => exact fun _ hk => getLsbD_clearBit v b.toNat hk
  case set => exact fun _ hk => getLsbD_setBit v b.toNat hk

end Sys2Proof.Machine

/-! # Control flow (44_control.md) -/

namespace Sys2Proof.Machine

/-! ### RETI (R269) -/

/-- RETI is a pop into `pc` with `ime` set. -/
theorem exec_reti (s : State) :
    exec .reti s =
      .next { s with pc := s.stackTop, sp := s.sp + 2, ime := true, bus := s.bus ++ s.stackTopRead } := by
  have h : exec .reti s = .next ((s.pop16.2.setPc s.pop16.1).setIme true) := rfl
  rw [h, State.pop16_eq]
  rfl

/-- The five vectors of R362. -/
theorem Irq.vector_mem (k : Irq) : Irq.vector k ∈ [0x40#16, 0x48#16, 0x50#16, 0x58#16, 0x60#16] := by
  cases k <;> decide

/-- A commit sets `ime` or leaves it (R369). -/
theorem State.commitImePending_ime (s : State) (p0 : Bool) :
    (s.commitImePending p0).ime = (s.ime || p0 && s.imePending) := by
  rw [State.commitImePending_eq]
  cases p0 && s.imePending with
  | true => exact (Bool.or_true _).symm
  | false => exact (Bool.or_false _).symm

/-- A dispatch clears `ime`, pushes one word and goes to one of the five vectors (R366). -/
theorem State.dispatch_control (s : State) (p : Byte) :
    (s.dispatch p).ime = false ∧ (s.dispatch p).sp = s.sp - 2 ∧
      (s.dispatch p).pc ∈ [0x40#16, 0x48#16, 0x50#16, 0x58#16, 0x60#16] := by
  rw [State.dispatch_eq]
  exact ⟨rfl, rfl, Irq.vector_mem _⟩

/-- Settles O31: the row and the meaning of RETI; the next step dispatches because `ime` is set, and its push takes `sp`
back to where RETI found it. -/
theorem returnFromInterrupt : Obligations.ReturnFromInterrupt := by
  intro s
  refine ⟨rfl, _, exec_reti s, rfl, ?dispatched, ?committed⟩
  case dispatched =>
    intro hf hp
    obtain ⟨hime, hsp, hpc⟩ := State.dispatch_control _ _
    exact ⟨_, step_dispatch hf rfl hp, hime, hsp.trans (BitVec.add_sub_cancel s.sp 2), hpc⟩
  case committed =>
    intro p0
    rw [State.commitImePending_ime, Bool.true_or]

end Sys2Proof.Machine

/-! # Loads and the stack (45_load_stack.md) -/

namespace Sys2Proof.Machine

/-! ### The load block 0x40 to 0x7F (R290) -/

/-- The instruction of the block with destination register `n`. -/
def loadInto (n : Gpr) : Op8 → Instr :=
  match n with
  | .b => .ldBR8
  | .c => .ldCR8
  | .d => .ldDR8
  | .e => .ldER8
  | .h => .ldHR8
  | .l => .ldLR8
  | .a => .ldAR8

/-- The instruction of the block with destination [HL] and source register `n`. -/
def storeFrom : Gpr → Instr
  | .b => .ldMemHlB
  | .c => .ldMemHlC
  | .d => .ldMemHlD
  | .e => .ldMemHlE
  | .h => .ldMemHlH
  | .l => .ldMemHlL
  | .a => .ldMemHlA

/-- Bits 5-3 are the destination's code, bits 2-0 the source's. -/
theorem decode_loadInto (n : Gpr) (r : Op8) :
    decode (0x40#8 + 8#8 * (Op8.reg n).code + r.code) false = some (loadInto n r) := by
  obtain ⟨z, hcode, rfl⟩ := Op8.exists_code r
  rw [hcode]
  clear hcode
  revert z
  cases n <;> decide

/-- The row of destination [HL], whose code is 6. -/
theorem decode_storeFrom (n : Gpr) : decode (0x70#8 + (Op8.reg n).code) false = some (storeFrom n) := by
  cases n <;> rfl

theorem State.reg_cell (s : State) (n : Gpr) : s.reg (Gpr.cell n) = s.operand (.reg n) := by cases n <;> rfl

/-- A load into a register is the operand read and then the register written (R144). -/
theorem State.loadReg_cell (s : State) (n : Gpr) (r : Op8) :
    s.loadReg (Gpr.cell n) r = { s with regs := s.regs.put n (s.operand r), bus := s.bus ++ s.operandRead r } := by
  rw [State.loadReg, State.read8_eq]
  exact State.write8_reg _ n _

theorem exec_loadInto (n : Gpr) (r : Op8) (s : State) :
    exec (loadInto n r) s =
      .next { s with regs := s.regs.put n (s.operand r), bus := s.bus ++ s.operandRead r } := by
  rw [← State.loadReg_cell]
  cases n <;> rfl

/-- A byte written to [HL], with F kept and nothing read before. -/
theorem State.operandWritten_memWrite_hl (s : State) (v : Byte) :
    OperandWritten s (s.memWrite s.hl v) .memHl v s.regs.f [] := by
  refine ⟨?_, fun b => State.memPeek_memWrite s s.hl b v⟩
  rw [List.append_nil]
  rfl

theorem exec_storeFrom (n : Gpr) (s : State) :
    ∃ t, exec (storeFrom n) s = .next t ∧ OperandWritten s t .memHl (s.operand (.reg n)) s.regs.f [] := by
  refine ⟨s.memWrite s.hl (s.operand (.reg n)), ?_, s.operandWritten_memWrite_hl _⟩
  rw [← State.reg_cell]
  cases n <;> rfl

/-- Settles O33: the meaning and the row of every load into a register and of every store to [HL], and the byte between
the stores, which is HALT. -/
theorem loadBlock : Obligations.LoadBlock := by
  intro r s v loaded stored
  exact ⟨exec_loadInto .b r s, exec_loadInto .c r s, exec_loadInto .d r s, exec_loadInto .e r s,
    exec_loadInto .h r s, exec_loadInto .l r s, exec_loadInto .a r s,
    exec_storeFrom .b s, exec_storeFrom .c s, exec_storeFrom .d s, exec_storeFrom .e s,
    exec_storeFrom .h s, exec_storeFrom .l s, exec_storeFrom .a s,
    decode_loadInto .b r, decode_loadInto .c r, decode_loadInto .d r, decode_loadInto .e r,
    decode_loadInto .h r, decode_loadInto .l r, decode_loadInto .a r,
    decode_storeFrom .b, decode_storeFrom .c, decode_storeFrom .d, decode_storeFrom .e,
    decode_storeFrom .h, decode_storeFrom .l, decode_storeFrom .a, rfl⟩

end Sys2Proof.Machine

/-! # The decoder and the encoder undo each other (30_encoding.md R90, R91, R102, R108) -/

namespace Sys2Proof.Machine

/-! ### Every row is reached by the encoder's byte -/

/-- A fact of the operand codes holds of every operand. -/
theorem Op8.forall_of_codes {P : Op8 → Prop} (h : ∀ z : Fin 8, P (Op8.ofCode (BitVec.ofNat 3 z))) (r : Op8) : P r := by
  obtain ⟨z, -, rfl⟩ := Op8.exists_code r
  exact h z

/-- The encoder writes one byte, whose row in the base table is `i`, or 0xCB and a byte whose row in the prefixed table
is `i`. -/
def EncodesARow (i : Instr) : Prop :=
  (∃ op, encode i = [op] ∧ baseRow op = i) ∨ ∃ op, encode i = [cbPrefix, op] ∧ (cbRow op).toInstr = i

/-- Every row does, the row of 0xCB and the illegal rows among them. -/
theorem encodesARow (i : Instr) : EncodesARow i := by
  cases i
  case jrCcE8 cc | retCc cc | jpCcA16 cc | callCcA16 cc => exact .inl ⟨_, rfl, by cases cc <;> rfl⟩
  case ldRrD16 p | addHlRr p | incRr p | decRr p | popRr p | pushRr p => exact .inl ⟨_, rfl, by cases p <;> rfl⟩
  case rstT t => exact .inl ⟨_, rfl, by revert t; decide⟩
  case incR8 r | decR8 r | ldR8D8 r | ldBR8 r | ldCR8 r | ldDR8 r | ldER8 r | ldHR8 r | ldLR8 r | ldAR8 r | addAR8 r |
      adcAR8 r | subR8 r | sbcAR8 r | andR8 r | xorR8 r | orR8 r | cpR8 r =>
    refine .inl ⟨_, rfl, ?_⟩
    induction r using Op8.forall_of_codes with
    | h z => revert z; decide
  case rlcR8 r | rrcR8 r | rlR8 r | rrR8 r | slaR8 r | sraR8 r | swapR8 r | srlR8 r =>
    refine .inr ⟨_, rfl, ?_⟩
    induction r using Op8.forall_of_codes with
    | h z => revert z; decide
  case bitBR8 b r | resBR8 b r | setBR8 b r =>
    refine .inr ⟨_, rfl, ?_⟩
    induction r using Op8.forall_of_codes with
    | h z => revert b z; decide
  all_goals exact .inl ⟨_, rfl, rfl⟩

/-- A row that is an instruction and whose opcode byte is not in `ILLEGAL_OPCODES` is read back; a prefixed one is under
every value (log 9). -/
theorem decodeBytesWith_encode {illegal : List Byte} {i : Instr} (hwf : i.wf = true)
    (hop : i.format = .cb ∨ ∀ op ∈ encode i, op ∉ illegal) (rest : List Byte) :
    decodeBytesWith illegal (encode i ++ rest) = .ok (i, rest) := by
  rcases encodesARow i with ⟨op, henc, hrow⟩ | ⟨op, henc, hrow⟩
  · have hbase : (baseRow op).format.opcodeBytes = 1 := (baseRow_spec op (hrow ▸ hwf)).2.2
    have hlegal : op ∉ illegal := by
      rcases hop with hcb | hop
      · rw [hrow, hcb] at hbase
        cases hbase
      · exact hop op (henc ▸ List.mem_singleton_self op)
    rw [henc]
    exact decodeBytesWith_plain (decodeWith_false_iff.mpr ⟨hlegal, hrow ▸ hwf, hrow.symm⟩) rest
  · rw [henc, ← hrow]
    exact decodeBytesWith_prefixed illegal op rest

/-- The default `ILLEGAL_OPCODES` holds no instruction's opcode. -/
theorem encode_not_mem_illegalOpcodes {i : Instr} (hwf : i.wf = true) :
    i.format = .cb ∨ ∀ op ∈ encode i, op ∉ Config.illegalOpcodes := by
  rcases encodesARow i with ⟨op, henc, rfl⟩ | ⟨op, -, rfl⟩
  · right
    intro op' hmem hill
    rw [henc, List.mem_singleton] at hmem
    subst hmem
    rw [(baseRow_wf_iff op').mpr (.inr hill)] at hwf
    cases hwf
  · left
    cases cbRow op <;> rfl

/-- Settles O1: the read-back under any `ILLEGAL_OPCODES` without the opcode, the default set among them. -/
theorem decodeUndoesEncode : Obligations.DecodeUndoesEncode :=
  ⟨fun _ rest hwf => decodeBytesWith_encode hwf (encode_not_mem_illegalOpcodes hwf) rest,
    fun _ _ rest hwf hop => decodeBytesWith_encode hwf hop rest⟩

/-- Settles O2: a prefixed instruction is spelled by 0xCB and its byte, any other by its one byte, as the two
tables' rows have it. -/
theorem encodeUndoesDecode : Obligations.EncodeUndoesDecode := by
  intro illegal bytes rest i h
  rcases bytes with _ | ⟨op, tail⟩
  · cases h
  by_cases hp : op = cbPrefix
  · subst hp
    rcases tail with _ | ⟨op2, tail⟩
    · cases h
    · rw [decodeBytesWith_prefixed] at h
      cases h
      obtain ⟨hwf, henc, -⟩ := cbRow_spec op2
      exact ⟨hwf, by rw [henc]; rfl⟩
  · cases hd : decodeWith illegal op false with
    | none => simp [decodeBytesWith, hp, hd] at h
    | some j =>
      rw [decodeBytesWith_plain hd] at h
      cases h
      obtain ⟨-, hwf, henc, -⟩ := decodeWith_false_spec hd
      exact ⟨hwf, by rw [henc]; rfl⟩

/-! ### The two tables (R100, R102, R108, R109) -/

/-- Every byte matches exactly one of the 93 rows of the base table. -/
theorem baseTable_match_unique (op : Byte) : (baseTable.filter (·.matches op)).length = 1 := by
  revert op
  decide

theorem cbTable_match_unique (op : Byte) : (cbTable.filter (·.matches op)).length = 1 := by
  revert op
  decide

/-- A value of `ILLEGAL_OPCODES` takes its bytes out of the default decoder's table. -/
theorem decodeWith_false_eq (illegal : List Byte) (op : Byte) :
    decodeWith illegal op false = if op ∈ illegal then none else decode op false := by
  by_cases hill : op ∈ illegal
  · rw [if_pos hill]
    exact decodeWith_false_none.mpr (.inl hill)
  · rw [if_neg hill]
    ext i
    have hdefault : (baseRow op).wf = true → op ∉ Config.illegalOpcodes := fun hwf hmem => by
      rw [(baseRow_wf_iff op).mpr (.inr hmem)] at hwf
      cases hwf
    rw [decode_eq, decodeWith_false_iff, decodeWith_false_iff]
    tauto

/-- Settles O3: one row per byte, none exactly where `decodeWith_false_none` says, and other values of the parameter by
`decodeWith_false_eq`. -/
theorem opcodeTablesPartitionTheBytes : Obligations.OpcodeTablesPartitionTheBytes := by
  refine ⟨fun op => ⟨baseTable_match_unique op, cbTable_match_unique op⟩, fun op => ?none, fun op => ?prefixed,
    fun illegal op => ⟨decodeWith_false_eq illegal op, rfl⟩⟩
  case none =>
    rw [decode_eq, decodeWith_false_none, ← or_assoc, or_right_comm, or_self, or_comm]
    exact List.mem_cons.symm
  case prefixed =>
    rw [decode_eq, decodeWith_true]
    exact Option.some_ne_none _

/-- Settles O5: the two tables by their fields and the list by exact match are closed facts about the base table. -/
theorem baseOpcodesDecodeAsTabled : Obligations.BaseOpcodesDecodeAsTabled := by
  refine ⟨?fields, ?pairs, ?exact⟩
  case fields => decide
  case pairs => decide
  case exact => exact List.forall_mem_append.mpr ⟨by decide, by decide⟩

end Sys2Proof.Machine

/-! # Memory, the bus record and the invariant (20_memory.md R63, R74; 10_state.md R22; 60_exceptions.md R360) -/

namespace Sys2Proof.Machine

/-- Settles O11: the law of a read after a write, the two accesses by their equations, the canonical form by the law of
memory. -/
theorem memoryReadsTheLastWrite : Obligations.MemoryReadsTheLastWrite :=
  fun s a b v => ⟨State.memPeek_poke s a b v, State.memPeek_memWrite s a b v, rfl, State.memRead_eq s a,
    fun h => Memory.wf_write h v a.isLt⟩

/-! ### What a step does, from the state with the record cleared -/

theorem traced_commitImePending (s : State) (p0 : Bool) : Traced s (s.commitImePending p0) := by
  rw [State.commitImePending_eq]
  split
  · exact Traced.of_eq rfl rfl
  · exact Traced.refl s

theorem plain_acknowledge (s : State) (k : Irq) : Plain s (s.acknowledge k) :=
  (plain_memRead s _).trans (plain_memWrite _ _ _)

/-- A dispatch is plain but for `ime`, which it clears first. -/
theorem plain_dispatch (s : State) (p : Byte) : Plain (s.setIme false) (s.dispatch p) :=
  ((plain_acknowledge _ _).trans (plain_push16 _ _)).trans (plain_setPc _ _)

/-- What an instruction cycle does after its opcode fetch replays. -/
theorem traced_runInstr_fetched {s t : State} (h : s.runInstr = .next t) : Traced s.fetchInstr.2.2 t := by
  rcases State.runInstr_next h with ⟨i, b, s1, u, hf, hu, rfl⟩ | ⟨b, s1, hf, rfl⟩
  · obtain ⟨u', hu', htraced, -, -⟩ := exec_ends i s1
    cases hu.symm.trans hu'
    rw [hf]
    exact htraced.trans (traced_commitImePending u _)
  · rw [hf]
    exact Traced.of_eq rfl rfl

theorem traced_runInstr {s t : State} (h : s.runInstr = .next t) : Traced s t :=
  (plain_fetchInstr s).traced.trans (traced_runInstr_fetched h)

/-- The accesses of a step replay from the memory it began with. -/
theorem traced_step {s t : State} (h : step s = .next t) : Traced s.clearBus t := by
  have hready : Traced s.clearBus (s.clearBus.setHalted false) := Traced.of_eq rfl rfl
  obtain ⟨-, ⟨-, -, rfl⟩ | ⟨-, -, rfl⟩ | ⟨-, hr⟩⟩ := step_next h
  · exact (plain_dispatch (s.clearBus.setHalted false) s.pendingMask).traced.congr rfl rfl rfl rfl
  · exact Traced.refl _
  · exact hready.trans (traced_runInstr hr)

/-- Settles O58: the record starts empty, so the accesses a step adds are all it holds. -/
theorem stepIsItsBusAccessesInOrder : Obligations.StepIsItsBusAccessesInOrder := by
  intro s t h
  obtain ⟨log, hbus, hreplay⟩ := traced_step h
  rw [hbus]
  exact hreplay

/-! ### The control bits under an instruction -/

theorem exec_illegal {i : Instr} (hi : i.format = .illegal) (s : State) :
    ∃ op, exec i s = .next (s.latchDecodeFault op) := by
  cases i
  case illegalD3 | illegalDB | illegalDD | illegalE3 | illegalE4 | illegalEB | illegalEC | illegalED | illegalF4 |
      illegalFC | illegalFD => exact ⟨_, rfl⟩
  all_goals cases hi

theorem writesControl_cases {i : Instr} (h : writesControl i = true) :
    i = .di ∨ i = .ei ∨ i = .reti ∨ i = .halt ∨ i = .stop ∨ i.format = .illegal := by
  unfold writesControl at h
  split at h
  case h_6 =>
    have hi : i.format = .illegal := beq_iff_eq.mp h
    exact .inr (.inr (.inr (.inr (.inr hi))))
  all_goals simp

/-- What an instruction can do to the control bits, the fault latch and the parameters: nothing, or what one of the rows
that write a control bit does. -/
theorem exec_control_cases {i : Instr} {s t : State} (h : exec i s = .next t) :
    (writesControl i = false ∧ Plain s t) ∨
      (i = .di ∧ t = { s with ime := false, imePending := false }) ∨
      (i = .ei ∧ t = { s with imePending := true }) ∨
      (i = .reti ∧ t = { s with pc := s.stackTop, sp := s.sp + 2, ime := true, bus := s.bus ++ s.stackTopRead }) ∨
      ((i = .halt ∨ i = .stop) ∧ t = { s with halted := true }) ∨
      (i.format = .illegal ∧ ∃ d, t = { s with fault := d }) := by
  cases hw : writesControl i with
  | false =>
    obtain ⟨u, hu, hplain⟩ := (exec_plain i s hw).next
    cases h.symm.trans hu
    exact .inl ⟨rfl, hplain⟩
  | true =>
    right
    rcases writesControl_cases hw with rfl | rfl | rfl | rfl | rfl | hi
    · cases h
      exact .inl ⟨rfl, rfl⟩
    · cases h
      exact .inr (.inl ⟨rfl, rfl⟩)
    · rw [exec_reti] at h
      cases h
      exact .inr (.inr (.inl ⟨rfl, rfl⟩))
    · cases h
      exact .inr (.inr (.inr (.inl ⟨.inl rfl, rfl⟩)))
    · cases h
      exact .inr (.inr (.inr (.inl ⟨.inr rfl, rfl⟩)))
    · obtain ⟨op, hop⟩ := exec_illegal hi s
      rw [hop] at h
      cases h
      exact .inr (.inr (.inr (.inr ⟨hi, _, rfl⟩)))

theorem exec_ime {i : Instr} {s t : State} (h : exec i s = .next t) (hdi : i ≠ .di) (hreti : i ≠ .reti) :
    t.ime = s.ime := by
  rcases exec_control_cases h with ⟨-, hp⟩ | ⟨hi, -⟩ | ⟨-, rfl⟩ | ⟨hi, -⟩ | ⟨-, rfl⟩ | ⟨-, d, rfl⟩
  · exact hp.ime
  · exact absurd hi hdi
  · rfl
  · exact absurd hi hreti
  · rfl
  · rfl

theorem exec_imePending {i : Instr} {s t : State} (h : exec i s = .next t) (hei : i ≠ .ei) (hdi : i ≠ .di) :
    t.imePending = s.imePending := by
  rcases exec_control_cases h with ⟨-, hp⟩ | ⟨hi, -⟩ | ⟨hi, -⟩ | ⟨-, rfl⟩ | ⟨-, rfl⟩ | ⟨-, d, rfl⟩
  · exact hp.imePending
  · exact absurd hi hdi
  · exact absurd hi hei
  · rfl
  · rfl
  · rfl

theorem exec_halted {i : Instr} {s t : State} (h : exec i s = .next t) (hhalt : i ≠ .halt) (hstop : i ≠ .stop) :
    t.halted = s.halted := by
  rcases exec_control_cases h with ⟨-, hp⟩ | ⟨-, rfl⟩ | ⟨-, rfl⟩ | ⟨-, rfl⟩ | ⟨hi, -⟩ | ⟨-, d, rfl⟩
  · exact hp.halted
  · rfl
  · rfl
  · rfl
  · exact absurd hi (not_or.mpr ⟨hhalt, hstop⟩)
  · rfl

theorem exec_fault {i : Instr} {s t : State} (h : exec i s = .next t) (hill : i.format ≠ .illegal) :
    t.fault = s.fault := by
  rcases exec_control_cases h with ⟨-, hp⟩ | ⟨-, rfl⟩ | ⟨-, rfl⟩ | ⟨-, rfl⟩ | ⟨-, rfl⟩ | ⟨hi, -⟩
  · exact hp.fault
  · rfl
  · rfl
  · rfl
  · rfl
  · exact absurd hi hill

theorem exec_params {i : Instr} {s t : State} (h : exec i s = .next t) : t.params = s.params := by
  obtain ⟨u, hu, -, -, hparams⟩ := exec_ends i s
  cases h.symm.trans hu
  exact hparams

/-! ### The parameters are written by nothing (R5, R11) -/

@[simp] theorem State.commitImePending_params (s : State) (p0 : Bool) : (s.commitImePending p0).params = s.params := by
  unfold State.commitImePending
  split <;> rfl

theorem runInstr_params {s t : State} (h : s.runInstr = .next t) : t.params = s.params := by
  have hfetch := (plain_fetchInstr s).params
  rcases State.runInstr_next h with ⟨i, b, s1, u, hf, hu, rfl⟩ | ⟨b, s1, hf, rfl⟩
  · rw [hf] at hfetch
    rw [State.commitImePending_params, exec_params hu, hfetch]
  · rw [hf] at hfetch
    exact hfetch

theorem step_params {s t : State} (h : step s = .next t) : t.params = s.params := by
  obtain ⟨-, ⟨-, -, rfl⟩ | ⟨-, -, rfl⟩ | ⟨-, hr⟩⟩ := step_next h
  · exact (plain_dispatch (s.clearBus.setHalted false) s.pendingMask).params
  · rfl
  · exact (runInstr_params hr).trans (State.clearBus_params s)

theorem envMove_params (s : State) (m : EnvMove) : (s.envMove m).params = s.params := by
  cases m with
  | setReg n v => exact State.setReg_params s n v
  | write a v => rfl
  | request k => rfl
  | enable k => rfl
  | setPc w => rfl
  | setSp w => rfl

/-- Settles O60: no meaning writes them, nor does a step or a move. -/
theorem nothingWritesTheParameters : Obligations.NothingWritesTheParameters :=
  ⟨fun _ _ _ h => exec_params h,
    fun s _ h => h.keeps (P := fun t => t.params = s.params) (fun hs h => (step_params h).trans hs)
      (fun m hs => (envMove_params _ m).trans hs) rfl⟩

/-! ### The invariant -/

/-- A latched fault names an illegal byte that was not read as prefixed (R360). -/
def State.FaultIllegal (s : State) : Prop := ∀ d, s.fault = some d → s.illegalByte d.op ∧ d.prefixed = false

theorem State.FaultIllegal.of_none {s : State} (h : s.fault = none) : s.FaultIllegal := by
  intro d hd
  rw [h] at hd
  cases hd

theorem State.FaultIllegal.of_eq {s t : State} (hs : s.FaultIllegal) (hf : t.fault = s.fault)
    (hp : t.params = s.params) : t.FaultIllegal := by
  unfold State.FaultIllegal State.illegalByte
  rw [hf, hp]
  exact hs

@[simp] theorem State.commitImePending_fault (s : State) (p0 : Bool) : (s.commitImePending p0).fault = s.fault := by
  unfold State.commitImePending
  split <;> rfl

/-- What the opcode fetch of a step decodes is an instruction, and none of the illegal rows. -/
theorem State.fetchInstr_some_wf {s s1 : State} {i : Instr} {b : Byte} (h : s.fetchInstr = (some i, b, s1)) :
    i.wf = true := by
  rw [State.fetchInstr_eq] at h
  split at h
  · cases h
    exact (cbRow_spec _).1
  · simp only [Prod.mk.injEq] at h
    exact (decodeWith_false_spec h.1).2.1

theorem Instr.format_ne_illegal {i : Instr} (h : i.wf = true) : i.format ≠ .illegal := by
  intro hi
  rw [Instr.wf, hi] at h
  cases h

/-- An instruction cycle that begins without a fault ends with none, or with the one its fetch found. -/
theorem runInstr_faultIllegal {s t : State} (hs : s.fault = none) (h : s.runInstr = .next t) : t.FaultIllegal := by
  have hfetch := plain_fetchInstr s
  rcases State.runInstr_next h with ⟨i, b, s1, u, hf, hu, rfl⟩ | ⟨b, s1, hf, rfl⟩
  · rw [hf] at hfetch
    have hwf := Instr.format_ne_illegal (State.fetchInstr_some_wf hf)
    apply State.FaultIllegal.of_none
    rw [State.commitImePending_fault, exec_fault hu hwf, hfetch.fault, hs]
  · rw [hf] at hfetch
    intro d hd
    cases hd
    refine ⟨?_, rfl⟩
    have hill := State.fetchInstr_none hf
    unfold State.illegalByte at hill ⊢
    rw [← hfetch.params] at hill
    exact hill

theorem step_faultIllegal {s t : State} (h : step s = .next t) : t.FaultIllegal := by
  obtain ⟨hf, ⟨-, -, rfl⟩ | ⟨-, -, rfl⟩ | ⟨-, hr⟩⟩ := step_next h
  · exact .of_none ((plain_dispatch (s.clearBus.setHalted false) s.pendingMask).fault.trans hf)
  · exact .of_none hf
  · have hready : (s.clearBus.setHalted false).fault = none := hf
    exact runInstr_faultIllegal hready hr

theorem step_inv {s t : State} (hs : s.Inv) (h : step s = .next t) : t.Inv :=
  ⟨(traced_step h).wf hs.memWf, step_fLow hs.fLow h, step_faultIllegal h⟩

/-- Settles O56: memory by the accesses of the step, F by the rule for its low nibble, the fault by the fetch that found
it. -/
theorem stepKeepsTheInvariant : Obligations.StepKeepsTheInvariant := fun _ _ hs h => step_inv hs h

/-! ### The moves between steps (R23, R79, R375) -/

theorem envMove_fault (s : State) (m : EnvMove) : (s.envMove m).fault = s.fault := by
  cases m with
  | setReg n v => exact State.setReg_fault s n v
  | write a v => rfl
  | request k => rfl
  | enable k => rfl
  | setPc w => rfl
  | setSp w => rfl

theorem envMove_memWf {s : State} (m : EnvMove) (hs : Memory.wf s.mem) : Memory.wf (s.envMove m).mem := by
  cases m with
  | setReg n v => exact (State.setReg_mem s n v).symm ▸ hs
  | write a v => exact Memory.wf_write hs v a.isLt
  | request k => exact Memory.wf_write hs _ Config.ifAddr.isLt
  | enable k => exact Memory.wf_write hs _ Config.ieAddr.isLt
  | setPc w => exact hs
  | setSp w => exact hs

theorem envMove_inv {s : State} (m : EnvMove) (hs : s.Inv) : (s.envMove m).Inv :=
  ⟨envMove_memWf m hs.memWf, envMove_fLow m hs.fLow,
    State.FaultIllegal.of_eq hs.faultIll (envMove_fault s m) (envMove_params s m)⟩

/-- Settles O57: every step and every move keeps the invariant. -/
theorem reachedStatesMeetTheInvariant : Obligations.ReachedStatesMeetTheInvariant :=
  fun _ _ hs h => h.keeps step_inv envMove_inv hs

theorem setBit_eq (v : Byte) (k : Irq) : setBit v (Irq.bit k) = v ||| BitVec.ofNat 8 (2 ^ Irq.bit k) := by
  cases k <;> rfl

/-- A setter of one bit writes the byte with that bit set. -/
theorem storesByte_pokeBit (s : State) (a : Word) (k : Irq) :
    StoresByte s (s.pokeBit a (Irq.bit k)) a (s.memPeek a ||| BitVec.ofNat 8 (2 ^ Irq.bit k)) := by
  intro b
  rw [State.pokeBit, State.memPeek_poke, setBit_eq]

/-- Settles O59: the bytes by the law of a read after a write, the cells by that of the register file. -/
theorem environmentMovesBetweenSteps : Obligations.EnvironmentMovesBetweenSteps := by
  intro s k n v a w
  refine ⟨storesByte_pokeBit s _ k, storesByte_pokeBit s _ k, fun b => State.memPeek_poke s a b v, ?same, ?other,
    State.setReg_eq s n v, rfl, rfl, rfl, rfl, rfl⟩
  case same => exact (State.reg_setReg s n n v).trans (if_pos rfl)
  case other => exact fun j hj => (State.reg_setReg s n j v).trans (if_neg hj)

/-! ### Reset (R43, R400) -/

/-- Settles O54: the record of reset, and the low nibble of F. -/
theorem resetValues : Obligations.ResetValues :=
  ⟨fun p => ⟨rfl, rfl, rfl, rfl, resetWith_fLow p, rfl, rfl, rfl, rfl, rfl⟩, rfl⟩

theorem resetWith_inv {p : ResetParams} (h : Memory.wf p.mem) : (State.resetWith p).Inv :=
  ⟨h, resetWith_fLow p, State.FaultIllegal.of_none rfl⟩

/-- Settles O55: reset latches no fault, masks F and takes the memory it is given, which is empty at `State.reset`. -/
theorem resetMeetsTheInvariant : Obligations.ResetMeetsTheInvariant :=
  ⟨resetWith_inv Memory.wf_nil, fun _ h => resetWith_inv h⟩

end Sys2Proof.Machine

/-! # The step (40_step_and_primitives.md R130; 60_exceptions.md) -/

namespace Sys2Proof.Machine

/-! ### Completion (R12, R131, R361) -/

theorem State.runInstr_ends (s : State) : ∃ t, s.runInstr = .next t := by
  rcases hf : s.fetchInstr with ⟨_ | i, b, s1⟩
  · exact ⟨s1.latchDecodeFault b, by simp only [State.runInstr, hf]⟩
  · obtain ⟨u, hu, -⟩ := exec_ends i s1
    exact ⟨_, State.runInstr_some hf hu⟩

theorem step_ends {s : State} (hf : s.fault = none) : ∃ t, step s = .next t := by
  rcases State.branches s hf with ⟨hi, hp⟩ | ⟨hh, hp⟩ | hr
  · exact ⟨_, step_dispatch hf hi hp⟩
  · exact ⟨_, step_idle hf hh hp⟩
  · rw [step_runsInstr hr]
    exact State.runInstr_ends _

/-- Settles O45: every meaning ends, the step ends in each of its branches, and the latch stops it. -/
theorem onlyTheDecodeFaultStopsAStep : Obligations.OnlyTheDecodeFaultStopsAStep := by
  refine ⟨fun i s => ?_, fun s hf => step_ends hf, fun s d hd => step_fault hd⟩
  obtain ⟨t, ht, -⟩ := exec_ends i s
  exact ⟨t, ht⟩

/-! ### A step that executes (R130 branch 3, R369) -/

theorem step_decoded {s : State} {i : Instr} (hr : s.runsInstr) (hd : s.decodesTo i) :
    ∃ t, exec i (s.fetched i) = .next t ∧ step s = .next (t.commitImePending s.imePending) := by
  obtain ⟨b, hf⟩ := State.fetchInstr_decodes hd
  obtain ⟨t, ht, -⟩ := exec_ends i (s.fetched i)
  exact ⟨t, ht, (step_runsInstr hr).trans (State.runInstr_some hf ht)⟩

theorem State.fetched_ime (s : State) (i : Instr) : (s.fetched i).ime = s.ime := rfl
theorem State.fetched_imePending (s : State) (i : Instr) : (s.fetched i).imePending = s.imePending := rfl

/-- Settles O43: the fetch ends in `s.fetched i`, the meaning runs from there and the commit follows. -/
theorem stepRunsTheDecodedInstruction : Obligations.StepRunsTheDecodedInstruction :=
  fun _ _ hr hd => step_decoded hr hd

/-- Settles O39: NOP by the rule for a step that executes; after DI there is no pending enable to commit. -/
theorem nopAndDi : Obligations.NopAndDi := by
  intro s p0
  refine ⟨rfl, rfl, rfl, ⟨_, rfl, rfl, ?di⟩, ?nop⟩
  case di => rw [State.commitImePending_eq, State.setImePending_imePending, Bool.and_false]; rfl
  case nop =>
    intro hr hd
    obtain ⟨t, ht, hstep⟩ := step_decoded hr hd
    cases ht
    rw [hstep, State.commitImePending_eq, State.fetched_imePending, Bool.and_self]

/-- Settles O40: the three meanings are one field update each. -/
theorem haltStopAndEi : Obligations.HaltStopAndEi := fun _ => ⟨rfl, rfl, rfl⟩

/-- Settles O42: the meaning of each row is the one field update. -/
theorem illegalOpcodesLatchTheFault : Obligations.IllegalOpcodesLatchTheFault :=
  fun _ => ⟨rfl, rfl, rfl, rfl, rfl, rfl, rfl, rfl, rfl, rfl, rfl⟩

/-- The two interrupt bits after a commit: an enable that was pending before the fetch and still is takes effect. -/
theorem State.commitImePending_bits (t : State) (p0 : Bool) :
    ((t.commitImePending p0).ime, (t.commitImePending p0).imePending) =
      if p0 && t.imePending then (true, false) else (t.ime, t.imePending) := by
  rw [State.commitImePending_eq]
  split <;> rfl

/-- Settles O51: the commit applied to what the meaning of DI, RETI, EI or any other instruction leaves in the two
bits. -/
theorem enableTakesEffectOneInstructionLate : Obligations.EnableTakesEffectOneInstructionLate := by
  intro s i hr hd
  obtain ⟨t, ht, hstep⟩ := step_decoded hr hd
  refine ⟨_, hstep, ?_⟩
  rw [State.commitImePending_bits]
  by_cases hdi : i = .di
  · subst hdi
    cases ht
    simp
  by_cases hreti : i = .reti
  · subst hreti
    rw [exec_reti] at ht
    cases ht
    simp [State.fetched]
  have hime : t.ime = (s.fetched i).ime := exec_ime ht hdi hreti
  by_cases hei : i = .ei
  · subst hei
    cases ht
    simp [State.fetched]
  have hpending : t.imePending = (s.fetched i).imePending := exec_imePending ht hei hdi
  rw [hime, hpending, State.fetched_ime, State.fetched_imePending, if_neg hdi, if_neg hreti, Bool.and_self,
    decide_eq_false hei]
  cases s.imePending <;> rfl

/-! ### Behind the byte 0xCB (30_encoding.md R106, 46_system.md R345) -/

theorem State.decodesTo_prefixed {s : State} (h : s.memPeek s.pc = cbPrefix) :
    s.decodesTo (cbRow (s.memPeek (s.pc + 1))).toInstr :=
  ⟨[], by rw [h, decodeBytesWith_prefixed]⟩

/-- A prefixed instruction starts past both opcode bytes. -/
theorem State.fetched_prefixed (s : State) (op : Byte) :
    s.fetched (cbRow op).toInstr = { s with halted := false, pc := s.pc + 2, bus := s.imm16Read } := by
  rw [State.fetched, (cbRow_spec op).2.2]
  simp [List.range_succ, State.imm16Read]

/-- The meaning of the row of 0xCB is that of the instruction its second byte selects. -/
theorem exec_prefixCb (s : State) :
    exec .prefixCb s = exec (cbRow s.imm8).toInstr { s with pc := s.pc + 1, bus := s.bus ++ s.imm8Read } := by
  rw [exec_toInstr]
  rfl

/-- Settles O41: the decoder on the byte 0xCB, the meaning of its row, and the step as one that executes what the second
byte selects. -/
theorem prefixRunsItsSecondByte : Obligations.PrefixRunsItsSecondByte := by
  refine ⟨rfl, rfl, fun s => ?row, fun s hr hp => ?step⟩
  case row =>
    obtain ⟨t, ht, -⟩ := exec_ends (cbRow s.imm8).toInstr { s with pc := s.pc + 1, bus := s.bus ++ s.imm8Read }
    exact ⟨_, t, decodeWith_true _ _, ht, (exec_prefixCb s).trans ht⟩
  case step =>
    obtain ⟨t, ht, hstep⟩ := step_decoded hr (State.decodesTo_prefixed hp)
    rw [State.fetched_prefixed, State.imm16Read, hp] at ht
    exact ⟨_, t, decodeWith_true _ _, ht, hstep⟩

/-! ### The decode fault (R360, R39) -/

theorem State.runInstr_illegal {s : State} (h : s.illegalByte s.imm8) :
    s.runInstr = .next (({ s with pc := s.pc + 1, bus := s.bus ++ s.imm8Read } : State).latchDecodeFault s.imm8) := by
  obtain ⟨(hp : s.imm8 ≠ cbPrefix), hill⟩ := h
  have hnone : decodeWith s.params.illegalOpcodes s.imm8 false = none :=
    decodeWith_false_none.mpr (hill.imp_right .inr)
  have hf := State.fetchInstr_eq s
  rw [if_neg hp, hnone] at hf
  simp only [State.runInstr, hf]

/-- None of the 11 bytes is 0xCB. -/
theorem ne_cbPrefix_of_mem_illegalOpcodes {op : Byte} (h : op ∈ Config.illegalOpcodes) : op ≠ cbPrefix := by
  rintro rfl
  revert h
  decide

/-- Settles O44: the fetch finds no instruction, and the latch it sets outlives every move. -/
theorem decodeFaultStopsTheCore : Obligations.DecodeFaultStopsTheCore := by
  intro s hr op hop
  have hill : s.illegalByte op := by
    rcases hop with h | ⟨hp, h⟩
    · exact ⟨ne_cbPrefix_of_mem_illegalOpcodes h, .inr h⟩
    · exact ⟨hp, .inl h⟩
  have hready : (s.clearBus.setHalted false).illegalByte (s.clearBus.setHalted false).imm8 := hill
  refine ⟨_, (step_runsInstr hr).trans (State.runInstr_illegal hready), rfl, fun m => ?_⟩
  exact step_fault (d := ⟨op, false⟩) (envMove_fault _ m)

/-! ### The halted core (R372, R373) -/

theorem stepN_idle {s : State} (hf : s.fault = none) (hh : s.halted = true) (hp : s.pendingMask = 0) (hb : s.bus = [])
    (n : Nat) : stepN n s = .next s := by
  have hstep : step s = .next s := by
    rw [step_idle hf hh hp, State.clearBus, ← hb]
  induction n with
  | zero => rfl
  | succ n ih => rw [stepN, hstep]; exact ih

theorem Traced.bus_ne_nil {s t : State} (h : Traced s t) (hs : s.bus ≠ []) : t.bus ≠ [] := by
  obtain ⟨log, hbus, -⟩ := h
  rw [hbus]
  exact List.append_ne_nil_of_left_ne_nil hs log

/-- A fetch is a bus access. -/
theorem State.fetchInstr_bus_ne_nil (s : State) : s.fetchInstr.2.2.bus ≠ [] := by
  rw [State.fetchInstr_eq]
  split
  · exact List.append_ne_nil_of_right_ne_nil s.bus (List.cons_ne_nil _ _)
  · exact List.append_ne_nil_of_right_ne_nil s.bus (List.cons_ne_nil _ _)

/-- With an interrupt pending a step has bus accesses: those of the dispatch or of the fetch. -/
theorem step_bus_ne_nil {s t : State} (hp : s.pendingMask ≠ 0) (h : step s = .next t) : t.bus ≠ [] := by
  obtain ⟨-, ⟨-, -, rfl⟩ | ⟨-, hp0, -⟩ | ⟨-, hr⟩⟩ := step_next h
  · rw [State.dispatch_eq]
    exact List.cons_ne_nil _ _
  · exact absurd hp0 hp
  · exact (traced_runInstr_fetched hr).bus_ne_nil (State.fetchInstr_bus_ne_nil _)

/-- Settles O49: the first step clears the record and the others find the state they leave; with an interrupt pending
the step is a dispatch or a fetch. -/
theorem haltedCoreIdles : Obligations.HaltedCoreIdles := by
  intro s n hf hh hp
  constructor
  · rw [stepN, step_idle hf hh hp]
    exact stepN_idle (s := s.clearBus) hf hh hp rfl n
  · intro m hm
    obtain ⟨t, ht⟩ := step_ends ((envMove_fault s m).trans hf)
    exact ⟨t, ht, step_bus_ne_nil hm ht⟩

/-- Settles O50: with `ime` clear and an interrupt pending both states run an instruction from the same state. -/
theorem wakeUpWithoutDispatch : Obligations.WakeUpWithoutDispatch := by
  intro s hf hh hi hp
  have hrun : s.runsInstr := ⟨hf, fun h => by simp [hi] at h, fun _ => hp⟩
  have hawake : ({ s with halted := false } : State).runsInstr :=
    ⟨hf, fun h => absurd (hi.symm.trans h) Bool.false_ne_true, fun h => absurd h Bool.false_ne_true⟩
  refine ⟨(step_runsInstr hrun).trans (step_runsInstr hawake).symm, fun hd => ?_⟩
  obtain ⟨t, ht, hstep⟩ := step_decoded hrun hd
  cases ht
  refine ⟨_, hstep, ?_⟩
  rw [State.commitImePending_eq]
  split <;> exact ⟨rfl, rfl, rfl⟩

/-! ### The dispatch (R362 to R367) -/

/-- A source is pending when its bits of IE and IF are set. -/
theorem State.pendingMask_bit_lt (s : State) {j : Nat} (hj : j < 5) :
    s.pendingMask.getLsbD j = ((s.memPeek 0xFF0F#16).getLsbD j && (s.memPeek 0xFFFF#16).getLsbD j) := by
  rw [State.pendingMask_bit, decide_eq_true hj, Bool.and_true, Bool.and_comm]
  rfl

theorem pendingMask_ne_zero_of_bit {p : Byte} {k : Nat} (h : p.getLsbD k = true) : p ≠ 0 := by
  rintro rfl
  simp at h

/-- The byte the dispatch writes to IF, bit by bit. -/
theorem State.acknowledged_bit (s : State) (p : Byte) {j : Nat} (hj : j < 8) :
    (s.acknowledged p).getLsbD j = ((s.memPeek 0xFF0F#16).getLsbD j && !(j == Irq.bit (lowestPending p))) :=
  getLsbD_clearBit _ _ hj

/-- Settles O47: the step takes its dispatch branch for the source of least bit `k`; its registers and bus by
`State.dispatch_eq`, its memory by `State.memPeek_dispatch`. -/
theorem interruptDispatch : Obligations.InterruptDispatch := by
  intro s k hf hi hk requested enabled hpend hleast
  have hbit : s.pendingMask.getLsbD k = true := (s.pendingMask_bit_lt hk).trans hpend
  have hlow : ∀ j < k, s.pendingMask.getLsbD j = false :=
    fun j hj => (s.pendingMask_bit_lt (hj.trans hk)).trans (hleast j hj)
  have hsource : Irq.bit (lowestPending s.pendingMask) = k := lowestPending_eq s.pendingMask_low hbit hlow
  refine ⟨_, s.acknowledged s.pendingMask, step_dispatch hf hi (pendingMask_ne_zero_of_bit hbit), ?acked, ?whole,
    fun a => State.memPeek_dispatch _ _ a⟩
  case acked => exact fun j hj => hsource ▸ s.acknowledged_bit s.pendingMask hj
  case whole =>
    rw [← hsource]
    exact State.dispatch_eq (s.clearBus.setHalted false) s.pendingMask

theorem State.dispatch_pc (s : State) (p : Byte) :
    (s.dispatch p).pc = BitVec.ofNat 16 (0x40 + 8 * Irq.bit (lowestPending p)) := by
  rw [State.dispatch_eq, Irq.vector]

/-- A dispatch whose push misses IF and IE leaves pending all but the source it services. -/
theorem State.pendingMask_dispatch {s : State} {p : Byte}
    (hmiss : ∀ a ∈ [s.sp - 1, s.sp - 2], a ≠ Config.ifAddr ∧ a ≠ Config.ieAddr) (j : Nat) :
    (s.dispatch p).pendingMask.getLsbD j =
      (s.pendingMask.getLsbD j && !(j == Irq.bit (lowestPending p))) := by
  obtain ⟨hi1, he1⟩ := hmiss (s.sp - 1) (by simp)
  obtain ⟨hi2, he2⟩ := hmiss (s.sp - 2) (by simp)
  have hif : (s.dispatch p).memPeek Config.ifAddr = s.acknowledged p := by
    rw [State.memPeek_dispatch, if_neg hi2.symm, if_neg hi1.symm, if_pos rfl]
  have hie : (s.dispatch p).memPeek Config.ieAddr = s.memPeek Config.ieAddr := by
    rw [State.memPeek_dispatch, if_neg he2.symm, if_neg he1.symm, if_neg (by decide)]
  rw [State.pendingMask_bit, State.pendingMask_bit, hif, hie]
  by_cases hj : j < 5
  · rw [s.acknowledged_bit p (hj.trans (by decide)), ← Config.ifAddr, decide_eq_true hj, Bool.and_true, Bool.and_true,
      Bool.and_assoc]
  · rw [decide_eq_false hj, Bool.and_false, Bool.and_false, Bool.false_and]

/-- Settles O48: the dispatch of the lowest set bit, and the mask it leaves. -/
theorem lowestPendingBitIsServiced : Obligations.LowestPendingBitIsServiced := by
  intro s hf hi hp
  obtain ⟨hset, hlow⟩ := lowestPending_spec s.pendingMask s.pendingMask_low hp
  have hplain := plain_dispatch (s.clearBus.setHalted false) s.pendingMask
  refine ⟨_, Irq.bit (lowestPending s.pendingMask), step_dispatch hf hi hp, Irq.bit_lt _, hset, hlow,
    State.dispatch_pc _ _, hplain.ime, hplain.halted, hplain.fault.trans hf, hplain.imePending, fun hmiss j => ?_⟩
  have hready : (s.clearBus.setHalted false).pendingMask = s.pendingMask := State.pendingMask_congr rfl
  have hmask := State.pendingMask_dispatch (s := s.clearBus.setHalted false) (p := s.pendingMask) hmiss j
  rw [hready] at hmask
  exact hmask

end Sys2Proof.Machine

/-! # What an instruction leaves in `pc`, `sp` and F (10_state.md R28, R31, R34) -/

namespace Sys2Proof.Machine

/-! ### The shared operations -/

theorem State.read8_pc (s : State) (r : Op8) : (s.read8 r).2.pc = s.pc := by rw [State.read8_eq]
theorem State.read8_sp (s : State) (r : Op8) : (s.read8 r).2.sp = s.sp := by rw [State.read8_eq]
theorem State.read8_f (s : State) (r : Op8) : (s.read8 r).2.regs.f = s.regs.f := by rw [State.read8_eq]

theorem State.write8_pc (s : State) (r : Op8) (v : Byte) : (s.write8 r v).pc = s.pc := by
  cases r with
  | reg n => rw [State.write8_reg]
  | memHl => rfl

theorem State.write8_sp (s : State) (r : Op8) (v : Byte) : (s.write8 r v).sp = s.sp := by
  cases r with
  | reg n => rw [State.write8_reg]
  | memHl => rfl

/-- No operand field selects F (R21). -/
theorem State.write8_f (s : State) (r : Op8) (v : Byte) : (s.write8 r v).regs.f = s.regs.f := by
  cases r with
  | reg n => cases n <;> rfl
  | memHl => rfl

theorem State.modify8_pc (s : State) (r : Op8) (op : Byte → Byte) : (s.modify8 r op).pc = s.pc :=
  (State.write8_pc _ r _).trans (s.read8_pc r)

theorem State.modify8_sp (s : State) (r : Op8) (op : Byte → Byte) : (s.modify8 r op).sp = s.sp :=
  (State.write8_sp _ r _).trans (s.read8_sp r)

theorem State.modify8_f (s : State) (r : Op8) (op : Byte → Byte) : (s.modify8 r op).regs.f = s.regs.f :=
  (State.write8_f _ r _).trans (s.read8_f r)

theorem State.shift8_pc (s : State) (r : Op8) (op : Byte → Bool → ShiftResult) : (s.shift8 r op).pc = s.pc :=
  (State.write8_pc _ r _).trans (s.read8_pc r)

theorem State.shift8_sp (s : State) (r : Op8) (op : Byte → Bool → ShiftResult) : (s.shift8 r op).sp = s.sp :=
  (State.write8_sp _ r _).trans (s.read8_sp r)

theorem State.fetch16_pc (s : State) : s.fetch16.2.pc = s.pc + 2 := by rw [State.fetch16_eq]

theorem State.write16_sp {p : Pair} (hp : p ≠ .sp) (s : State) (w : Word) : (s.write16 p w).sp = s.sp := by
  cases p with
  | bc => exact State.setBc_sp s w
  | de => exact State.setDe_sp s w
  | hl => exact State.setHl_sp s w
  | sp => exact absurd rfl hp

theorem State.write16_f (s : State) (p : Pair) (w : Word) : (s.write16 p w).regs.f = s.regs.f := by
  cases p <;> rfl

/-- Of the pairs on the stack AF alone holds F. -/
theorem State.write16S_f {p : StackPair} (hp : p ≠ .af) (s : State) (w : Word) :
    (s.write16S p w).regs.f = s.regs.f := by
  cases p with
  | bc => rfl
  | de => rfl
  | hl => rfl
  | af => exact absurd rfl hp

theorem ite_field {α : Type} (field : State → α) {t u : State} {x : α} (b : Bool) (ht : field t = x)
    (hu : field u = x) : field (if b then t else u) = x := by
  cases b
  · exact hu
  · exact ht

/-- What `exec` answers has what its outcome has. -/
theorem Result.Ends.of_next {p : State → Prop} {r : Result} {t : State} (h : Result.Ends p r) (ht : r = .next t) :
    p t := by
  subst ht
  exact h

/-! ### `pc` (R31, R105, R272) -/

/-- The address past the immediate bytes of a format. -/
def Format.past (f : Format) (w : Word) : Word :=
  match f.immBytes with
  | 0 => w
  | 1 => w + 1
  | _ => w + 2

theorem Format.past_eq (f : Format) (w : Word) : Format.past f w = w + BitVec.ofNat 16 f.immBytes := by
  have hzero : w + BitVec.ofNat 16 0 = w := BitVec.add_zero w
  cases f
  case op | cb | prefixByte | illegal => exact hzero.symm
  all_goals rfl

/-- The rows that can leave `pc` elsewhere than past their immediate bytes: the jumps, calls and returns, and the row
of 0xCB, which fetches an opcode. -/
def movesPc : Instr → Bool
  | .jrE8 | .jpHl | .jpA16 | .callA16 | .ret | .reti | .rstT _ | .prefixCb => true
  | .jrCcE8 _ | .jpCcA16 _ | .callCcA16 _ | .retCc _ => true
  | _ => false

theorem exec_pc {i : Instr} (s : State) (hi : movesPc i = false) :
    Result.Ends (fun t => t.pc = Format.past i.format s.pc) (exec i s) := by
  cases i
  case jrE8 | jpHl | jpA16 | callA16 | ret | reti | rstT | prefixCb | jrCcE8 | jpCcA16 | callCcA16 | retCc => cases hi
  case addAR8 r | adcAR8 r | subR8 r | sbcAR8 r | andR8 r | xorR8 r | orR8 r | cpR8 r | bitBR8 b r => exact s.read8_pc r
  case ldBR8 r | ldCR8 r | ldDR8 r | ldER8 r | ldHR8 r | ldLR8 r | ldAR8 r => exact s.read8_pc r
  case incR8 r | decR8 r => exact (State.write8_pc _ r _).trans (s.read8_pc r)
  case rlcR8 r | rrcR8 r | rlR8 r | rrR8 r | slaR8 r | sraR8 r | swapR8 r | srlR8 r => exact s.shift8_pc r _
  case resBR8 b r | setBR8 b r => exact s.modify8_pc r _
  case ldR8D8 r => exact State.write8_pc _ r _
  case ldRrD16 p => exact (State.write16_pc _ p _).trans s.fetch16_pc
  case incRr p | decRr p => exact State.write16_pc s p _
  case popRr p => exact State.write16S_pc _ p _
  case ldMemA16Sp | ldMemA16A | ldAMemA16 => exact s.fetch16_pc
  all_goals exact rfl

/-- A row's opcode bytes are as many as its format has (R90). -/
theorem encode_length {i : Instr} (hwf : i.wf = true) : (encode i).length = i.format.opcodeBytes := by
  rcases encodesARow i with ⟨op, henc, rfl⟩ | ⟨op, henc, rfl⟩
  · rw [henc, (baseRow_spec op hwf).2.2]
    rfl
  · rw [henc, (cbRow_spec op).2.2]
    rfl

/-- Settles O46: a conditional jump not taken skips its immediate bytes, and the rest go past theirs. -/
theorem pcPassesTheWholeInstruction : Obligations.PcPassesTheWholeInstruction := by
  intro i s t hwf h hjump
  refine ⟨?_, encode_length hwf⟩
  rw [← Format.past_eq]
  cases hm : movesPc i with
  | false => exact (exec_pc s hm).of_next h
  | true =>
    cases i
    case jrE8 | jpHl | jpA16 | callA16 | ret | reti | rstT => exact hjump.elim
    case prefixCb => cases hwf
    case jrCcE8 cc | jpCcA16 cc | callCcA16 cc | retCc cc =>
      have hcond : s.cond cc = false := (s.cond_eq cc).trans hjump
      simp only [exec, execJrCcE8, execJpCcA16, execCallCcA16, execRetCc, hcond] at h
      cases h
      rfl
    all_goals cases hm

/-! ### `sp` (R34) -/

/-- The rows that R34 lists. -/
def WritesSp (i : Instr) : Prop :=
  i ∈ [.addSpE8, .ldSpHl, .callA16, .ret, .reti, .ldRrD16 .sp, .incRr .sp, .decRr .sp] ∨
    (∃ p, i = .pushRr p ∨ i = .popRr p) ∨ (∃ cc, i = .callCcA16 cc ∨ i = .retCc cc) ∨ ∃ k, i = .rstT k

theorem execCb_sp (i : CbInstr) (s : State) : Result.Ends (fun t => t.sp = s.sp) (execCb i s) := by
  cases i
  case bit b r => exact s.read8_sp r
  case res b r | set b r => exact s.modify8_sp r _
  all_goals exact s.shift8_sp _ _

theorem exec_sp {i : Instr} (s : State) (hi : ¬ WritesSp i) : Result.Ends (fun t => t.sp = s.sp) (exec i s) := by
  cases i
  case addSpE8 | ldSpHl | callA16 | ret | reti | pushRr | popRr | callCcA16 | retCc | rstT =>
    exact absurd (by simp [WritesSp]) hi
  case ldRrD16 p | incRr p | decRr p =>
    have hp : p ≠ .sp := by
      rintro rfl
      exact hi (by simp [WritesSp])
    exact State.write16_sp hp _ _
  case addAR8 r | adcAR8 r | subR8 r | sbcAR8 r | andR8 r | xorR8 r | orR8 r | cpR8 r | bitBR8 b r => exact s.read8_sp r
  case ldBR8 r | ldCR8 r | ldDR8 r | ldER8 r | ldHR8 r | ldLR8 r | ldAR8 r => exact s.read8_sp r
  case incR8 r | decR8 r => exact (State.write8_sp _ r _).trans (s.read8_sp r)
  case rlcR8 r | rrcR8 r | rlR8 r | rrR8 r | slaR8 r | sraR8 r | swapR8 r | srlR8 r => exact s.shift8_sp r _
  case resBR8 b r | setBR8 b r => exact s.modify8_sp r _
  case ldR8D8 r => exact State.write8_sp _ r _
  case prefixCb => exact execCb_sp _ s.fetch8.2
  case jrCcE8 cc | jpCcA16 cc => exact ite_field State.sp _ rfl rfl
  all_goals exact rfl

/-- Settles O52: the four latches by `exec_control_cases`, `sp` by `exec_sp`. -/
theorem whoWritesControlBitsAndSp : Obligations.WhoWritesControlBitsAndSp := by
  intro i s t h
  refine ⟨fun hne => ?ime, fun hne => ?imePending, fun hne => ?halted, fun hne => ?fault, fun hne => ?sp⟩
  case ime =>
    by_contra hi
    rw [not_or] at hi
    exact hne (exec_ime h hi.1 hi.2)
  case imePending =>
    by_contra hi
    rw [not_or] at hi
    exact hne (exec_imePending h hi.1 hi.2)
  case halted =>
    by_contra hi
    rw [not_or] at hi
    exact hne (exec_halted h hi.1 hi.2)
  case fault =>
    by_contra hi
    exact hne (exec_fault h hi)
  case sp =>
    by_contra hi
    exact hne ((exec_sp s hi).of_next h)

/-! ### F (R28, R29) -/

/-- The rows that R28 and R29 list. -/
def WritesF (i : Instr) : Prop :=
  i ∈ [.addAD8, .adcAD8, .subD8, .sbcAD8, .andD8, .xorD8, .orD8, .cpD8, .daa, .cpl, .scf, .ccf, .addSpE8, .ldHlSpE8,
      .rlca, .rrca, .rla, .rra, .popRr .af, .prefixCb] ∨
    (∃ p, i = .addHlRr p) ∨ (∃ b r, i = .bitBR8 b r) ∨
    ∃ r, i ∈ [.addAR8 r, .adcAR8 r, .subR8 r, .sbcAR8 r, .andR8 r, .xorR8 r, .orR8 r, .cpR8 r, .incR8 r, .decR8 r,
      .rlcR8 r, .rrcR8 r, .rlR8 r, .rrR8 r, .slaR8 r, .sraR8 r, .swapR8 r, .srlR8 r]

theorem exec_f {i : Instr} (s : State) (hi : ¬ WritesF i) :
    Result.Ends (fun t => t.regs.f = s.regs.f) (exec i s) := by
  cases i
  case addAD8 | adcAD8 | subD8 | sbcAD8 | andD8 | xorD8 | orD8 | cpD8 | daa | cpl | scf | ccf | addSpE8 | ldHlSpE8 |
      rlca | rrca | rla | rra | prefixCb | addHlRr | bitBR8 | addAR8 | adcAR8 | subR8 | sbcAR8 | andR8 | xorR8 | orR8 |
      cpR8 | incR8 | decR8 | rlcR8 | rrcR8 | rlR8 | rrR8 | slaR8 | sraR8 | swapR8 | srlR8 =>
    exact absurd (by simp [WritesF]) hi
  case popRr p =>
    have hp : p ≠ .af := by
      rintro rfl
      exact hi (by simp [WritesF])
    exact State.write16S_f hp _ _
  case ldBR8 r | ldCR8 r | ldDR8 r | ldER8 r | ldHR8 r | ldLR8 r | ldAR8 r => exact s.read8_f r
  case ldR8D8 r => exact State.write8_f _ r _
  case resBR8 b r | setBR8 b r => exact s.modify8_f r _
  case ldRrD16 p | incRr p | decRr p => exact State.write16_f _ p _
  case jrCcE8 cc | jpCcA16 cc | callCcA16 cc | retCc cc => exact ite_field (·.regs.f) _ rfl rfl
  all_goals exact rfl

/-- Settles O53: every row that is not listed keeps F. -/
theorem flagsChangeOnlyWhereListed : Obligations.FlagsChangeOnlyWhereListed := by
  intro i s t h hne
  by_contra hi
  exact hne ((exec_f s hi).of_next h)

end Sys2Proof.Machine

/-! # Results and flags of the remaining arithmetic (41_alu8.md, 42_alu16.md, 43_rotate_shift_bit.md) -/

namespace Sys2Proof.Machine

/-! ### The 16-bit primitives (R151, R153) -/

/-- The exact sum, with the carry as the excess 65536. -/
theorem overflowAdd16_exact (a b : Word) (x : Bool) :
    (overflowAdd16 a b x).sum.toNat + 65536 * (overflowAdd16 a b x).carry.toNat = a.toNat + b.toNat + x.toNat := by
  have hx := x.toNat_le
  simp only [overflowAdd16, BitVec.toNat_ofNat]
  by_cases h : a.toNat + b.toNat + x.toNat > 0xFFFF <;> simp [h] <;> omega

/-- Settles O10: the two exact equations; the borrow by its law, and the conditions on the low 12 bits as the primitives
test them. -/
theorem sixteenBitPrimitivesAreExact : Obligations.SixteenBitPrimitivesAreExact := by
  intro a b x add sub
  refine ⟨overflowAdd16_exact a b x, decide_eq_true_iff, subtractWithBorrow16_exact a b x, ?_, decide_eq_true_iff⟩
  have hborrow : sub.borrow = decide (a.toNat < b.toNat + x.toNat) := subtractWithBorrow16_borrow a b x
  rw [hborrow, decide_eq_true_iff]

/-! ### The immediate forms (R161, R163, R165, R167, R169, R171, R173, R175) -/

/-- Settles O16: after the fetch of the byte each form is the operation on A that the register form is. -/
theorem immediateArithmeticForms : Obligations.ImmediateArithmeticForms := by
  intro s a v x after subF
  let fetched : State := { s with pc := s.pc + 1, bus := s.bus ++ s.imm8Read }
  refine ⟨?add, ?adc, ?sub, ?sbc, ?and, ?xor, ?or, ?cp⟩
  case add => exact congrArg Host.Outcome.next (fetched.addToA_false v)
  case adc => exact congrArg Host.Outcome.next (fetched.addToA_eq v s.flagC)
  case sub => exact congrArg Host.Outcome.next (fetched.subFromA_false v)
  case sbc => exact congrArg Host.Outcome.next (fetched.subFromA_eq v s.flagC)
  case and => exact congrArg Host.Outcome.next (fetched.logicToA_eq (a &&& v) true)
  case xor => exact congrArg Host.Outcome.next (fetched.logicToA_eq (a ^^^ v) false)
  case or => exact congrArg Host.Outcome.next (fetched.logicToA_eq (a ||| v) false)
  case cp =>
    refine congrArg Host.Outcome.next ((fetched.compareWithA_eq_subFromA v).trans ?_)
    rw [State.subFromA_false]

/-! ### DAA, CPL, SCF and CCF (R178 to R181) -/

/-- What DAA corrects: the low digit by 6, the high one by 0x60. -/
def daaLow (a : Byte) (f : Flags) : Bool := f.h || (!f.n && decide (9 < a.toNat % 16))
def daaHigh (a : Byte) (f : Flags) : Bool := f.c || (!f.n && decide (0x99 < a.toNat))

/-- The two corrections as one number. -/
def daaFix (a : Byte) (f : Flags) : Byte := BitVec.ofNat 8 (6 * (daaLow a f).toNat + 96 * (daaHigh a f).toNat)

theorem daaAdjust_eq (a : Byte) (f : Flags) :
    daaAdjust a f = ⟨if f.n then a - daaFix a f else a + daaFix a f, daaHigh a f⟩ := by
  have hadd : ∀ low high : Bool,
      (if low then (if high then a + 0x60#8 else a) + 0x06#8 else if high then a + 0x60#8 else a) =
        a + BitVec.ofNat 8 (6 * low.toNat + 96 * high.toNat) := by
    intro low high
    cases low <;> cases high <;> simp [BitVec.add_assoc]
  have hsub : ∀ low high : Bool,
      (if high then (if low then a - 0x06#8 else a) - 0x60#8 else if low then a - 0x06#8 else a) =
        a - BitVec.ofNat 8 (6 * low.toNat + 96 * high.toNat) := by
    intro low high
    cases low <;> cases high <;> simp [BitVec.sub_eq_add_neg, BitVec.add_assoc]
  rcases f with ⟨z, n, h, c⟩
  cases n with
  | false =>
    simpa [daaAdjust, daaFix, daaLow, daaHigh] using
      hadd (daaLow a ⟨z, false, h, c⟩) (daaHigh a ⟨z, false, h, c⟩)
  | true => simpa [daaAdjust, daaFix, daaLow, daaHigh] using hsub h c

theorem exec_daa (s : State) :
    exec .daa s =
      let x := daaAdjust s.regs.a s.flags
      .next { s with regs := { s.regs with a := x.a, f := fByte (x.a == 0) s.flagN false x.carry } } :=
  congrArg Host.Outcome.next (State.setFlags_setReg_a s _ _)

theorem not_eq_ff_sub (v : Byte) : ~~~v = 0xFF#8 - v := by bv_omega

/-- Settles O18: DAA by its two corrections, CPL by the complement as a difference; SCF and CCF write F alone. -/
theorem accumulatorAndFlagOps : Obligations.AccumulatorAndFlagOps := by
  intro s a low high fix res
  refine ⟨?daa, ?cpl, ?scf, ?ccf⟩
  case daa =>
    rw [exec_daa, daaAdjust_eq]
    rfl
  case cpl =>
    rw [← not_eq_ff_sub]
    exact congrArg Host.Outcome.next (State.setFlags_setReg_a s _ _)
  case scf => exact congrArg Host.Outcome.next (State.setFlags_eq s _)
  case ccf => exact congrArg Host.Outcome.next (State.setFlags_eq s _)

/-! ### DAA after ADD and SUB (95_test_vectors.md Q3) -/

/-- A number below 100 as two decimal digits. -/
def bcd (n : Nat) : Byte := BitVec.ofNat 8 (16 * (n / 10) + n % 10)

theorem bcd_toNat {n : Nat} (h : n < 100) : (bcd n).toNat = 16 * (n / 10) + n % 10 := by
  rw [bcd, BitVec.toNat_ofNat]
  omega

/-- The four flags as a byte hold them. -/
theorem Flags.fromByte_fByte (z n h c : Bool) : Flags.fromByte (fByte z n h c) = ⟨z, n, h, c⟩ := by
  rw [← Flags.fromByte_toByte ⟨z, n, h, c⟩, Flags.toByte_eq]

/-- DAA corrects the high digit of a sum of BCD bytes exactly when the decimal sum leaves two digits. -/
theorem bcd_sum_high_iff {tens ones : Nat} (ht : tens ≤ 18) (ho : ones ≤ 18) :
    255 < 16 * tens + ones ∨ 0x99 < (16 * tens + ones) % 256 ↔ 100 ≤ 10 * tens + ones := by
  omega

section
variable {x y : Nat} (hx : x < 100) (hy : y < 100) (z : Bool)
include hx hy

/-- After an addition DAA corrects a low digit above 9 and a sum above 99. -/
theorem daaAdjust_bcd_add :
    daaAdjust (bcd x + bcd y) ⟨z, false, decide (15 < (bcd x).toNat % 16 + (bcd y).toNat % 16),
        decide (255 < (bcd x).toNat + (bcd y).toNat)⟩ =
      ⟨bcd ((x + y) % 100), decide (100 ≤ x + y)⟩ := by
  have hlow : daaLow (bcd x + bcd y) ⟨z, false, decide (15 < (bcd x).toNat % 16 + (bcd y).toNat % 16),
      decide (255 < (bcd x).toNat + (bcd y).toNat)⟩ = decide (10 ≤ x % 10 + y % 10) := by
    rw [Bool.eq_iff_iff]
    simp only [daaLow, BitVec.toNat_add, bcd_toNat hx, bcd_toNat hy, Bool.or_eq_true, Bool.not_false, Bool.true_and,
      decide_eq_true_iff]
    omega
  have hhigh : daaHigh (bcd x + bcd y) ⟨z, false, decide (15 < (bcd x).toNat % 16 + (bcd y).toNat % 16),
      decide (255 < (bcd x).toNat + (bcd y).toNat)⟩ = decide (100 ≤ x + y) := by
    rw [Bool.eq_iff_iff]
    simp only [daaHigh, BitVec.toNat_add, bcd_toNat hx, bcd_toNat hy, Bool.or_eq_true, Bool.not_false, Bool.true_and,
      decide_eq_true_iff]
    have hbytes : 16 * (x / 10) + x % 10 + (16 * (y / 10) + y % 10) = 16 * (x / 10 + y / 10) + (x % 10 + y % 10) := by
      omega
    have hsum : x + y = 10 * (x / 10 + y / 10) + (x % 10 + y % 10) := by omega
    have hones : x % 10 + y % 10 ≤ 18 := by omega
    have htens : x / 10 + y / 10 ≤ 18 := by omega
    rw [hbytes, hsum]
    exact bcd_sum_high_iff htens hones
  have hres : bcd x + bcd y +
      BitVec.ofNat 8 (6 * (decide (10 ≤ x % 10 + y % 10)).toNat + 96 * (decide (100 ≤ x + y)).toNat) =
        bcd ((x + y) % 100) := by
    apply BitVec.eq_of_toNat_eq
    rw [BitVec.toNat_add, BitVec.toNat_add, bcd_toNat hx, bcd_toNat hy, bcd_toNat (Nat.mod_lt _ (by decide)),
      BitVec.toNat_ofNat]
    by_cases h1 : 10 ≤ x % 10 + y % 10 <;> by_cases h2 : 100 ≤ x + y <;> simp only [h1, h2, decide_true, decide_false,
      Bool.toNat_true, Bool.toNat_false] <;> omega
  rw [daaAdjust_eq, daaFix, hlow, hhigh, if_neg Bool.false_ne_true, hres]

/-- After a subtraction DAA corrects the digits that borrowed. -/
theorem daaAdjust_bcd_sub :
    daaAdjust (bcd x - bcd y) ⟨z, true, decide ((bcd x).toNat % 16 < (bcd y).toNat % 16),
        decide ((bcd x).toNat < (bcd y).toNat)⟩ =
      ⟨bcd ((100 + x - y) % 100), decide (x < y)⟩ := by
  have hlow : decide ((bcd x).toNat % 16 < (bcd y).toNat % 16) = decide (x % 10 < y % 10) := by
    rw [decide_eq_decide, bcd_toNat hx, bcd_toNat hy]
    omega
  have hhigh : decide ((bcd x).toNat < (bcd y).toNat) = decide (x < y) := by
    rw [decide_eq_decide, bcd_toNat hx, bcd_toNat hy]
    omega
  have hres : bcd x - bcd y -
      BitVec.ofNat 8 (6 * (decide (x % 10 < y % 10)).toNat + 96 * (decide (x < y)).toNat) =
        bcd ((100 + x - y) % 100) := by
    apply BitVec.eq_of_toNat_eq
    rw [BitVec.toNat_sub, BitVec.toNat_sub, bcd_toNat hx, bcd_toNat hy, bcd_toNat (Nat.mod_lt _ (by decide)),
      BitVec.toNat_ofNat]
    by_cases h1 : x % 10 < y % 10 <;> by_cases h2 : x < y <;> simp only [h1, h2, decide_true, decide_false,
      Bool.toNat_true, Bool.toNat_false] <;> omega
  rw [daaAdjust_eq, daaFix, daaLow, daaHigh, hlow, hhigh]
  simpa using hres

end

/-- DAA run on given flags. -/
theorem exec_daa_of_flags {s u : State} {z n h c : Bool} (hf : s.regs.f = fByte z n h c)
    (hu : exec .daa s = .next u) :
    u.regs.a = (daaAdjust s.regs.a ⟨z, n, h, c⟩).a ∧ u.flagC = (daaAdjust s.regs.a ⟨z, n, h, c⟩).carry := by
  have hflags : s.flags = ⟨z, n, h, c⟩ := by
    rw [← Flags.fromByte_fByte, ← hf]
    rfl
  rw [exec_daa, hflags] at hu
  cases hu
  exact ⟨rfl, congrArg Flags.c (Flags.fromByte_fByte _ _ _ _)⟩

/-- Settles O19: the flags ADD and SUB leave are those from which DAA's correction gives the two decimal digits. -/
theorem daaKeepsDecimalArithmetic : Obligations.DaaKeepsDecimalArithmetic := by
  intro s t u x y hx hy bcdOf ha hb
  replace ha : s.regs.a = bcd x := ha
  replace hb : s.operand (.reg .b) = bcd y := hb
  constructor
  case left =>
    intro ht hu
    obtain ⟨-, -, hadd, -⟩ := addAndAdcRegisterForms (.reg .b) s
    cases ht.symm.trans hadd
    obtain ⟨hres, hcarry⟩ := exec_daa_of_flags rfl hu
    rw [ha, hb, daaAdjust_bcd_add hx hy] at hres hcarry
    exact ⟨hres, hcarry⟩
  case right =>
    intro ht hu
    obtain ⟨-, -, -, hsub, -⟩ := subSbcAndCpRegisterForms (.reg .b) s
    cases ht.symm.trans hsub
    obtain ⟨hres, hcarry⟩ := exec_daa_of_flags rfl hu
    rw [ha, hb, daaAdjust_bcd_sub hx hy] at hres hcarry
    exact ⟨hres, hcarry⟩

/-! ### ADD HL,rr and SP plus offset (R202 to R204) -/

/-- Settles O21: the sum by the law of the 16-bit addition, F with Z kept. -/
theorem addPairToHl : Obligations.AddPairToHl := by
  intro p s v t
  have hsum : (overflowAdd16 s.hl v false).sum = s.hl + v := (overflowAdd16_sum _ _ _).trans (BitVec.add_zero _)
  have h : exec (.addHlRr p) s = .next ((s.setHl (overflowAdd16 s.hl (s.read16 p) false).sum).setFlags
    (addHlFlags s.flags (overflowAdd16 s.hl (s.read16 p) false))) := rfl
  rw [h, State.read16_eq, hsum, State.setFlags_eq, State.setHl_eq]
  rfl

/-- Settles O22: the displacement by its law, and F as the flags of the low byte's addition. -/
theorem stackPointerPlusOffset : Obligations.StackPointerPlusOffset := by
  intro s b f res
  have hres : res = s.sp + sext16 b := congrArg (s.sp + ·) (sext16_eq b).symm
  rw [hres]
  exact ⟨congrArg Host.Outcome.next (State.setFlags_eq _ _), congrArg Host.Outcome.next (State.setFlags_eq _ _)⟩

/-! ### Rotates as numbers (R220 to R224, R230 to R234) -/

/-- The bit shifted out to the left. -/
theorem getLsbD_seven_eq (v : Byte) : v.getLsbD 7 = decide (128 ≤ v.toNat) := by
  revert v
  decide

theorem rotLeft_eq (v : Byte) (c : Bool) :
    rotLeft v c = ⟨BitVec.ofNat 8 (2 * v.toNat + v.toNat / 128), 128 ≤ v.toNat⟩ := by
  have hres : v <<< 1 ||| bitAt (v.getLsbD 7) 0 = BitVec.ofNat 8 (2 * v.toNat + v.toNat / 128) := by
    revert v
    decide
  rw [rotLeft, hres, getLsbD_seven_eq]

theorem rotRight_eq (v : Byte) (c : Bool) :
    rotRight v c = ⟨BitVec.ofNat 8 (v.toNat / 2 + 128 * (v.toNat % 2)), v.toNat % 2 = 1⟩ := by
  have hres : v >>> 1 ||| bitAt (v.getLsbD 0) 7 = BitVec.ofNat 8 (v.toNat / 2 + 128 * (v.toNat % 2)) := by
    revert v
    decide
  rw [rotRight, hres, getLsbD_zero_eq_odd]

theorem rotLeftCarry_eq (v : Byte) (c : Bool) :
    rotLeftCarry v c = ⟨BitVec.ofNat 8 (2 * v.toNat + c.toNat), 128 ≤ v.toNat⟩ := by
  have hres : v <<< 1 ||| bitAt c 0 = BitVec.ofNat 8 (2 * v.toNat + c.toNat) := by
    revert v c
    decide
  rw [rotLeftCarry, hres, getLsbD_seven_eq]

theorem rotRightCarry_eq (v : Byte) (c : Bool) :
    rotRightCarry v c = ⟨BitVec.ofNat 8 (v.toNat / 2 + 128 * c.toNat), v.toNat % 2 = 1⟩ := by
  have hres : v >>> 1 ||| bitAt c 7 = BitVec.ofNat 8 (v.toNat / 2 + 128 * c.toNat) := by
    revert v c
    decide
  rw [rotRightCarry, hres, getLsbD_zero_eq_odd]

theorem shiftLeft_eq (v : Byte) (c : Bool) : shiftLeft v c = ⟨BitVec.ofNat 8 (2 * v.toNat), 128 ≤ v.toNat⟩ := by
  have hres : v <<< 1 = BitVec.ofNat 8 (2 * v.toNat) := by bv_omega
  rw [shiftLeft, hres, getLsbD_seven_eq]

/-- Settles O23: each rotate as a number, handed to the one rule for accumulator rotates. -/
theorem accumulatorRotatesByTheParameter : Obligations.AccumulatorRotatesByTheParameter := by
  intro s v x after
  have rotate {r : ShiftResult} {res : Nat} {cy : Bool} (hr : r = ⟨BitVec.ofNat 8 res, cy⟩) :
      (.next (s.rotateA r) : Result) = .next (after res cy) := by
    rw [State.rotateA_eq, hr]
  exact ⟨rotate (rotLeft_eq _ _), rotate (rotRight_eq _ _), rotate (rotLeftCarry_eq _ _),
    rotate (rotRightCarry_eq _ _)⟩

/-- Settles O25: each result as a number, handed to the one rule for prefixed shifts. -/
theorem prefixedRotatesAndSla : Obligations.PrefixedRotatesAndSla := by
  intro r s v x writes
  exact ⟨⟨_, rfl, State.operandWritten_shift8 (rotLeft_eq _ _) Iff.rfl⟩,
    ⟨_, rfl, State.operandWritten_shift8 (rotRight_eq _ _) Iff.rfl⟩,
    ⟨_, rfl, State.operandWritten_shift8 (rotLeftCarry_eq _ _) Iff.rfl⟩,
    ⟨_, rfl, State.operandWritten_shift8 (rotRightCarry_eq _ _) Iff.rfl⟩,
    ⟨_, rfl, State.operandWritten_shift8 (shiftLeft_eq _ _) Iff.rfl⟩⟩

/-! ### BIT (R240) -/

/-- A clear bit, read off the number by division. -/
theorem not_getLsbD_eq (v : Byte) (k : Nat) : (!v.getLsbD k) = (v.toNat / 2 ^ k % 2 == 0) := by
  rw [BitVec.getLsbD, Nat.testBit_eq_decide_div_mod_eq, Bool.eq_iff_iff, Bool.not_eq_true', decide_eq_false_iff_not,
    beq_iff_eq]
  omega

/-- Settles O26: one read of the operand, and F alone written. -/
theorem bitTestLeavesTheOperand : Obligations.BitTestLeavesTheOperand := by
  intro b r s
  have h : exec (.bitBR8 b r) s =
    .next ((s.read8 r).2.setFlags (bitTestFlags (s.read8 r).2.flags (s.read8 r).1 b)) := rfl
  rw [h, State.read8_eq, State.setFlags_eq, ← not_getLsbD_eq]
  rfl

end Sys2Proof.Machine

/-! # Jumps, calls and returns (44_control.md R260 to R272) -/

namespace Sys2Proof.Machine

/-! ### Jumps -/

theorem State.jumpTaken_eq (s : State) :
    s.jumpTaken = { s with pc := s.imm16, bus := s.bus ++ s.imm16Read } := by
  rw [State.jumpTaken, State.fetch16_eq]
  rfl

theorem State.jumpRelTaken_eq (s : State) :
    s.jumpRelTaken = { s with pc := s.pc + 1 + displacement s.imm8, bus := s.bus ++ s.imm8Read } := by
  rw [← sext16_eq]
  rfl

/-- Settles O28: the two taken jumps by their equations; a jump not taken is one update of `pc`. -/
theorem jumpsAbsoluteAndRelative : Obligations.JumpsAbsoluteAndRelative := by
  intro cc s
  rw [← State.jumpTaken_eq, ← State.jumpRelTaken_eq, ← State.cond_eq]
  exact ⟨rfl, rfl, rfl, rfl, rfl⟩

/-! ### Calls -/

/-- A push after the address bytes are fetched, and then the jump (D26). -/
theorem pushed_call (s : State) (v next target : Word) (reads : List BusAccess) :
    Pushed s ((({ s with pc := next, bus := s.bus ++ reads } : State).push16 v).setPc target) v target reads := by
  refine ⟨?_, storesWord_push16 { s with pc := next, bus := s.bus ++ reads } v⟩
  rw [State.push16_eq]
  rfl

theorem State.callTaken_pushed (s : State) : Pushed s s.callTaken (s.pc + 2) s.imm16 s.imm16Read := by
  rw [State.callTaken, State.fetch16_eq]
  exact pushed_call s (s.pc + 2) (s.pc + 2) s.imm16 s.imm16Read

theorem exec_callCc_taken {s : State} {cc : Cond} (h : s.holds cc = true) :
    exec (.callCcA16 cc) s = .next s.callTaken :=
  congrArg Host.Outcome.next (if_pos ((s.cond_eq cc).trans h))

theorem exec_rstT_pushed (k : BitVec 3) (s : State) :
    ∃ t, exec (.rstT k) s = .next t ∧ Pushed s t s.pc (BitVec.ofNat 16 (8 * k.toNat)) [] := by
  have h := pushed_call s s.pc s.pc (BitVec.ofNat 16 (8 * k.toNat)) []
  rw [List.append_nil] at h
  exact ⟨_, rfl, h⟩

/-- Settles O29: the two forms taken are one push and one jump, RST another; the form not taken skips its operand. -/
theorem callsAndRestarts : Obligations.CallsAndRestarts := by
  intro cc k s
  refine ⟨⟨_, rfl, s.callTaken_pushed⟩, fun h => ⟨_, exec_callCc_taken h, s.callTaken_pushed⟩, fun h => ?_,
    exec_rstT_pushed k s⟩
  have hcond : ¬ s.cond cc = true := by
    rw [s.cond_eq, h]
    exact Bool.false_ne_true
  exact congrArg Host.Outcome.next (if_neg hcond)

/-! ### Returns -/

theorem State.returnTaken_eq (s : State) :
    s.returnTaken = { s with pc := s.stackTop, sp := s.sp + 2, bus := s.bus ++ s.stackTopRead } := by
  rw [State.returnTaken, State.pop16_eq]
  rfl

/-- Settles O30: the return taken is one pop. -/
theorem returns : Obligations.Returns := by
  intro cc s popped
  have hpopped : popped = s.returnTaken := s.returnTaken_eq.symm
  rw [hpopped, ← State.cond_eq]
  exact ⟨rfl, rfl⟩

section
variable {s t : State} {v pc : Word} {reads : List BusAccess} (h : Pushed s t v pc reads)
include h

theorem Pushed.regs_eq : t.regs = s.regs := by rw [h.1]
theorem Pushed.pc_eq : t.pc = pc := by rw [h.1]
theorem Pushed.sp_add_two : t.sp + 2 = s.sp := by
  rw [h.1]
  exact BitVec.sub_add_cancel s.sp 2

/-- What was pushed is on top of the stack. -/
theorem Pushed.stackTop_eq : t.stackTop = v := by
  have hsp : t.sp = s.sp - 2 := by rw [h.1]
  have hhigh : s.sp - 2 + 1 ≠ s.sp - 2 := by bv_omega
  rw [State.stackTop, hsp, h.2, h.2, if_pos rfl, if_neg hhigh, if_pos rfl]
  exact hiByte_append_loByte v

/-- A return after a call goes back to the address pushed. -/
theorem Pushed.returns : ∃ u, exec .ret t = .next u ∧ u.pc = v ∧ u.sp = s.sp ∧ u.regs = s.regs := by
  refine ⟨t.returnTaken, rfl, ?_⟩
  rw [State.returnTaken_eq]
  exact ⟨h.stackTop_eq, h.sp_add_two, h.regs_eq⟩

end

/-- Settles O32: each kind of call pushes the address past its operand, and the return takes it off. -/
theorem callThenReturnComesBack : Obligations.CallThenReturnComesBack := by
  intro i s hi
  have hcall : ∃ t pc reads, exec i s = .next t ∧ Pushed s t (s.pc + BitVec.ofNat 16 i.format.immBytes) pc reads := by
    rcases hi with rfl | ⟨cc, rfl, hcc⟩ | ⟨k, rfl⟩
    · exact ⟨_, _, _, rfl, s.callTaken_pushed⟩
    · exact ⟨_, _, _, exec_callCc_taken hcc, s.callTaken_pushed⟩
    · obtain ⟨t, ht, hp⟩ := exec_rstT_pushed k s
      rw [← BitVec.add_zero s.pc] at hp
      exact ⟨t, _, _, ht, hp⟩
  obtain ⟨t, pc, reads, ht, hp⟩ := hcall
  obtain ⟨u, hu, hrest⟩ := hp.returns
  exact ⟨t, u, ht, hu, hrest⟩

end Sys2Proof.Machine

/-! # Loads through immediates and addresses, PUSH and POP (45_load_stack.md) -/

namespace Sys2Proof.Machine

/-! ### Immediates and `sp` (R291, R292, R307, R308) -/

/-- An operand written after the bytes of `reads` are fetched, with F kept. -/
theorem State.operandWritten_write8_reads (s : State) (r : Op8) (v : Byte) (reads : List BusAccess) :
    OperandWritten s (({ s with bus := s.bus ++ reads } : State).write8 r v) r v s.regs.f reads := by
  rcases r with n | _
  · cases n <;> rfl
  · exact ⟨rfl, fun b => State.memPeek_poke s s.hl b v⟩

/-- Two bytes stored one after the other, the low one first. -/
theorem storesWord_memWrite (s : State) (a v : Word) :
    StoresWord s ((s.memWrite a (loByte v)).memWrite (a + 1) (hiByte v)) a v := by
  intro b
  have hne : a ≠ a + 1 := by bv_omega
  rw [State.memPeek_memWrite, State.memPeek_memWrite]
  by_cases hb : b = a
  · rw [hb, if_neg hne, if_pos rfl, if_pos rfl]
    rfl
  · rw [if_neg hb, if_neg hb]
    rfl

theorem State.memWrite_memWrite_eq (s : State) (a b : Word) (v w : Byte) :
    (s.memWrite a v).memWrite b w =
      { s with
        mem := ((s.memWrite a v).memWrite b w).mem
        bus := s.bus ++ [.write a v, .write b w] } := by
  rw [← List.singleton_append, ← List.append_assoc]
  rfl

/-- Settles O34: the immediates by the equations of the fetches, the two bytes of `sp` by `storesWord_memWrite`. -/
theorem immediateLoadsAndStackPointerMoves : Obligations.ImmediateLoadsAndStackPointerMoves := by
  intro r p s
  refine ⟨⟨_, rfl, ?byte⟩, ?word, ⟨_, rfl, ?store⟩, rfl⟩
  case byte => exact State.operandWritten_write8_reads { s with pc := s.pc + 1 } r s.imm8 s.imm8Read
  case word =>
    have h : exec (.ldRrD16 p) s = .next (s.fetch16.2.write16 p s.fetch16.1) := rfl
    rw [h, State.fetch16_eq, State.write16_eq]
    cases p <;> rfl
  case store =>
    let fetched : State := { s with pc := s.pc + 2, bus := s.bus ++ s.imm16Read }
    rw [State.fetch16_eq]
    exact ⟨fetched.memWrite_memWrite_eq s.imm16 (s.imm16 + 1) (loByte s.sp) (hiByte s.sp),
      storesWord_memWrite fetched s.imm16 s.sp⟩

/-! ### A through memory (R293 to R306) -/

/-- The address of a mode without an immediate is computed without a bus access. -/
theorem State.effAddr_no_reads (s : State) (a : Word) : (a, s) = (a, ({ s with bus := s.bus ++ [] } : State)) := by
  rw [List.append_nil]

theorem State.effAddr_imm16 (s : State) :
    s.effAddr .imm16 = (s.imm16, { s with pc := s.pc + 2, bus := s.bus ++ s.imm16Read }) := s.fetch16_eq

theorem State.effAddr_highImm8 (s : State) :
    s.effAddr .highImm8 =
      (BitVec.ofNat 16 (65280 + s.imm8.toNat), { s with pc := s.pc + 1, bus := s.bus ++ s.imm8Read }) := by
  rw [← highAddr_eq]
  rfl

theorem State.effAddr_highC (s : State) :
    s.effAddr .highC = (BitVec.ofNat 16 (65280 + s.regs.c.toNat), { s with bus := s.bus ++ [] }) := by
  rw [← highAddr_eq, ← State.effAddr_no_reads]
  rfl

section
variable {s : State} {m : AddrMode} {a pc : Word} {reads : List BusAccess}
  (h : s.effAddr m = (a, { s with pc := pc, bus := s.bus ++ reads }))
include h

/-- The byte at the address of a mode into A. -/
theorem State.loadA_of_effAddr :
    s.loadA m = { s with
      regs := { s.regs with a := s.memPeek a }, pc := pc, bus := s.bus ++ reads ++ [.read a (s.memPeek a)] } := by
  rw [State.loadA, h]
  rfl

/-- A into the byte at the address of a mode. -/
theorem State.storeA_of_effAddr :
    s.storeA m = { s with
        pc := pc, mem := s.mem.write a.toNat s.regs.a, bus := s.bus ++ reads ++ [.write a s.regs.a] } := by
  rw [State.storeA, h]
  rfl

end

/-- Settles O35: each load by the address its mode gives; HL+ and HL- then write the pair. -/
theorem loadAFromMemory : Obligations.LoadAFromMemory := by
  intro s high loaded
  have direct := s.effAddr_no_reads
  have hlLoad := State.loadA_of_effAddr (m := .hl) (direct s.hl)
  refine ⟨?bc, ?de, ?inc, ?dec, ?a16, ?a8, ?c⟩
  case bc => exact congrArg Host.Outcome.next (State.loadA_of_effAddr (m := .bc) (direct s.bc))
  case de => exact congrArg Host.Outcome.next (State.loadA_of_effAddr (m := .de) (direct s.de))
  case inc => exact congrArg (fun t : State => Host.Outcome.next (t.setHl (s.hl + 1))) hlLoad
  case dec => exact congrArg (fun t : State => Host.Outcome.next (t.setHl (s.hl - 1))) hlLoad
  case a16 => exact congrArg Host.Outcome.next (State.loadA_of_effAddr s.effAddr_imm16)
  case a8 => exact congrArg Host.Outcome.next (State.loadA_of_effAddr s.effAddr_highImm8)
  case c => exact congrArg Host.Outcome.next (State.loadA_of_effAddr s.effAddr_highC)

/-- Settles O36: each store by the address its mode gives; HL+ and HL- then write the pair. -/
theorem storeAToMemory : Obligations.StoreAToMemory := by
  intro s high stored
  have direct := s.effAddr_no_reads
  have hlStore := State.storeA_of_effAddr (m := .hl) (direct s.hl)
  have stores (a : Word) : StoresByte s (s.poke a s.regs.a) a s.regs.a := fun b => State.memPeek_poke s a b s.regs.a
  refine ⟨?bc, ?de, ?inc, ?dec, ?a16, ?a8, ?c⟩
  case bc => exact ⟨_, congrArg Host.Outcome.next (State.storeA_of_effAddr (m := .bc) (direct s.bc)), rfl, stores _⟩
  case de => exact ⟨_, congrArg Host.Outcome.next (State.storeA_of_effAddr (m := .de) (direct s.de)), rfl, stores _⟩
  case inc =>
    exact ⟨_, congrArg (fun t : State => Host.Outcome.next (t.setHl (s.hl + 1))) hlStore, rfl, stores _⟩
  case dec =>
    exact ⟨_, congrArg (fun t : State => Host.Outcome.next (t.setHl (s.hl - 1))) hlStore, rfl, stores _⟩
  case a16 => exact ⟨_, congrArg Host.Outcome.next (State.storeA_of_effAddr s.effAddr_imm16), rfl, stores _⟩
  case a8 => exact ⟨_, congrArg Host.Outcome.next (State.storeA_of_effAddr s.effAddr_highImm8), rfl, stores _⟩
  case c => exact ⟨_, congrArg Host.Outcome.next (State.storeA_of_effAddr s.effAddr_highC), rfl, stores _⟩

/-! ### PUSH and POP (R330, R331) -/

theorem exec_pushRr_pushed (p : StackPair) (s : State) :
    ∃ t, exec (.pushRr p) s = .next t ∧ Pushed s t (s.stackPairValue p) s.pc [] := by
  rw [← State.read16S_eq]
  exact ⟨_, rfl, pushed_push16 s (s.read16S p)⟩

theorem exec_popRr (p : StackPair) (s : State) :
    exec (.popRr p) s =
      .next { s.putStackPair p s.stackTop with sp := s.sp + 2, bus := s.bus ++ s.stackTopRead } := by
  have h : exec (.popRr p) s = .next (s.pop16.2.write16S p s.pop16.1) := rfl
  rw [h, State.pop16_eq, State.write16S_eq]
  cases p <;> rfl

/-- Settles O37: the push and the pop by the stack primitives. -/
theorem pushAndPopOfAPair : Obligations.PushAndPopOfAPair := fun p s => ⟨exec_pushRr_pushed p s, exec_popRr p s⟩

/-- A pair reads back what was put in it, AF without its low nibble (R25). -/
theorem State.stackPairValue_putStackPair (s : State) (q : StackPair) (v : Word) :
    (s.putStackPair q v).stackPairValue q = if q = .af then v &&& 0xFFF0#16 else v := by
  cases q with
  | bc => exact hiByte_append_loByte v
  | de => exact hiByte_append_loByte v
  | hl => exact hiByte_append_loByte v
  | af => exact s.af_setAf v

theorem State.putStackPair_pc (s : State) (q : StackPair) (v : Word) : (s.putStackPair q v).pc = s.pc := by
  cases q <;> rfl

/-- The value of a pair is read from the registers alone. -/
theorem State.stackPairValue_congr {s t : State} (h : t.regs = s.regs) (q : StackPair) :
    t.stackPairValue q = s.stackPairValue q := by
  cases q <;> simp [State.stackPairValue, State.bc, State.de, State.hl, State.af, h]

/-- Settles O38: the pop finds the word pushed on top of the stack. -/
theorem pushThenPopMovesThePair : Obligations.PushThenPopMovesThePair := by
  intro p q s
  obtain ⟨t, ht, hp⟩ := exec_pushRr_pushed p s
  refine ⟨t, _, ht, exec_popRr q t, hp.sp_add_two, (t.putStackPair_pc q _).trans hp.pc_eq, ?_⟩
  rw [← State.stackPairValue_putStackPair t, ← hp.stackTop_eq]
  exact State.stackPairValue_congr rfl q

end Sys2Proof.Machine
